-- ==== Sys2Proof/Word.lean ====
section
/-! DEFINITION. The byte, and bits as Booleans (00_scope.md R8). -/

namespace Sys2Proof

/-- R8: "A byte is 8 bits. Bit 0 of a byte is its least significant bit; bit 7 its most significant." -/
abbrev Byte := BitVec 8

end Sys2Proof
end

