-- ==== Sys2Proof/Config.lean ====
section
/-! DEFINITION. What is fixed for one block: the constants and the OPEN parameters of 00_scope.md R7, the command and
response codes of 30_encoding.md R68 and R71, and the free values (no body: nothing in Lean can evaluate them). -/

namespace Sys2Proof

/-- R75 and R77: the bit positions inside byte 0 of each packet, the parameter `LAYOUT` of R7. -/
structure Layout where
  stRight : Fin 8
  stMiddle : Fin 8
  stLeft : Fin 8
  stScaling : Fin 8
  stReporting : Fin 8
  stRemote : Fin 8
  mvLeft : Fin 8
  mvRight : Fin 8
  mvMiddle : Fin 8
  mvXSign : Fin 8
  mvYSign : Fin 8
  mvXOvf : Fin 8
  mvYOvf : Fin 8
  deriving DecidableEq, Repr

/-- The positions of the tables in R75 and R77.
PRESUMED (unsafe): the spec itself takes them from general knowledge, not from its source (log 15). -/
def Layout.reference : Layout where
  stRight := 0
  stMiddle := 1
  stLeft := 2
  stScaling := 4
  stReporting := 5
  stRemote := 6
  mvLeft := 0
  mvRight := 1
  mvMiddle := 2
  mvXSign := 4
  mvYSign := 5
  mvXOvf := 6
  mvYOvf := 7

/-- R7: the parameters a block is built with, "A model takes each `OPEN` parameter as an argument". They are a field of
`State` that no step writes (log 1). -/
structure Params where
  /-- `P_CLK`, never inspected by any rule (R11). -/
  pClk : Nat
  /-- `P_DATA`, never inspected by any rule (R11). -/
  pData : Nat
  /-- `WAIT_LIMIT`: `none`, or a count of clock samples (R90, D5). -/
  waitLimit : Option Nat
  /-- `RESEND_LIMIT`: `none`, or a count of retransmissions (R120, D6). -/
  resendLimit : Option Nat
  /-- `CHECK_PARITY` (R107, D7). -/
  checkParity : Bool
  /-- `CHECK_STOP` (R108, D8). -/
  checkStop : Bool
  /-- `EXPOSE_OVERFLOW` (R153, D9). -/
  exposeOverflow : Bool
  /-- `LAYOUT` (R75, R77, D10). -/
  layout : Layout
  deriving DecidableEq, Repr

/-- The reference values of R7. The two pin numbers are a DESIGN CHOICE (safe: no rule reads them, log 2). -/
def Params.reference : Params where
  pClk := 0
  pData := 1
  waitLimit := none
  resendLimit := none
  checkParity := false
  checkStop := false
  exposeOverflow := true
  layout := Layout.reference

/-- R7: the pin identifiers are distinct and `WAIT_LIMIT` is `none` or positive. -/
abbrev Params.wf (p : Params) : Prop := p.pClk ≠ p.pData ∧ p.waitLimit ≠ some 0

namespace Config

/-- `DATA_BITS` of R7. -/
def dataBits : Nat := 8

/-- `FRAME_BITS` of R7: start, 8 data bits, parity, stop. -/
def frameBits : Nat := 11

/-- `PACKET_BYTES` of R7. -/
def packetBytes : Nat := 3

/-- `T_INHIBIT_US` of R7: "≥100 µs" (R100, D4). -/
def inhibitUs : Nat := 100

/-- The level a line shows at a read that `State.wire` does not answer: R6 leaves the answer to the environment.
A free value; the argument is the count of values drawn before it (log 4). -/
opaque freeLevel : Nat → Bool

/-- A byte of a packet buffer that no complete receive has filled: U7, "`any value` for the three bytes".
A free value; the argument is the count of values drawn before it (log 8). -/
opaque freeByte : Nat → Byte

end Config

/-- R68: the command bytes, "the set the driver must reproduce". -/
inductive CommandCode where
  | disableScaling
  | enableScaling
  | setResolution
  | statusRequest
  | setStreamMode
  | readData
  | reset
  | setRemoteMode
  | setSampleRate
  | enableDataReporting
  | disableDataReporting
  deriving DecidableEq, Repr

/-- R68: the code of each command. -/
def CommandCode.code : CommandCode → Byte
  | .disableScaling => 0xE6
  | .enableScaling => 0xE7
  | .setResolution => 0xE8
  | .statusRequest => 0xE9
  | .setStreamMode => 0xEA
  | .readData => 0xEB
  | .reset => 0xFF
  | .setRemoteMode => 0xF0
  | .setSampleRate => 0xF3
  | .enableDataReporting => 0xF4
  | .disableDataReporting => 0xF5

/-- R65: "two take a parameter (set resolution 0xE8, set sample rate 0xF3) and nine take none". -/
def CommandCode.takesParameter : CommandCode → Bool
  | .setResolution => true
  | .setSampleRate => true
  | .disableScaling => false
  | .enableScaling => false
  | .statusRequest => false
  | .setStreamMode => false
  | .readData => false
  | .reset => false
  | .setRemoteMode => false
  | .enableDataReporting => false
  | .disableDataReporting => false

/-- R71: the response bytes. -/
inductive ResponseCode where
  | isMouse
  | selfTestPassed
  | ack
  | error
  | resend
  deriving DecidableEq, Repr

/-- R71: "is-mouse = 0x00, self-test-passed = 0xAA, ack = 0xFA, error = 0xFC, resend = 0xFE." -/
def ResponseCode.code : ResponseCode → Byte
  | .isMouse => 0x00
  | .selfTestPassed => 0xAA
  | .ack => 0xFA
  | .error => 0xFC
  | .resend => 0xFE

end Sys2Proof
end

