-- ==== Sys2Proof/Syntax.lean ====
section
/-! DEFINITION. The instructions: one constructor per row of the opcode table, and the words that carry them (R60). -/

namespace Sys2Proof

/-- One constructor per row of opcode_table.json. -/
inductive Instr where
  /-- SENDBIT, R91; `b` is `A[0]`. -/
  | sendBit (b : Bool)
  /-- RECVBIT, R92. -/
  | recvBit
  /-- SENDBYTE, R100; `v` is `A`. -/
  | sendByte (v : Byte)
  /-- RECVBYTE, R105. -/
  | recvByte
  /-- SENDCMD, R121; `code` is `A`. -/
  | sendCmd (code : Byte)
  /-- SENDCMDP, R122; `code` is `A`, `param` is `B`. -/
  | sendCmdP (code param : Byte)
  /-- RESET, R132. -/
  | reset
  /-- ENSTREAM, R133. -/
  | enStream
  /-- DISSTREAM, R134. -/
  | disStream
  /-- SETSCALING, R135; `flag` is `A[0]`. -/
  | setScaling (flag : Bool)
  /-- SETRES, R136; `r` is `A`. -/
  | setRes (r : Byte)
  /-- SETRATE, R137; `r` is `A`. -/
  | setRate (r : Byte)
  /-- GETSETTINGS, R138. -/
  | getSettings
  /-- READDATA, R139. -/
  | readData
  /-- DECSTATUS, R150. -/
  | decStatus
  /-- DECMOTION, R151. -/
  | decMotion
  /-- Command byte 0xE6, R68. -/
  | cmdDisableScaling
  /-- Command byte 0xE7, R68. -/
  | cmdEnableScaling
  /-- Command byte 0xE8 and its parameter byte, R68. -/
  | cmdSetResolution (param : Byte)
  /-- Command byte 0xE9, R68. -/
  | cmdStatusRequest
  /-- Command byte 0xEA, R68. -/
  | cmdSetStreamMode
  /-- Command byte 0xEB, R68. -/
  | cmdReadData
  /-- Command byte 0xFF, R68. -/
  | cmdReset
  /-- Command byte 0xF0, R68. -/
  | cmdSetRemoteMode
  /-- Command byte 0xF3 and its parameter byte, R68. -/
  | cmdSetSampleRate (param : Byte)
  /-- Command byte 0xF4, R68. -/
  | cmdEnableDataReporting
  /-- Command byte 0xF5, R68. -/
  | cmdDisableDataReporting
  /-- Response byte 0x00, R71. -/
  | respIsMouse
  /-- Response byte 0xAA, R71. -/
  | respSelfTestPassed
  /-- Response byte 0xFA, R71. -/
  | respAck
  /-- Response byte 0xFC, R71. -/
  | respError
  /-- Response byte 0xFE, R71. -/
  | respResend
  /-- The frame of R61 for byte `v`: parity bit `p`, and `a`, the device's acknowledge bit. -/
  | frameTx (v : Byte) (p a : Bool)
  /-- The frame of R62 for byte `v`: parity bit `p`, stop bit `t`. -/
  | frameRx (v : Byte) (p t : Bool)
  /-- The Status Record of R74 and R75, byte 0 first. -/
  | status (b0 b1 b2 : Byte)
  /-- The Motion Packet of R76 and R77, byte 0 first. -/
  | motion (b0 b1 b2 : Byte)
  deriving DecidableEq, Repr

/-- A word as it is presented to the block, one constructor for each format of R60, with exactly the bits the format has.
The hardware tells the formats apart by where a word arrives (request port, line, direction), not by its bits (log 14). -/
inductive Item where
  /-- A request word on the port, R66. -/
  | req (w : BitVec 20)
  /-- A command byte of format CMD1, R64. -/
  | cmd1 (code : Byte)
  /-- A command byte of format CMD2 and its parameter byte, R64. -/
  | cmd2 (code param : Byte)
  /-- A response byte, R71. -/
  | resp (v : Byte)
  /-- R61 as the table's pattern `0ddddddddp1a`: first bit on the wire leftmost, bit 11. -/
  | frameTx (w : BitVec 12)
  /-- R62 as the table's pattern `0ddddddddpt`: first bit on the wire leftmost, bit 10. -/
  | frameRx (w : BitVec 11)
  /-- A Status Record in the order of arrival, R74. -/
  | status (b0 b1 b2 : Byte)
  /-- A Motion Packet in the order of arrival, R76. -/
  | motion (b0 b1 b2 : Byte)
  deriving DecidableEq, Repr

/-- The word is one for the request port. -/
def Item.isRequest : Item → Bool
  | .req _ => true
  | .cmd1 _ => false
  | .cmd2 _ _ => false
  | .resp _ => false
  | .frameTx _ => false
  | .frameRx _ => false
  | .status _ _ _ => false
  | .motion _ _ _ => false

end Sys2Proof
end

