-- ==== Sys2Proof/WellFormed.lean ====
section
/-! DEFINITION. Which instructions the encodings admit. -/

namespace Sys2Proof

/-- R63: "The parity bit is odd parity over the 8 data bits". The exclusive or of R61's row P. -/
def frameParity (v : Byte) : Bool :=
  true ^^ v.getLsbD 0 ^^ v.getLsbD 1 ^^ v.getLsbD 2 ^^ v.getLsbD 3 ^^ v.getLsbD 4 ^^ v.getLsbD 5 ^^ v.getLsbD 6 ^^ v.getLsbD 7

/-- Every operand value is admitted but one: the parity bit of a frame the block sends is `PAR` (R61), so a FRAME_TX with
another one is no frame of this block. A received frame may carry any parity and stop bit (R62). -/
def Instr.wf : Instr → Bool
  | .frameTx v p _ => p == frameParity v
  | .sendBit _ => true
  | .recvBit => true
  | .sendByte _ => true
  | .recvByte => true
  | .sendCmd _ => true
  | .sendCmdP _ _ => true
  | .reset => true
  | .enStream => true
  | .disStream => true
  | .setScaling _ => true
  | .setRes _ => true
  | .setRate _ => true
  | .getSettings => true
  | .readData => true
  | .decStatus => true
  | .decMotion => true
  | .cmdDisableScaling => true
  | .cmdEnableScaling => true
  | .cmdSetResolution _ => true
  | .cmdStatusRequest => true
  | .cmdSetStreamMode => true
  | .cmdReadData => true
  | .cmdReset => true
  | .cmdSetRemoteMode => true
  | .cmdSetSampleRate _ => true
  | .cmdEnableDataReporting => true
  | .cmdDisableDataReporting => true
  | .respIsMouse => true
  | .respSelfTestPassed => true
  | .respAck => true
  | .respError => true
  | .respResend => true
  | .frameRx _ _ _ => true
  | .status _ _ _ => true
  | .motion _ _ _ => true

end Sys2Proof
end

