-- ==== Sys2Proof/Decode.lean ====
section
/-! DEFINITION. From presented words to instructions and back, from the tables of 30_encoding.md (R61, R62, R66 to R68,
R71, R74 to R77). The decoder is total and rejects by name. -/

namespace Sys2Proof

/-- Why a presented word is no row of the table. Each names what was presented, since R72, R73, R106 and R126 give most of
these words an effect (`execOutsideTable`). -/
inductive DecodeError where
  /-- A byte presented as a command that R68 does not list in format CMD1. -/
  | unknownCommand (code : Byte)
  /-- Two bytes presented as a command with a parameter that R68 does not list in format CMD2. -/
  | unknownParameterCommand (code param : Byte)
  /-- A byte presented as a response that R71 does not list. -/
  | unknownResponse (v : Byte)
  /-- The start bit of a received frame is 1 (R62); `v`, `p` and `t` are the bits after it. -/
  | receivedStartBit (v : Byte) (p t : Bool)
  /-- The start bit of a frame the block sends is 1 (R61). -/
  | sentStartBit
  /-- The stop bit of a frame the block sends is 0 (R61). -/
  | sentStopBit
  /-- The parity bit of a frame the block sends is not `PAR` (R61, R63). -/
  | sentParityBit
  deriving DecidableEq, Repr

/-- The eight bits of a byte in the opposite order: R45 sends bit 0 first, and the patterns of the table write the first
bit on the wire leftmost. -/
def reverseBits (v : Byte) : Byte :=
  BitVec.ofBool (v.getLsbD 0) ++ BitVec.ofBool (v.getLsbD 1) ++ BitVec.ofBool (v.getLsbD 2) ++ BitVec.ofBool (v.getLsbD 3)
    ++ BitVec.ofBool (v.getLsbD 4) ++ BitVec.ofBool (v.getLsbD 5) ++ BitVec.ofBool (v.getLsbD 6) ++ BitVec.ofBool (v.getLsbD 7)

/-- The operation of R67 that `OPSEL` selects, with operands `a` and `b` of R66. "All 16 values are assigned; none is
reserved." -/
def decodeOp (opsel : BitVec 4) (a b : Byte) : Instr :=
  match opsel.toNat with
  | 0x0 => .sendBit (a.getLsbD 0)
  | 0x1 => .recvBit
  | 0x2 => .sendByte a
  | 0x3 => .recvByte
  | 0x4 => .sendCmd a
  | 0x5 => .sendCmdP a b
  | 0x6 => .reset
  | 0x7 => .enStream
  | 0x8 => .disStream
  | 0x9 => .setScaling (a.getLsbD 0)
  | 0xA => .setRes a
  | 0xB => .setRate a
  | 0xC => .getSettings
  | 0xD => .readData
  | 0xE => .decStatus
  | _ => .decMotion

/-- R66: `REQ[19:16]` = `OPSEL`, `REQ[15:8]` = `A`, `REQ[7:0]` = `B`. -/
def decodeReq (w : BitVec 20) : Instr :=
  decodeOp (w.extractLsb' 16 4) (w.extractLsb' 8 8) (w.extractLsb' 0 8)

/-- The rows of R68 in format CMD1. -/
def cmd1Rows : List (Byte × Instr) :=
  [(0xE6, .cmdDisableScaling), (0xE7, .cmdEnableScaling), (0xE9, .cmdStatusRequest), (0xEA, .cmdSetStreamMode),
   (0xEB, .cmdReadData), (0xFF, .cmdReset), (0xF0, .cmdSetRemoteMode), (0xF4, .cmdEnableDataReporting),
   (0xF5, .cmdDisableDataReporting)]

/-- The rows of R68 in format CMD2, with the parameter byte `p`. -/
def cmd2Rows (p : Byte) : List (Byte × Instr) :=
  [(0xE8, .cmdSetResolution p), (0xF3, .cmdSetSampleRate p)]

/-- The rows of R71. -/
def respRows : List (Byte × Instr) :=
  [(0x00, .respIsMouse), (0xAA, .respSelfTestPassed), (0xFA, .respAck), (0xFC, .respError), (0xFE, .respResend)]

/-- R61 as the table's pattern `0ddddddddp1a`, leftmost bit 11: start, d0 to d7, parity, stop, acknowledge. -/
def decodeFrameTx (w : BitVec 12) : Except DecodeError Instr :=
  let v := reverseBits (w.extractLsb' 3 8)
  if w.getLsbD 11 then .error .sentStartBit
  else if !w.getLsbD 1 then .error .sentStopBit
  else if w.getLsbD 2 ≠ frameParity v then .error .sentParityBit
  else .ok (.frameTx v (w.getLsbD 2) (w.getLsbD 0))

/-- R62 as the table's pattern `0ddddddddpt`, leftmost bit 10: start, d0 to d7, parity, stop. -/
def decodeFrameRx (w : BitVec 11) : Except DecodeError Instr :=
  let v := reverseBits (w.extractLsb' 2 8)
  if w.getLsbD 10 then .error (.receivedStartBit v (w.getLsbD 1) (w.getLsbD 0))
  else .ok (.frameRx v (w.getLsbD 1) (w.getLsbD 0))

/-- The instruction of a presented word; total on any bits in any format. -/
def decode : Item → Except DecodeError Instr
  | .req w => .ok (decodeReq w)
  | .cmd1 c => (cmd1Rows.lookup c).elim (.error (.unknownCommand c)) .ok
  | .cmd2 c p => ((cmd2Rows p).lookup c).elim (.error (.unknownParameterCommand c p)) .ok
  | .resp v => (respRows.lookup v).elim (.error (.unknownResponse v)) .ok
  | .frameTx w => decodeFrameTx w
  | .frameRx w => decodeFrameRx w
  | .status b0 b1 b2 => .ok (.status b0 b1 b2)
  | .motion b0 b1 b2 => .ok (.motion b0 b1 b2)

/-- R66: the request word of an operation as a presented item. -/
def reqItem (opsel : BitVec 4) (a b : Byte) : Item := .req (opsel ++ a ++ b)

/-- A one-bit operand in `A[0]`, the unused bits of `A` zero (R66, D20). -/
def bitOperand (b : Bool) : Byte := if b then 1 else 0

/-- The word of a well-formed instruction, from the same tables; operand bits an operation does not use are zero. -/
def encode : Instr → Item
  | .sendBit b => reqItem 0x0 (bitOperand b) 0
  | .recvBit => reqItem 0x1 0 0
  | .sendByte v => reqItem 0x2 v 0
  | .recvByte => reqItem 0x3 0 0
  | .sendCmd code => reqItem 0x4 code 0
  | .sendCmdP code param => reqItem 0x5 code param
  | .reset => reqItem 0x6 0 0
  | .enStream => reqItem 0x7 0 0
  | .disStream => reqItem 0x8 0 0
  | .setScaling flag => reqItem 0x9 (bitOperand flag) 0
  | .setRes r => reqItem 0xA r 0
  | .setRate r => reqItem 0xB r 0
  | .getSettings => reqItem 0xC 0 0
  | .readData => reqItem 0xD 0 0
  | .decStatus => reqItem 0xE 0 0
  | .decMotion => reqItem 0xF 0 0
  | .cmdDisableScaling => .cmd1 0xE6
  | .cmdEnableScaling => .cmd1 0xE7
  | .cmdSetResolution param => .cmd2 0xE8 param
  | .cmdStatusRequest => .cmd1 0xE9
  | .cmdSetStreamMode => .cmd1 0xEA
  | .cmdReadData => .cmd1 0xEB
  | .cmdReset => .cmd1 0xFF
  | .cmdSetRemoteMode => .cmd1 0xF0
  | .cmdSetSampleRate param => .cmd2 0xF3 param
  | .cmdEnableDataReporting => .cmd1 0xF4
  | .cmdDisableDataReporting => .cmd1 0xF5
  | .respIsMouse => .resp 0x00
  | .respSelfTestPassed => .resp 0xAA
  | .respAck => .resp 0xFA
  | .respError => .resp 0xFC
  | .respResend => .resp 0xFE
  | .frameTx v p a => .frameTx ((0 : BitVec 1) ++ reverseBits v ++ BitVec.ofBool p ++ (1 : BitVec 1) ++ BitVec.ofBool a)
  | .frameRx v p t => .frameRx ((0 : BitVec 1) ++ reverseBits v ++ BitVec.ofBool p ++ BitVec.ofBool t)
  | .status b0 b1 b2 => .status b0 b1 b2
  | .motion b0 b1 b2 => .motion b0 b1 b2

/-- A one-byte word of the table: a command of format CMD1, a command of format CMD2 with a parameter byte of zeros, or a
response; the codes of R68 and R71 do not overlap. -/
def itemOfByte (c : Byte) : Item :=
  if c = 0xE8 ∨ c = 0xF3 then .cmd2 c 0 else if (respRows.lookup c).isSome then .resp c else .cmd1 c

/-- A 16-bit word: a FRAME_TX (12 bits) where it is one, else a FRAME_RX (11 bits) where it fits in one. -/
def itemOfHalfWord (w : Nat) : Item :=
  match decodeFrameTx (BitVec.ofNat 12 w) with
  | .ok _ => .frameTx (BitVec.ofNat 12 w)
  | .error _ => if w < 0x800 then .frameRx (BitVec.ofNat 11 w) else .frameTx (BitVec.ofNat 12 w)

/-- A table row's word, in its width rounded up to whole bytes, as a presented item.
A width does not always say the format: 24 bits hold a REQ (20 bits) or a packet, 16 bits a FRAME_TX (12) or a FRAME_RX
(11). 24 bits are read as a REQ where they fit in 20, else as a Status Record, byte 0 in the low bits (DESIGN CHOICE,
log 14). `step` never uses this function. -/
def itemOfTableWord (nbits w : Nat) : Item :=
  match nbits with
  | 8 => itemOfByte (BitVec.ofNat 8 w)
  | 11 => .frameRx (BitVec.ofNat 11 w)
  | 12 => .frameTx (BitVec.ofNat 12 w)
  | 16 => itemOfHalfWord w
  | _ =>
    if w < 0x100000 then .req (BitVec.ofNat 20 w)
    else .status (BitVec.ofNat 8 w) (BitVec.ofNat 8 (w / 0x100)) (BitVec.ofNat 8 (w / 0x10000))

/-- The instruction the decoder reads from a table row's word. -/
def decodeTableWord (nbits w : Nat) : Option Instr :=
  match decode (itemOfTableWord nbits w) with
  | .ok i => some i
  | .error _ => none

end Sys2Proof
end

