-- ==== Sys2Proof/Machine/State.lean ====
section
/-! DEFINITION. The state of the block (10_state.md), plain data: every register the spec names, the sequencer phase, and
the model's own input and record fields. -/

namespace Sys2Proof.Machine

/-- The two lines of the pin space (R40). -/
inductive Line where
  | clk
  | data
  deriving DecidableEq, Repr

/-- R12: the drive states of a line. -/
inductive Drive where
  | outLow
  | outHigh
  | inFloat
  | inPullup
  deriving DecidableEq, Repr

/-- R12: `OUT_LOW` = 0, `OUT_HIGH` = 1, `IN` = 2, `IN_PULLUP` = 3. -/
def Drive.code : Drive → BitVec 2
  | .outLow => 0
  | .outHigh => 1
  | .inFloat => 2
  | .inPullup => 3

/-- R13: the Device Session state. -/
inductive Session where
  | uninit
  | remoteIdle
  | remoteReading
  | streaming
  deriving DecidableEq, Repr

/-- R13: `UNINIT` = 0, `REMOTE_IDLE` = 1, `REMOTE_READING` = 2, `STREAMING` = 3. -/
def Session.code : Session → BitVec 2
  | .uninit => 0
  | .remoteIdle => 1
  | .remoteReading => 2
  | .streaming => 3

/-- R14: the communication mode. -/
inductive Mode where
  | remote
  | streaming
  deriving DecidableEq, Repr

/-- R14: `MODE = streaming (1)` when `SESSION = STREAMING`, and `MODE = remote (0)` for the other three values. -/
def Session.mode : Session → Mode
  | .streaming => .streaming
  | .uninit => .remote
  | .remoteIdle => .remote
  | .remoteReading => .remote

/-- R14: `remote` is 0, `streaming` is 1. -/
def Mode.code : Mode → BitVec 1
  | .remote => 0
  | .streaming => 1

/-- R170: the failure kinds, the values of `ERR`. -/
inductive ErrKind where
  | none
  | framing
  | protocol
  | noData
  | nak
  | timeout
  | retryExhausted
  | parity
  deriving DecidableEq, Repr

/-- R170: the codes of `ERR`. -/
def ErrKind.code : ErrKind → BitVec 3
  | .none => 0
  | .framing => 1
  | .protocol => 2
  | .noData => 3
  | .nak => 4
  | .timeout => 5
  | .retryExhausted => 6
  | .parity => 7

/-- R26: the status result registers `ST_*`. -/
structure StatusRegs where
  right : Bool
  middle : Bool
  left : Bool
  scaling : Bool
  reporting : Bool
  remote : Bool
  res : Byte
  rate : Byte
  deriving DecidableEq, Repr

/-- R27: the motion result registers `MV_*`. -/
structure MotionRegs where
  left : Bool
  right : Bool
  middle : Bool
  dx : BitVec 9
  dy : BitVec 9
  xovf : Bool
  yovf : Bool
  deriving DecidableEq, Repr

/-- R6: a primitive event, with the answer to a read. -/
inductive Event where
  | read (line : Line) (level : Bool)
  | set (line : Line) (drive : Drive)
  | delay (us : Nat)
  deriving DecidableEq, Repr

/-- The levels of both lines at the moment of one read of the block (R41), `true` high; the read takes its own line's. -/
structure Levels where
  clk : Bool
  data : Bool
  deriving DecidableEq, Repr

/-- R25: where a SENDBIT waits, holding its operand until the drive step. -/
inductive SendBitPhase where
  | waitLow (b : Bool)
  | waitHigh
  deriving DecidableEq, Repr

/-- R25: where a RECVBIT waits. -/
inductive RecvBitPhase where
  | waitLow
  | sample
  | waitHigh
  deriving DecidableEq, Repr

/-- R25: where a SENDBYTE waits: in a driven cell or in the acknowledge cell; `BITCNT` is the cell. -/
inductive SendBytePhase where
  | cell (bit : SendBitPhase)
  | ack (bit : RecvBitPhase)
  deriving DecidableEq, Repr

/-- R25: where a RECVBYTE waits: in a cell before the stop bit, `BITCNT` being the cell, or in the stop bit, with the
parity bit `p` already received (a local of R105's pseudocode). -/
inductive RecvBytePhase where
  | cell (bit : RecvBitPhase)
  | stop (p : Bool) (bit : RecvBitPhase)
  deriving DecidableEq, Repr

/-- R120: the states of the handshake machine that wait (COMPARE does not). -/
inductive AckPhase where
  | send (byte : SendBytePhase)
  | recvAck (byte : RecvBytePhase)
  deriving DecidableEq, Repr

/-- R25: "whether the byte is the command or the parameter"; a command may have a parameter still to be sent. -/
inductive WhichByte where
  | command
  | commandThen (param : Byte)
  | parameter
  deriving DecidableEq, Repr

/-- R25: where a SENDCMD or SENDCMDP waits. -/
structure CommandPhase where
  which : WhichByte
  ack : AckPhase
  deriving DecidableEq, Repr

/-- R25: where a RECV3 waits; `index` is the byte being received. -/
structure Recv3Phase where
  index : Fin 3
  byte : RecvBytePhase
  deriving DecidableEq, Repr

/-- R25: the Device Session operation and its step. `s0` is the value of `SESSION` that R140 restores. -/
inductive SessionPhase where
  | resetSend (p : CommandPhase)
  | resetSelfTest (p : RecvBytePhase)
  | resetIdentity (p : RecvBytePhase)
  | resetRemote (p : CommandPhase)
  | resetEnable (p : CommandPhase)
  | enStream (p : CommandPhase)
  | disStream (p : CommandPhase)
  | setScaling (p : CommandPhase)
  | setRes (p : CommandPhase)
  | setRate (p : CommandPhase)
  | getSend (p : CommandPhase)
  | getRecv (p : Recv3Phase)
  | readSend (s0 : Session) (p : CommandPhase)
  | readRecv (s0 : Session) (p : Recv3Phase)
  | streamPoll
  | streamRecv (p : Recv3Phase)
  deriving DecidableEq, Repr

/-- R25: the sequencer phase stack, in the place of a program counter: the operation requested on the port and, nested in
it, the step of each active level below. `idle` is the empty stack. Every non-empty phase stands at a `PinRead` that is
still to be answered (log 9). -/
inductive Phase where
  | idle
  | sendBit (p : SendBitPhase)
  | recvBit (p : RecvBitPhase)
  | sendByte (p : SendBytePhase)
  | recvByte (p : RecvBytePhase)
  | command (p : CommandPhase)
  | session (p : SessionPhase)
  deriving DecidableEq, Repr

/-- The packet buffer (R40, R42): cells in the canonical form of `Memory.wf`. -/
abbrev Memory := List Host.Cell

/-- The state of the block. Fields up to `mv` are the registers of R12 to R28; `params` holds the parameters of R7; the last
four are the model's own. -/
structure State where
  /-- R7, log 1. -/
  params : Params
  /-- `CLK_DRV`, R12. -/
  clkDrv : Drive
  /-- `DATA_DRV`, R12. -/
  dataDrv : Drive
  /-- `SESSION`, R13. -/
  session : Session
  /-- `TXR`, R15. -/
  txr : Byte
  /-- `RXR`, R16. -/
  rxr : Byte
  /-- `PAR`, R17. -/
  par : Bool
  /-- `BITCNT`, R18. -/
  bitcnt : BitVec 4
  /-- `ACKBIT`, R19. -/
  ackbit : Bool
  /-- `RXBIT`, R20. -/
  rxbit : Bool
  /-- `CMDR`, R21. -/
  cmdr : Byte
  /-- `ACKR`, R21. -/
  ackr : Byte
  /-- `RETRY`, R22. -/
  retry : Nat
  /-- `WAITCNT`, R22, R28. -/
  waitcnt : Nat
  /-- `RXBUF[0..2]`, R23. -/
  rxbuf : Memory
  /-- `RXCNT`, R23. -/
  rxcnt : BitVec 2
  /-- `BUSY`, R24. -/
  busy : Bool
  /-- `OK`, R24. -/
  ok : Bool
  /-- `ERR`, R24, R170. -/
  err : ErrKind
  /-- `RESULT`, R24. -/
  result : Byte
  /-- `PHASE`, R25. -/
  phase : Phase
  /-- `ST_*`, R26. -/
  st : StatusRegs
  /-- `MV_*`, R27. -/
  mv : MotionRegs
  /-- The levels at the block's next reads: the environment's answers still to come (R6, log 3). -/
  wire : List Levels
  /-- What is still to be presented to the block, next first (R66, log 10). -/
  inbox : List Item
  /-- The primitive events so far, newest first (R6, log 16). -/
  trace : List Event
  /-- How many free values have been drawn (log 4, log 8). -/
  draws : Nat
  deriving DecidableEq, Repr

/-- R30: the registers with a value the spec gives are SESSION, BUSY, OK, ERR, PHASE, RETRY and WAITCNT. The drive states
are not driven (DESIGN CHOICE, log 5) and every other register is zero (DESIGN CHOICE, log 6, log 7). R190: construction
"performs no primitive event". -/
def State.construct (p : Params) : State where
  params := p
  clkDrv := .inFloat
  dataDrv := .inFloat
  session := .uninit
  txr := 0
  rxr := 0
  par := false
  bitcnt := 0
  ackbit := false
  rxbit := false
  cmdr := 0
  ackr := 0
  retry := 0
  waitcnt := 0
  rxbuf := []
  rxcnt := 0
  busy := false
  ok := false
  err := .none
  result := 0
  phase := .idle
  st := { right := false, middle := false, left := false, scaling := false, reporting := false, remote := false,
          res := 0, rate := 0 }
  mv := { left := false, right := false, middle := false, dx := 0, dy := 0, xovf := false, yovf := false }
  wire := []
  inbox := []
  trace := []
  draws := 0

/-- R190: "Block reset is construction", here with the reference parameters of R7. -/
def State.reset : State := State.construct Params.reference

/-- Why the machine stops. The block itself has no trap: its failures are results in `OK` and `ERR` (R170 to R172). -/
inductive Fault where
  /-- Raised by `step`: `BUSY` = 1 with an empty `PHASE`. R25 rules it out ("It is empty when `BUSY = 0`", and "During an
  operation it identifies the next primitive event"), so no run from reset reaches it; safe (log 18). -/
  | phaseLost
  deriving DecidableEq, Repr

/-- Why the model gives no meaning. Every arm of `exec` has one, and `step` gives every presented word an effect, so nothing
raises it. -/
inductive Refusal where
  /-- To be raised by `exec` in an arm that has no meaning; safe. No arm raises it. -/
  | notModelled (mnemonic : String)
  deriving DecidableEq, Repr

end Sys2Proof.Machine
end

