-- ==== Sys2Proof/Machine/Ops.lean ====
section
/-! DEFINITION. The shared operations: the three primitive events (R6), the packet buffer (R42), the three ways a
sub-operation stands after running (done, raised, waiting), and how an operation on the port starts and ends (R66, R172). -/

namespace Sys2Proof.Machine

/-! The packet buffer -/

/-- What a buffer address that is not listed reads as. R30 gives no reset content: DESIGN CHOICE 0x00, unsafe (log 7). -/
def Memory.unlisted : Byte := 0

/-- `MemRead(a, 1)` of R8 and R42. -/
def Memory.read (m : Memory) (a : Nat) : Byte :=
  match m with
  | [] => Memory.unlisted
  | c :: rest => if c.1 = a then c.2 else Memory.read rest a

/-- `MemWrite(a, 1, v)` of R8 and R42, keeping the canonical form: a cell that reads as an unlisted one is not listed. -/
def Memory.write (m : Memory) (a : Nat) (v : Byte) : Memory :=
  match m with
  | [] => if v = Memory.unlisted then [] else [(a, v)]
  | c :: rest =>
    if a < c.1 then (if v = Memory.unlisted then c :: rest else (a, v) :: c :: rest)
    else if c.1 = a then (if v = Memory.unlisted then rest else (a, v) :: rest)
    else c :: Memory.write rest a v

/-- Every address is below `bound`, at least `low`, strictly rising, and no cell reads as an unlisted one. -/
def Memory.sortedFrom (low bound : Nat) : Memory → Bool
  | [] => true
  | c :: rest => decide (low ≤ c.1) && decide (c.1 < bound) && decide (c.2 ≠ Memory.unlisted) && Memory.sortedFrom (c.1 + 1) bound rest

/-- The canonical form, over the buffer's three addresses (R40, R42). -/
def Memory.wf (m : Memory) : Bool := Memory.sortedFrom 0 Config.packetBytes m

/-! What the spec names but does not store -/

/-- R14: `MODE`, derived from `SESSION`. -/
def State.mode (s : State) : Mode := s.session.mode

/-- The primitive events so far in time order (R6, R8: the trace). -/
def State.events (s : State) : List Event := s.trace.reverse

/-- What the requester can read (R165, D35): everything but `BUSY` and `SESSION` is meaningful only when `BUSY = 0`. -/
structure ResultPort where
  busy : Bool
  session : Session
  mode : Mode
  ok : Option Bool
  err : Option (BitVec 3)
  result : Option Byte
  st : Option StatusRegs
  mv : Option MotionRegs
  deriving DecidableEq, Repr

/-- R165: the result port; reading it changes nothing. -/
def State.resultPort (s : State) : ResultPort where
  busy := s.busy
  session := s.session
  mode := s.mode
  ok := if s.busy then none else some s.ok
  err := if s.busy then none else some s.err.code
  result := if s.busy then none else some s.result
  st := if s.busy then none else some s.st
  mv := if s.busy then none else some s.mv

/-- R81 and R138: the Settings, three of the status registers. -/
structure Settings where
  scaling : Bool
  resolution : Byte
  sampleRate : Byte
  deriving DecidableEq, Repr

/-- R138: "The Settings returned to the requester are `ST_SCALING`, `ST_RES`, `ST_RATE`". -/
def State.settings (s : State) : Settings :=
  { scaling := s.st.scaling, resolution := s.st.res, sampleRate := s.st.rate }

/-! Running a sub-operation -/

/-- How a sub-operation stands after running over the answers at hand. -/
inductive Run (φ α : Type) where
  /-- It returned `v`. -/
  | done (v : α) (s : State)
  /-- R172: it raised `k`. -/
  | raised (k : ErrKind) (s : State)
  /-- Its next primitive event is a `PinRead` that is still to be answered; `ph` is its place (R25). -/
  | waiting (ph : φ) (s : State)

/-- `call` (R8): run `r` in place `wrap`, then go on with `k`; a raise inside it propagates. -/
def Run.within {φ ψ α β : Type} (r : Run φ α) (wrap : φ → ψ) (k : α → State → Run ψ β) : Run ψ β :=
  match r with
  | .done v s => k v s
  | .raised e s => .raised e s
  | .waiting ph s => .waiting (wrap ph) s

/-- The one clean-up on the way up that R172 names (READDATA, R140): act on the state when `r` raises. -/
def Run.onRaise {φ α : Type} (r : Run φ α) (f : State → State) : Run φ α :=
  match r with
  | .done v s => .done v s
  | .raised e s => .raised e (f s)
  | .waiting ph s => .waiting ph s

/-! The primitive events -/

/-- The level a snapshot gives a line. -/
def Levels.at (l : Levels) : Line → Bool
  | .clk => l.clk
  | .data => l.data

/-- The state after a read of line `p` that snapshot `l` answered, `rest` being left. R53: a read "changes no state of the
block". -/
def State.took (s : State) (p : Line) (l : Levels) (rest : List Levels) : State :=
  { s with wire := rest, trace := .read p (l.at p) :: s.trace }

/-- `PinRead(p)` of R6: the environment decides the outcome (R41). -/
def pinRead (p : Line) (s : State) : Run Unit Bool :=
  match s.wire with
  | [] => .waiting () s
  | l :: rest => .done (l.at p) (s.took p l rest)

/-- `PinSet(p, m)` of R6 and R12. -/
def pinSet (p : Line) (m : Drive) (s : State) : State :=
  match p with
  | .clk => { s with clkDrv := m, trace := .set .clk m :: s.trace }
  | .data => { s with dataDrv := m, trace := .set .data m :: s.trace }

/-- `DelayUs(n)` of R6: "the model has no time, the event is only recorded". -/
def delayUs (n : Nat) (s : State) : State := { s with trace := .delay n :: s.trace }

/-! Starting and ending an operation on the port -/

/-- R66: "The block sets `BUSY <- 1`". -/
def State.accept (s : State) : State := { s with busy := true }

/-- R24, R66: the end of an operation that succeeded. -/
def State.succeed (s : State) : State := { s with busy := false, phase := .idle, ok := true, err := .none }

/-- R172: the end of an operation that raised `k`: `OK <- 0`, `ERR <- K`, `BUSY <- 0`, and nothing else. -/
def State.fail (k : ErrKind) (s : State) : State := { s with busy := false, phase := .idle, ok := false, err := k }

/-- R25: an operation that waits keeps its place; `BUSY` stays 1. -/
def State.hold (ph : Phase) (s : State) : State := { s with phase := ph }

/-- R25: the stack is taken up while the operation runs on; `hold` puts the place back. -/
def State.goOn (s : State) : State := { s with phase := .idle }

/-- The state an operation on the port leaves: `out` writes its result registers (R66). -/
def conclude {φ α : Type} (r : Run φ α) (wrap : φ → Phase) (out : α → State → State) : State :=
  match r with
  | .done v s => (out v s).succeed
  | .raised k s => s.fail k
  | .waiting ph s => s.hold (wrap ph)

/-- No result register but `OK` and `ERR`. -/
def noResult {α : Type} (_ : α) (s : State) : State := s

/-- R66: a strobe while `BUSY = 0` is accepted and the operation `op` is run; "A strobe while `BUSY = 1` is ignored". -/
def request (op : State → State) (s : State) : Host.Outcome State Fault Refusal :=
  if s.busy then .next s else .next (op s.accept)

/-- R6, D28: every read is answered. When the answers at hand are used up, the next one is a free value (log 4). -/
def State.answered (s : State) : State :=
  match s.wire with
  | [] =>
    { s with wire := [{ clk := Config.freeLevel s.draws, data := Config.freeLevel (s.draws + 1) }], draws := s.draws + 2 }
  | _ :: _ => s

/-- What is presented next, with the state it is then run in (R66). -/
def State.nextItem (s : State) : Option (Item × State) :=
  match s.inbox with
  | [] => none
  | it :: rest => some (it, { s with inbox := rest })

/-- The state with `it` presented next, before what was to be presented. -/
def State.present (it : Item) (s : State) : State := { s with inbox := it :: s.inbox }

end Sys2Proof.Machine
end

