-- ==== Sys2Proof/Machine/Operands.lean ====
section
/-! DEFINITION. Operand and result forms: bits of a byte, zero extension, the displacement (R8, R78, R152). -/

namespace Sys2Proof.Machine

/-- `v[i] <- b` (R8). -/
def setBit (v : Byte) (i : Nat) (b : Bool) : Byte :=
  if b then v ||| ((1 : Byte) <<< i) else v &&& ~~~((1 : Byte) <<< i)

/-- `zext_8` of one bit (R92). -/
def zext8 (b : Bool) : Byte := if b then 1 else 0

/-- R91: `PinSet(DATA, if b = 1 then OUT_HIGH else OUT_LOW)`. -/
def driveOf (b : Bool) : Drive := if b then .outHigh else .outLow

/-- R152: `d = m − 256·s`, exact in the integers. -/
def displacement (s : Bool) (m : Byte) : Int := if s then (m.toNat : Int) - 256 else (m.toNat : Int)

/-- R27, R151: the displacement as nine bits, two's complement. -/
def displacement9 (s : Bool) (m : Byte) : BitVec 9 := BitVec.ofInt 9 (displacement s m)

end Sys2Proof.Machine
end

