-- ==== Sys2Proof/Machine/Flags.lean ====
section
/-! DEFINITION. The parity accumulator `PAR` and the optional checks of a received byte (R17, R63, R107, R108). -/

namespace Sys2Proof.Machine

/-- R17: "parity starts at 1". -/
def parityStart : Bool := true

/-- R17: "and is exclusive-ored with every data bit". -/
def parityStep (par b : Bool) : Bool := par ^^ b

/-- R63: `1 ^ (popcount(v) mod 2)`, the bit the accumulator reaches after the eight data bits of `v`. -/
def oddParity (v : Byte) : Bool := (List.range 8).foldl (fun par i => parityStep par (v.getLsbD i)) parityStart

/-- R105 step 4, in the order of R174: parity before stop. `p` and `t` are the received parity and stop bits. -/
def frameCheck (p t : Bool) (s : State) : Option ErrKind :=
  if s.params.checkParity && p != s.par then some .parity
  else if s.params.checkStop && !t then some .framing
  else none

/-- R90: `WAIT_LIMIT ≠ none and WAITCNT ≥ WAIT_LIMIT`. -/
def waitExpired (s : State) : Bool :=
  match s.params.waitLimit with
  | none => false
  | some n => decide (n ≤ s.waitcnt)

/-- R120: `RESEND_LIMIT ≠ none and RETRY > RESEND_LIMIT`. -/
def resendExpired (s : State) : Bool :=
  match s.params.resendLimit with
  | none => false
  | some n => decide (n < s.retry)

end Sys2Proof.Machine
end

