-- ==== Sys2Proof/Machine/BitTransport.lean ====
section
/-! DEFINITION. Bit Transport (41_bit_transport.md): WAITCLK, SENDBIT, RECVBIT. -/

namespace Sys2Proof.Machine

/-- The loop of WAITCLK (R90) over the answers at hand: read the clock until it is at `level`. -/
def waitLoop (level : Bool) (answers : List Levels) (s : State) : Run Unit Unit :=
  match answers with
  | [] => .waiting () s
  | l :: rest =>
    if l.clk = level then .done () (s.took .clk l rest)
    else if waitExpired { s.took .clk l rest with waitcnt := s.waitcnt + 1 } then
      .raised .timeout { s.took .clk l rest with waitcnt := s.waitcnt + 1 }
    else waitLoop level rest { s.took .clk l rest with waitcnt := s.waitcnt + 1 }

/-- WAITCLK(`level`) going on with the count it has: the wait of an operation that already waits. -/
def waitMore (level : Bool) (s : State) : Run Unit Unit := waitLoop level s.wire s

/-- WAITCLK(`level`), R90: `WAITCNT <- 0`, then the loop. -/
def waitClk (level : Bool) (s : State) : Run Unit Unit := waitMore level { s with waitcnt := 0 }

/-- SENDBIT(`b`), R91, from its drive step. -/
def sendBitDrive (b : Bool) (s : State) : Run SendBitPhase Unit :=
  (waitClk true (pinSet .data (driveOf b) s)).within (fun _ => .waitHigh) fun _ s => .done () s

/-- SENDBIT(`b`), R91. -/
def sendBit (b : Bool) (s : State) : Run SendBitPhase Unit :=
  (waitClk false s).within (fun _ => .waitLow b) fun _ s => sendBitDrive b s

/-- A SENDBIT going on from where it waits. -/
def resumeSendBit (p : SendBitPhase) (s : State) : Run SendBitPhase Unit :=
  match p with
  | .waitLow b => (waitMore false s).within (fun _ => .waitLow b) fun _ s => sendBitDrive b s
  | .waitHigh => (waitMore true s).within (fun _ => .waitHigh) fun _ s => .done () s

/-- RECVBIT, R92, from the wait for the clock to go high: it returns `RXBIT`. -/
def recvBitHigh (s : State) : Run RecvBitPhase Bool :=
  (waitClk true s).within (fun _ => .waitHigh) fun _ s => .done s.rxbit s

/-- RECVBIT, R92, from its sample step: "exactly one read of DATA". -/
def recvBitSample (s : State) : Run RecvBitPhase Bool :=
  (pinRead .data s).within (fun _ => .sample) fun d s => recvBitHigh { s with rxbit := d }

/-- RECVBIT, R92. -/
def recvBit (s : State) : Run RecvBitPhase Bool :=
  (waitClk false s).within (fun _ => .waitLow) fun _ s => recvBitSample s

/-- A RECVBIT going on from where it waits. -/
def resumeRecvBit (p : RecvBitPhase) (s : State) : Run RecvBitPhase Bool :=
  match p with
  | .waitLow => (waitMore false s).within (fun _ => .waitLow) fun _ s => recvBitSample s
  | .sample => recvBitSample s
  | .waitHigh => (waitMore true s).within (fun _ => .waitHigh) fun _ s => .done s.rxbit s

/-- R24, R92: `RESULT <- zext_8(RXBIT)`. -/
def resultBit (b : Bool) (s : State) : State := { s with result := zext8 b }

/-- SENDBIT requested on the port (R66, R91). -/
def execSendBit (b : Bool) (s : State) : Host.Outcome State Fault Refusal :=
  request (fun s => conclude (sendBit b s) .sendBit noResult) s

/-- RECVBIT requested on the port (R66, R92). -/
def execRecvBit (s : State) : Host.Outcome State Fault Refusal :=
  request (fun s => conclude (recvBit s) .recvBit resultBit) s

end Sys2Proof.Machine
end

