-- ==== Sys2Proof/Machine/ByteFramer.lean ====
section
/-! DEFINITION. Byte Framer (42_byte_framer.md): SENDBYTE, RECVBYTE. -/

namespace Sys2Proof.Machine

/-- R100 step 1: `TXR <- v`, the inhibit, the start bit, the release of the clock, `PAR <- 1`, `BITCNT <- 0` (R18). -/
def sendStart (v : Byte) (s : State) : State :=
  { pinSet .clk .inPullup (pinSet .data .outLow (delayUs Config.inhibitUs (pinSet .clk .outLow { s with txr := v }))) with
    par := parityStart, bitcnt := 0 }

/-- R100 steps 2 and 3: the accumulation of a data bit (cells 0 to 7) before its SENDBIT. -/
def sendAccumulate (s : State) : State :=
  if s.bitcnt.toNat < 8 then { s with par := parityStep s.par (s.txr.getLsbD s.bitcnt.toNat) } else s

/-- R18, R100: the bit of cell `BITCNT`: data bit 0 to 7, then `PAR`, then the stop bit 1. -/
def sendCellBit (s : State) : Bool :=
  if s.bitcnt.toNat < 8 then s.txr.getLsbD s.bitcnt.toNat else if s.bitcnt.toNat = 8 then s.par else true

/-- The next cell of a frame. -/
def nextCell (s : State) : State := { s with bitcnt := s.bitcnt + 1 }

/-- R100 step 4, R103: `ACKBIT`, 0 success, 1 failure. -/
def ackDecide (a : Bool) (s : State) : Run SendBytePhase Unit :=
  if a then .raised .nak { s with ackbit := a } else .done () { s with ackbit := a }

/-- R100 step 4: release the data line and receive the acknowledge bit. -/
def sendAck (s : State) : Run SendBytePhase Unit :=
  (recvBit (pinSet .data .inFloat s)).within .ack ackDecide

/-- R100 steps 2 to 4 with `n` cells still to drive. -/
def sendCells (n : Nat) (s : State) : Run SendBytePhase Unit :=
  match n with
  | 0 => sendAck s
  | n + 1 => (sendBit (sendCellBit s) (sendAccumulate s)).within .cell fun _ s => sendCells n (nextCell s)

/-- SENDBYTE(`v`), R100: ten driven cells after the start condition. -/
def sendByte (v : Byte) (s : State) : Run SendBytePhase Unit := sendCells 10 (sendStart v s)

/-- A SENDBYTE going on from where it waits. -/
def resumeSendByte (p : SendBytePhase) (s : State) : Run SendBytePhase Unit :=
  match p with
  | .cell bit => (resumeSendBit bit s).within .cell fun _ s => sendCells (9 - s.bitcnt.toNat) (nextCell s)
  | .ack bit => (resumeRecvBit bit s).within .ack ackDecide

/-- R105 steps 4 and 5: the optional checks, after the stop bit is consumed, then the byte. -/
def recvFinish (p t : Bool) (s : State) : Run RecvBytePhase Byte :=
  match frameCheck p t s with
  | some k => .raised k s
  | none => .done s.rxr s

/-- R105 step 4: the stop bit, `BITCNT` = 10, with the parity bit `p` received. -/
def recvStop (p : Bool) (s : State) : Run RecvBytePhase Byte :=
  (recvBit { s with bitcnt := 10 }).within (.stop p) fun t s => recvFinish p t s

/-- R105 step 3: `RXR[i] <- b`, `PAR <- PAR ^ b` with `BITCNT` = `i` + 1, and the next cell. -/
def storeBit (b : Bool) (s : State) : State :=
  { s with rxr := setBit s.rxr (s.bitcnt.toNat - 1) b, par := parityStep s.par b, bitcnt := s.bitcnt + 1 }

/-- R105 steps 3 to 5 with `n` data bits still to receive. -/
def recvData (n : Nat) (s : State) : Run RecvBytePhase Byte :=
  match n with
  | 0 => (recvBit s).within .cell fun p s => recvStop p s
  | n + 1 => (recvBit s).within .cell fun b s => recvData n (storeBit b s)

/-- R105 step 2, R106: a start bit of 1 fails; else `RXR <- 0`, `PAR <- 1` and the data bits follow. -/
def recvStart (b : Bool) (s : State) : Run RecvBytePhase Byte :=
  if b then .raised .framing s else recvData 8 { s with rxr := 0, par := parityStart, bitcnt := 1 }

/-- R105 step 1: both lines to input, the clock first (D21), and `BITCNT <- 0`. -/
def recvOpen (s : State) : State := { pinSet .data .inFloat (pinSet .clk .inFloat s) with bitcnt := 0 }

/-- RECVBYTE, R105. -/
def recvByte (s : State) : Run RecvBytePhase Byte := (recvBit (recvOpen s)).within .cell fun b s => recvStart b s

/-- What follows the bit `b` received in cell `BITCNT` 0 to 9 of a RECVBYTE. -/
def recvAfterCell (b : Bool) (s : State) : Run RecvBytePhase Byte :=
  if s.bitcnt = 0 then recvStart b s
  else if s.bitcnt.toNat ≤ 8 then recvData (8 - s.bitcnt.toNat) (storeBit b s)
  else recvStop b s

/-- A RECVBYTE going on from where it waits. -/
def resumeRecvByte (p : RecvBytePhase) (s : State) : Run RecvBytePhase Byte :=
  match p with
  | .cell bit => (resumeRecvBit bit s).within .cell fun b s => recvAfterCell b s
  | .stop p bit => (resumeRecvBit bit s).within (.stop p) fun t s => recvFinish p t s

/-- R24, R105: `RESULT <- RXR`. -/
def resultByte (v : Byte) (s : State) : State := { s with result := v }

/-- SENDBYTE requested on the port (R66, R100). -/
def execSendByte (v : Byte) (s : State) : Host.Outcome State Fault Refusal :=
  request (fun s => conclude (sendByte v s) .sendByte noResult) s

/-- RECVBYTE requested on the port (R66, R105). -/
def execRecvByte (s : State) : Host.Outcome State Fault Refusal :=
  request (fun s => conclude (recvByte s) .recvByte resultByte) s

end Sys2Proof.Machine
end

