-- ==== Sys2Proof/Machine/CommandProtocol.lean ====
section
/-! DEFINITION. Command Protocol (43_command_protocol.md): SENDACKED, SENDCMD, SENDCMDP. -/

namespace Sys2Proof.Machine

/-- The place of the SENDBYTE of `CMDR` before its first cell, after its start condition. The resend loop below runs on
fuel; each round reads the wire, so with a round of fuel for every answer at hand and one more this place is never
taken. Were it taken, the operation would only wait there and go on at the next step (log 20). -/
def pauseSend (which : WhichByte) (s : State) : Run CommandPhase Unit :=
  .waiting { which := which, ack := .send (.cell (.waitLow (sendCellBit (sendStart s.cmdr s)))) }
    { sendAccumulate (sendStart s.cmdr s) with waitcnt := 0 }

/-- R120, the state COMPARE with `RETRY` and the limits; `again` is the state SEND. -/
def ackCompare (again : State → Run CommandPhase Unit) (r : Byte) (s : State) : Run CommandPhase Unit :=
  if r = ResponseCode.resend.code then
    if resendExpired { s with ackr := r, retry := s.retry + 1 } then
      .raised .retryExhausted { s with ackr := r, retry := s.retry + 1 }
    else again { s with ackr := r, retry := s.retry + 1 }
  else if r = ResponseCode.ack.code then .done () { s with ackr := r }
  else .raised .protocol { s with ackr := r }

/-- R120 from the state RECV-ACK. -/
def ackReceive (which : WhichByte) (again : State → Run CommandPhase Unit) (s : State) : Run CommandPhase Unit :=
  (recvByte s).within (fun p => { which := which, ack := .recvAck p }) fun r s => ackCompare again r s

/-- R120 from the state SEND: at most `fuel` transmissions of `CMDR`. -/
def ackLoop (fuel : Nat) (which : WhichByte) (s : State) : Run CommandPhase Unit :=
  match fuel with
  | 0 => pauseSend which s
  | fuel + 1 =>
    (sendByte s.cmdr s).within (fun p => { which := which, ack := .send p }) fun _ s => ackReceive which (ackLoop fuel which) s

/-- The rounds of the resend loop that the answers at hand can pay for, and one more. -/
def ackFuel (s : State) : Nat := s.wire.length + 1

/-- SENDACKED(`x`), R120: `CMDR <- x`, `RETRY <- 0`, then the loop. -/
def sendAcked (which : WhichByte) (x : Byte) (s : State) : Run CommandPhase Unit :=
  ackLoop (ackFuel s) which { s with cmdr := x, retry := 0 }

/-- SENDCMD(`code`), R121. -/
def sendCommand (code : Byte) (s : State) : Run CommandPhase Unit := sendAcked .command code s

/-- What follows the acknowledge of byte `which`: R122 sends the parameter "only if the command acknowledge succeeded". -/
def afterAcked (which : WhichByte) (s : State) : Run CommandPhase Unit :=
  match which with
  | .commandThen param => sendAcked .parameter param s
  | .command => .done () s
  | .parameter => .done () s

/-- SENDCMDP(`code`, `param`), R122. -/
def sendCommandP (code param : Byte) (s : State) : Run CommandPhase Unit :=
  (sendAcked (.commandThen param) code s).within id fun _ s => afterAcked (.commandThen param) s

/-- A SENDACKED going on from where it waits. -/
def resumeAcked (p : CommandPhase) (s : State) : Run CommandPhase Unit :=
  match p.ack with
  | .send b =>
    (resumeSendByte b s).within (fun b => { which := p.which, ack := .send b }) fun _ t =>
      ackReceive p.which (ackLoop (ackFuel s) p.which) t
  | .recvAck b =>
    (resumeRecvByte b s).within (fun b => { which := p.which, ack := .recvAck b }) fun r t =>
      ackCompare (ackLoop (ackFuel s) p.which) r t

/-- A SENDCMD or SENDCMDP going on from where it waits. -/
def resumeCommand (p : CommandPhase) (s : State) : Run CommandPhase Unit :=
  (resumeAcked p s).within id fun _ s => afterAcked p.which s

/-- The exchange of a command without parameter on the port (R64, R66, R121). -/
def requestCommand (code : Byte) (s : State) : Host.Outcome State Fault Refusal :=
  request (fun s => conclude (sendCommand code s) .command noResult) s

/-- The exchange of a command with a parameter on the port (R64, R66, R122). -/
def requestCommandP (code param : Byte) (s : State) : Host.Outcome State Fault Refusal :=
  request (fun s => conclude (sendCommandP code param s) .command noResult) s

/-- SENDCMD requested on the port (R66, R121); R126: the code is not checked. -/
def execSendCmd (code : Byte) (s : State) : Host.Outcome State Fault Refusal := requestCommand code s

/-- SENDCMDP requested on the port (R66, R122); R126: neither byte is checked. -/
def execSendCmdP (code param : Byte) (s : State) : Host.Outcome State Fault Refusal := requestCommandP code param s

end Sys2Proof.Machine
end

