-- ==== Sys2Proof/Machine/Commands.lean ====
section
/-! DEFINITION. The command bytes of R68. A command of format CMD1 or CMD2 is the exchange R64 describes, which is SENDCMD
or SENDCMDP of its code (DEDUCED from R64, R70 and R81; log 11). No command byte on its own writes `SESSION` (R142, R200). -/

namespace Sys2Proof.Machine

/-- Disable scaling, 0xE6 (R68). -/
def execCmdDisableScaling (s : State) : Host.Outcome State Fault Refusal := requestCommand CommandCode.disableScaling.code s

/-- Enable scaling, 0xE7 (R68). -/
def execCmdEnableScaling (s : State) : Host.Outcome State Fault Refusal := requestCommand CommandCode.enableScaling.code s

/-- Set resolution, 0xE8, with its parameter byte (R68). -/
def execCmdSetResolution (param : Byte) (s : State) : Host.Outcome State Fault Refusal :=
  requestCommandP CommandCode.setResolution.code param s

/-- Status request, 0xE9 (R68). -/
def execCmdStatusRequest (s : State) : Host.Outcome State Fault Refusal := requestCommand CommandCode.statusRequest.code s

/-- Set stream mode, 0xEA (R68). -/
def execCmdSetStreamMode (s : State) : Host.Outcome State Fault Refusal := requestCommand CommandCode.setStreamMode.code s

/-- Read data, 0xEB (R68). -/
def execCmdReadData (s : State) : Host.Outcome State Fault Refusal := requestCommand CommandCode.readData.code s

/-- Reset, 0xFF (R68). -/
def execCmdReset (s : State) : Host.Outcome State Fault Refusal := requestCommand CommandCode.reset.code s

/-- Set remote mode, 0xF0 (R68). -/
def execCmdSetRemoteMode (s : State) : Host.Outcome State Fault Refusal := requestCommand CommandCode.setRemoteMode.code s

/-- Set sample rate, 0xF3, with its parameter byte (R68). -/
def execCmdSetSampleRate (param : Byte) (s : State) : Host.Outcome State Fault Refusal :=
  requestCommandP CommandCode.setSampleRate.code param s

/-- Enable data reporting, 0xF4 (R68, R70). -/
def execCmdEnableDataReporting (s : State) : Host.Outcome State Fault Refusal :=
  requestCommand CommandCode.enableDataReporting.code s

/-- Disable data reporting, 0xF5 (R68, R70). -/
def execCmdDisableDataReporting (s : State) : Host.Outcome State Fault Refusal :=
  requestCommand CommandCode.disableDataReporting.code s

end Sys2Proof.Machine
end

