-- ==== Sys2Proof/Machine/PacketDecoder.lean ====
section
/-! DEFINITION. Packet Decoder (45_packet_decoder.md): DECSTATUS, DECMOTION. -/

namespace Sys2Proof.Machine

/-- The three bytes of a record. -/
structure Record where
  b0 : Byte
  b1 : Byte
  b2 : Byte
  deriving DecidableEq, Repr

/-- R150, R75: the status registers of a record, by the bit positions of `lay`; every other bit is ignored (R79). -/
def statusOf (lay : Layout) (r : Record) : StatusRegs where
  right := r.b0.getLsbD lay.stRight.val
  middle := r.b0.getLsbD lay.stMiddle.val
  left := r.b0.getLsbD lay.stLeft.val
  scaling := r.b0.getLsbD lay.stScaling.val
  reporting := r.b0.getLsbD lay.stReporting.val
  remote := r.b0.getLsbD lay.stRemote.val
  res := r.b1
  rate := r.b2

/-- R151, R77: the motion registers of a record, by the bit positions of `lay`. `old` gives the two overflow outputs where
`EXPOSE_OVERFLOW` is false and they are not written (R153, log 25). -/
def motionOf (p : Params) (old : MotionRegs) (r : Record) : MotionRegs where
  left := r.b0.getLsbD p.layout.mvLeft.val
  right := r.b0.getLsbD p.layout.mvRight.val
  middle := r.b0.getLsbD p.layout.mvMiddle.val
  dx := displacement9 (r.b0.getLsbD p.layout.mvXSign.val) r.b1
  dy := displacement9 (r.b0.getLsbD p.layout.mvYSign.val) r.b2
  xovf := if p.exposeOverflow then r.b0.getLsbD p.layout.mvXOvf.val else old.xovf
  yovf := if p.exposeOverflow then r.b0.getLsbD p.layout.mvYOvf.val else old.yovf

/-- The three bytes the decoder reads. R23: "The decoder reads it only when `RXCNT = 3`"; otherwise R155 and U7 let the
three bytes be any value: free values (log 8). -/
def recordOf (s : State) : Record :=
  if s.rxcnt = 3 then { b0 := Memory.read s.rxbuf 0, b1 := Memory.read s.rxbuf 1, b2 := Memory.read s.rxbuf 2 }
  else { b0 := Config.freeByte s.draws, b1 := Config.freeByte (s.draws + 1), b2 := Config.freeByte (s.draws + 2) }

/-- The free values a decoding draws: none when the buffer is filled. -/
def recordDraws (s : State) : Nat := if s.rxcnt = 3 then s.draws else s.draws + 3

/-- DECSTATUS, R150: all eight registers together. -/
def decStatus (s : State) : State := { s with st := statusOf s.params.layout (recordOf s), draws := recordDraws s }

/-- DECMOTION, R151: all registers together. -/
def decMotion (s : State) : State := { s with mv := motionOf s.params s.mv (recordOf s), draws := recordDraws s }

/-- DECSTATUS requested on the port (R66, R150). -/
def execDecStatus (s : State) : Host.Outcome State Fault Refusal := request (fun s => (decStatus s).succeed) s

/-- DECMOTION requested on the port (R66, R151). -/
def execDecMotion (s : State) : Host.Outcome State Fault Refusal := request (fun s => (decMotion s).succeed) s

end Sys2Proof.Machine
end

