-- ==== Sys2Proof/Machine/DeviceSession.lean ====
section
/-! DEFINITION. Device Session sequencer (44_device_session.md): RECV3, RESET, ENSTREAM, DISSTREAM, SETSCALING, SETRES,
SETRATE, GETSETTINGS, READDATA. Each operation is written from each of its steps on, so that it can go on from any. -/

namespace Sys2Proof.Machine

/-! RECV3 -/

/-- R131: `MemWrite(i, 1, r)`, `RXCNT <- i + 1`. -/
def storeByte (i : Fin 3) (r : Byte) (s : State) : State :=
  { s with rxbuf := Memory.write s.rxbuf i.val r, rxcnt := BitVec.ofNat 2 (i.val + 1) }

/-- The index of the byte that `n + 1` bytes before the end of a record stands at. -/
def recvIndex (n : Nat) : Fin 3 := Fin.ofNat 3 (2 - n)

/-- R131 with `n` bytes still to receive. -/
def recvBytes (n : Nat) (s : State) : Run Recv3Phase Unit :=
  match n with
  | 0 => .done () s
  | n + 1 =>
    (recvByte s).within (fun p => { index := recvIndex n, byte := p }) fun r s => recvBytes n (storeByte (recvIndex n) r s)

/-- RECV3, R131. -/
def recv3 (s : State) : Run Recv3Phase Unit := recvBytes Config.packetBytes { s with rxcnt := 0 }

/-- A RECV3 going on from where it waits. -/
def resumeRecv3 (p : Recv3Phase) (s : State) : Run Recv3Phase Unit :=
  (resumeRecvByte p.byte s).within (fun b => { index := p.index, byte := b }) fun r s =>
    recvBytes (2 - p.index.val) (storeByte p.index r s)

/-! RESET -/

/-- R132: `SESSION <- REMOTE_IDLE`, only at the very end. -/
def resetDone (s : State) : Run SessionPhase Unit := .done () { s with session := .remoteIdle }

/-- R132 from `call SENDCMD(0xF4)`. -/
def resetEnable (s : State) : Run SessionPhase Unit :=
  (sendCommand CommandCode.enableDataReporting.code s).within .resetEnable fun _ s => resetDone s

/-- R132 from `call SENDCMD(0xF0)`. -/
def resetRemote (s : State) : Run SessionPhase Unit :=
  (sendCommand CommandCode.setRemoteMode.code s).within .resetRemote fun _ s => resetEnable s

/-- R132: `if r2 ≠ 0x00: raise Protocol`, and what follows. -/
def resetIdentity (r2 : Byte) (s : State) : Run SessionPhase Unit :=
  if r2 = ResponseCode.isMouse.code then resetRemote s else .raised .protocol s

/-- R132: `if r1 ≠ 0xAA: raise Protocol`, and what follows: the second byte is received only then (D16). -/
def resetSelfTest (r1 : Byte) (s : State) : Run SessionPhase Unit :=
  if r1 = ResponseCode.selfTestPassed.code then (recvByte s).within .resetIdentity fun r s => resetIdentity r s
  else .raised .protocol s

/-- R132 from the first plain receipt. -/
def resetReply (s : State) : Run SessionPhase Unit := (recvByte s).within .resetSelfTest fun r s => resetSelfTest r s

/-- RESET, R132. -/
def resetDevice (s : State) : Run SessionPhase Unit :=
  (sendCommand CommandCode.reset.code s).within .resetSend fun _ s => resetReply s

/-! ENSTREAM, DISSTREAM, SETSCALING, SETRES, SETRATE -/

/-- R133: `SESSION <- STREAMING`. -/
def enStreamDone (s : State) : Run SessionPhase Unit := .done () { s with session := .streaming }

/-- ENSTREAM, R133. -/
def enStream (s : State) : Run SessionPhase Unit :=
  (sendCommand CommandCode.setStreamMode.code s).within .enStream fun _ s => enStreamDone s

/-- R134: `SESSION <- REMOTE_IDLE`. -/
def disStreamDone (s : State) : Run SessionPhase Unit := .done () { s with session := .remoteIdle }

/-- DISSTREAM, R134. -/
def disStream (s : State) : Run SessionPhase Unit :=
  (sendCommand CommandCode.setRemoteMode.code s).within .disStream fun _ s => disStreamDone s

/-- R135: `if flag = 1 then 0xE7 else 0xE6`. -/
def scalingCode (flag : Bool) : Byte := if flag then CommandCode.enableScaling.code else CommandCode.disableScaling.code

/-- SETSCALING(`flag`), R135. -/
def setScaling (flag : Bool) (s : State) : Run SessionPhase Unit :=
  (sendCommand (scalingCode flag) s).within .setScaling fun _ s => .done () s

/-- SETRES(`r`), R136. -/
def setRes (r : Byte) (s : State) : Run SessionPhase Unit :=
  (sendCommandP CommandCode.setResolution.code r s).within .setRes fun _ s => .done () s

/-- SETRATE(`r`), R137. -/
def setRate (r : Byte) (s : State) : Run SessionPhase Unit :=
  (sendCommandP CommandCode.setSampleRate.code r s).within .setRate fun _ s => .done () s

/-! GETSETTINGS -/

/-- R138: `call DECSTATUS()`. -/
def getDone (s : State) : Run SessionPhase Unit := .done () (decStatus s)

/-- R138 from `call RECV3()`. -/
def getRecord (s : State) : Run SessionPhase Unit := (recv3 s).within .getRecv fun _ s => getDone s

/-- GETSETTINGS, R138. -/
def getSettings (s : State) : Run SessionPhase Unit :=
  (sendCommand CommandCode.statusRequest.code s).within .getSend fun _ s => getRecord s

/-! READDATA -/

/-- R140: `if s0 = REMOTE_IDLE: SESSION <- REMOTE_READING`. -/
def enterReading (s : State) : State := if s.session = .remoteIdle then { s with session := .remoteReading } else s

/-- R140: `SESSION <- s0`, on success and before a raise propagates. -/
def restoreSession (s0 : Session) (s : State) : State := { s with session := s0 }

/-- R140: `call DECMOTION()`, `SESSION <- s0`. -/
def readDone (s0 : Session) (s : State) : Run SessionPhase Unit := .done () (restoreSession s0 (decMotion s))

/-- R140 from `call RECV3()`. -/
def readRecord (s0 : Session) (s : State) : Run SessionPhase Unit :=
  (recv3 s).within (.readRecv s0) fun _ s => readDone s0 s

/-- READDATA_REMOTE, R140. -/
def readRemote (s : State) : Run SessionPhase Unit :=
  ((sendCommand CommandCode.readData.code (enterReading s)).within (.readSend s.session) fun _ t =>
    readRecord s.session t).onRaise (restoreSession s.session)

/-- R141: `call DECMOTION()`. -/
def streamDone (s : State) : Run SessionPhase Unit := .done () (decMotion s)

/-- R141 from `call RECV3()`. -/
def streamRecord (s : State) : Run SessionPhase Unit := (recv3 s).within .streamRecv fun _ s => streamDone s

/-- R141: `if c ≠ LOW: raise NoData`. -/
def streamDecide (c : Bool) (s : State) : Run SessionPhase Unit := if c then .raised .noData s else streamRecord s

/-- READDATA_STREAM, R141: "exactly one sample, no PinSet before it". -/
def readStream (s : State) : Run SessionPhase Unit :=
  (pinRead .clk s).within (fun _ => .streamPoll) fun c s => streamDecide c s

/-- READDATA, R139. -/
def readData (s : State) : Run SessionPhase Unit :=
  match s.mode with
  | .streaming => readStream s
  | .remote => readRemote s

/-! Going on from where a session operation waits -/

/-- A Device Session operation going on from where it waits. -/
def resumeSession (p : SessionPhase) (s : State) : Run SessionPhase Unit :=
  match p with
  | .resetSend c => (resumeCommand c s).within .resetSend fun _ s => resetReply s
  | .resetSelfTest b => (resumeRecvByte b s).within .resetSelfTest fun r s => resetSelfTest r s
  | .resetIdentity b => (resumeRecvByte b s).within .resetIdentity fun r s => resetIdentity r s
  | .resetRemote c => (resumeCommand c s).within .resetRemote fun _ s => resetEnable s
  | .resetEnable c => (resumeCommand c s).within .resetEnable fun _ s => resetDone s
  | .enStream c => (resumeCommand c s).within .enStream fun _ s => enStreamDone s
  | .disStream c => (resumeCommand c s).within .disStream fun _ s => disStreamDone s
  | .setScaling c => (resumeCommand c s).within .setScaling fun _ s => .done () s
  | .setRes c => (resumeCommand c s).within .setRes fun _ s => .done () s
  | .setRate c => (resumeCommand c s).within .setRate fun _ s => .done () s
  | .getSend c => (resumeCommand c s).within .getSend fun _ s => getRecord s
  | .getRecv r => (resumeRecv3 r s).within .getRecv fun _ s => getDone s
  | .readSend s0 c =>
    ((resumeCommand c s).within (.readSend s0) fun _ s => readRecord s0 s).onRaise (restoreSession s0)
  | .readRecv s0 r => ((resumeRecv3 r s).within (.readRecv s0) fun _ s => readDone s0 s).onRaise (restoreSession s0)
  | .streamPoll => readStream s
  | .streamRecv r => (resumeRecv3 r s).within .streamRecv fun _ s => streamDone s

/-! The operations on the port -/

/-- A Device Session operation requested on the port (R66). -/
def requestSession (op : State → Run SessionPhase Unit) (s : State) : Host.Outcome State Fault Refusal :=
  request (fun s => conclude (op s) .session noResult) s

/-- RESET requested on the port (R132). -/
def execReset (s : State) : Host.Outcome State Fault Refusal := requestSession resetDevice s

/-- ENSTREAM requested on the port (R133). -/
def execEnStream (s : State) : Host.Outcome State Fault Refusal := requestSession enStream s

/-- DISSTREAM requested on the port (R134). -/
def execDisStream (s : State) : Host.Outcome State Fault Refusal := requestSession disStream s

/-- SETSCALING requested on the port (R135). -/
def execSetScaling (flag : Bool) (s : State) : Host.Outcome State Fault Refusal := requestSession (setScaling flag) s

/-- SETRES requested on the port (R136). -/
def execSetRes (r : Byte) (s : State) : Host.Outcome State Fault Refusal := requestSession (setRes r) s

/-- SETRATE requested on the port (R137). -/
def execSetRate (r : Byte) (s : State) : Host.Outcome State Fault Refusal := requestSession (setRate r) s

/-- GETSETTINGS requested on the port (R138). -/
def execGetSettings (s : State) : Host.Outcome State Fault Refusal := requestSession getSettings s

/-- READDATA requested on the port (R139). -/
def execReadData (s : State) : Host.Outcome State Fault Refusal := requestSession readData s

end Sys2Proof.Machine
end

