-- ==== Sys2Proof/Machine/Wire.lean ====
section
/-! DEFINITION. Going on from `PHASE` (R25), and the rows of the table that pass on the wire: frames (R61, R62), response
bytes (R71) and packets (R74, R76). -/

namespace Sys2Proof.Machine

/-- R25: the operation in progress goes on from its place, as far as the answers at hand go. -/
def resume (s : State) : State :=
  match s.phase with
  | .idle => s
  | .sendBit p => conclude (resumeSendBit p s.goOn) .sendBit noResult
  | .recvBit p => conclude (resumeRecvBit p s.goOn) .recvBit resultBit
  | .sendByte p => conclude (resumeSendByte p s.goOn) .sendByte noResult
  | .recvByte p => conclude (resumeRecvByte p s.goOn) .recvByte resultByte
  | .command p => conclude (resumeCommand p s.goOn) .command noResult
  | .session p => conclude (resumeSession p s.goOn) .session noResult

/-! R25: the line that the next `PinRead` of a phase reads -/

/-- SENDBIT waits only for the clock (R91). -/
def SendBitPhase.awaits : SendBitPhase → Line
  | .waitLow _ => .clk
  | .waitHigh => .clk

/-- RECVBIT waits for the clock, or is about to sample the data line (R92). -/
def RecvBitPhase.awaits : RecvBitPhase → Line
  | .waitLow => .clk
  | .sample => .data
  | .waitHigh => .clk

/-- SENDBYTE (R100). -/
def SendBytePhase.awaits : SendBytePhase → Line
  | .cell bit => bit.awaits
  | .ack bit => bit.awaits

/-- RECVBYTE (R105). -/
def RecvBytePhase.awaits : RecvBytePhase → Line
  | .cell bit => bit.awaits
  | .stop _ bit => bit.awaits

/-- SENDACKED (R120). -/
def AckPhase.awaits : AckPhase → Line
  | .send b => b.awaits
  | .recvAck b => b.awaits

/-- Device Session (R130 to R141). -/
def SessionPhase.awaits : SessionPhase → Line
  | .resetSend p => p.ack.awaits
  | .resetSelfTest p => p.awaits
  | .resetIdentity p => p.awaits
  | .resetRemote p => p.ack.awaits
  | .resetEnable p => p.ack.awaits
  | .enStream p => p.ack.awaits
  | .disStream p => p.ack.awaits
  | .setScaling p => p.ack.awaits
  | .setRes p => p.ack.awaits
  | .setRate p => p.ack.awaits
  | .getSend p => p.ack.awaits
  | .getRecv p => p.byte.awaits
  | .readSend _ p => p.ack.awaits
  | .readRecv _ p => p.byte.awaits
  | .streamPoll => .clk
  | .streamRecv p => p.byte.awaits

/-- R25: "During an operation it identifies the next primitive event"; `none` when the stack is empty. -/
def Phase.awaits : Phase → Option Line
  | .idle => none
  | .sendBit p => some p.awaits
  | .recvBit p => some p.awaits
  | .sendByte p => some p.awaits
  | .recvByte p => some p.awaits
  | .command p => some p.ack.awaits
  | .session p => some p.awaits

/-! The SENDBYTE of a phase, if one is in progress -/

/-- The SENDBYTE of a handshake. -/
def AckPhase.sending? : AckPhase → Option SendBytePhase
  | .send b => some b
  | .recvAck _ => none

/-- The SENDBYTE of a Device Session operation. -/
def SessionPhase.sending? : SessionPhase → Option SendBytePhase
  | .resetSend p => p.ack.sending?
  | .resetSelfTest _ => none
  | .resetIdentity _ => none
  | .resetRemote p => p.ack.sending?
  | .resetEnable p => p.ack.sending?
  | .enStream p => p.ack.sending?
  | .disStream p => p.ack.sending?
  | .setScaling p => p.ack.sending?
  | .setRes p => p.ack.sending?
  | .setRate p => p.ack.sending?
  | .getSend p => p.ack.sending?
  | .getRecv _ => none
  | .readSend _ p => p.ack.sending?
  | .readRecv _ _ => none
  | .streamPoll => none
  | .streamRecv _ => none

/-- The SENDBYTE in progress, if the operation's innermost byte is one. -/
def Phase.sending? : Phase → Option SendBytePhase
  | .idle => none
  | .sendBit _ => none
  | .recvBit _ => none
  | .sendByte p => some p
  | .recvByte _ => none
  | .command p => p.ack.sending?
  | .session p => p.sending?

/-- The byte whose frame stands at its first cell, no bit of it taken yet (R61: the start bit "is on the line from the
moment the clock is released"). -/
def State.frameOffered (s : State) : Option Byte :=
  match s.phase.sending? with
  | some (.cell (.waitLow _)) => if s.bitcnt = 0 then some s.txr else none
  | _ => none

/-! The device's part, as the levels at the block's reads, every wait satisfied at its first read -/

/-- A driven cell: the clock low, then high. The data level is not read. -/
def driveCell : List Levels := [{ clk := false, data := true }, { clk := true, data := true }]

/-- A received cell carrying `d` (R92's minimal trace): the clock low, the data line, the clock high. -/
def receiveCell (d : Bool) : List Levels :=
  [{ clk := false, data := d }, { clk := false, data := d }, { clk := true, data := d }]

/-- R61, the device's side of FRAME_TX: ten driven cells and the acknowledge cell. -/
def frameTxLevels (a : Bool) : List Levels := (List.replicate 10 driveCell).flatten ++ receiveCell a

/-- R62: FRAME_RX of byte `v` with parity bit `p` and stop bit `t`. -/
def frameRxLevels (v : Byte) (p t : Bool) : List Levels :=
  (([false] ++ (List.range 8).map v.getLsbD ++ [p, t]).map receiveCell).flatten

/-- Eleven cells whose start bit is 1 (R62, R106), then the bits of byte `v`, `p` and `t`. -/
def misframedLevels (v : Byte) (p t : Bool) : List Levels :=
  (([true] ++ (List.range 8).map v.getLsbD ++ [p, t]).map receiveCell).flatten

/-- A well-formed FRAME_RX: start 0, odd parity, stop 1 (95_test_vectors.md section 1, `RX xx`). -/
def goodFrame (v : Byte) : List Levels := frameRxLevels v (oddParity v) true

/-- The low sample that a pending streaming poll (R141) takes before the start bit's cell is received. -/
def pollLead (s : State) : List Levels :=
  match s.phase with
  | .session .streamPoll => [{ clk := false, data := false }]
  | _ => []

/-- What the device puts on the wire is seen by the operation in progress, at its reads. R53, R198: "The block listens only
while a receiving operation runs", so with none in progress the bit cells are lost. Where the operation ends before it has
taken them all, "the remaining bits of whatever the device is sending stay on the wire" (R49) (log 12). -/
def deliver (ls : List Levels) (s : State) : State :=
  if s.busy then resume { s with wire := s.wire ++ (pollLead s ++ ls) } else s

/-- A response byte from the device, as a well-formed frame (R71). -/
def deliverByte (v : Byte) (s : State) : Host.Outcome State Fault Refusal := .next (deliver (goodFrame v) s)

/-- A three-byte record from the device, byte 0 first (R46). -/
def deliverRecord (b0 b1 b2 : Byte) (s : State) : Host.Outcome State Fault Refusal :=
  .next (deliver (goodFrame b0 ++ goodFrame b1 ++ goodFrame b2) s)

/-- is-mouse, 0x00: compared by RESET as its second plain byte (R71, R132). -/
def execRespIsMouse (s : State) : Host.Outcome State Fault Refusal := deliverByte ResponseCode.isMouse.code s

/-- self-test-passed, 0xAA: compared by RESET as its first plain byte (R71, R132). -/
def execRespSelfTestPassed (s : State) : Host.Outcome State Fault Refusal := deliverByte ResponseCode.selfTestPassed.code s

/-- ack, 0xFA: SENDACKED succeeds (R71, R120). -/
def execRespAck (s : State) : Host.Outcome State Fault Refusal := deliverByte ResponseCode.ack.code s

/-- error, 0xFC: like any other value, a protocol failure (R71, R124). -/
def execRespError (s : State) : Host.Outcome State Fault Refusal := deliverByte ResponseCode.error.code s

/-- resend, 0xFE: SENDACKED retransmits the same byte (R71, R120). -/
def execRespResend (s : State) : Host.Outcome State Fault Refusal := deliverByte ResponseCode.resend.code s

/-- FRAME_RX of byte `v` with parity bit `p` and stop bit `t` (R62, R105). -/
def execFrameRx (v : Byte) (p t : Bool) (s : State) : Host.Outcome State Fault Refusal :=
  .next (deliver (frameRxLevels v p t) s)

/-- FRAME_TX of byte `v` with parity bit `p`, the device answering the acknowledge bit `a` (R61, R100). An idle block
sends the frame; a block that offers the frame of `v` has it taken; otherwise no such frame passes and nothing changes
(DESIGN CHOICE, log 13). -/
def execFrameTx (v : Byte) (p a : Bool) (s : State) : Host.Outcome State Fault Refusal :=
  if p ≠ oddParity v then .next s
  else if s.busy then (if s.frameOffered = some v then .next (deliver (frameTxLevels a) s) else .next s)
  else execSendByte v { s with wire := s.wire ++ frameTxLevels a }

/-- STATUS: a Status Record from the device (R74, R75); GETSETTINGS decodes it (R138, R150). -/
def execStatus (b0 b1 b2 : Byte) (s : State) : Host.Outcome State Fault Refusal := deliverRecord b0 b1 b2 s

/-- MOTION: a Motion Packet from the device (R76, R77); READDATA decodes it (R140, R141, R151). -/
def execMotion (b0 b1 b2 : Byte) (s : State) : Host.Outcome State Fault Refusal := deliverRecord b0 b1 b2 s

/-! Words outside the table -/

/-- The effect of a presented word that is no row of the table. R73, R126: a code is not checked, so a command byte outside
R68 is SENDCMD or SENDCMDP of it. R72, R124: any byte may arrive where a response is expected, so a response byte outside
R71 is a well-formed frame of it. R106: a frame with start bit 1 is received like any other, up to where it fails. A frame
that the block never sends (R61) does not pass, and nothing changes (log 29). -/
def execOutsideTable (e : DecodeError) (s : State) : Host.Outcome State Fault Refusal :=
  match e with
  | .unknownCommand code => requestCommand code s
  | .unknownParameterCommand code param => requestCommandP code param s
  | .unknownResponse v => deliverByte v s
  | .receivedStartBit v p t => .next (deliver (misframedLevels v p t) s)
  | .sentStartBit => .next s
  | .sentStopBit => .next s
  | .sentParityBit => .next s

end Sys2Proof.Machine
end

