-- ==== Sys2Proof/Machine/Dispatch.lean ====
section
/-! DEFINITION. One arm per constructor of Instr. -/

namespace Sys2Proof.Machine

/-- The meaning of each instruction. -/
def exec (i : Instr) (s : State) : Host.Outcome State Fault Refusal :=
  match i with
  | .sendBit b => Sys2Proof.Machine.execSendBit b s
  | .recvBit => Sys2Proof.Machine.execRecvBit s
  | .sendByte v => Sys2Proof.Machine.execSendByte v s
  | .recvByte => Sys2Proof.Machine.execRecvByte s
  | .sendCmd code => Sys2Proof.Machine.execSendCmd code s
  | .sendCmdP code param => Sys2Proof.Machine.execSendCmdP code param s
  | .reset => Sys2Proof.Machine.execReset s
  | .enStream => Sys2Proof.Machine.execEnStream s
  | .disStream => Sys2Proof.Machine.execDisStream s
  | .setScaling flag => Sys2Proof.Machine.execSetScaling flag s
  | .setRes r => Sys2Proof.Machine.execSetRes r s
  | .setRate r => Sys2Proof.Machine.execSetRate r s
  | .getSettings => Sys2Proof.Machine.execGetSettings s
  | .readData => Sys2Proof.Machine.execReadData s
  | .decStatus => Sys2Proof.Machine.execDecStatus s
  | .decMotion => Sys2Proof.Machine.execDecMotion s
  | .cmdDisableScaling => Sys2Proof.Machine.execCmdDisableScaling s
  | .cmdEnableScaling => Sys2Proof.Machine.execCmdEnableScaling s
  | .cmdSetResolution param => Sys2Proof.Machine.execCmdSetResolution param s
  | .cmdStatusRequest => Sys2Proof.Machine.execCmdStatusRequest s
  | .cmdSetStreamMode => Sys2Proof.Machine.execCmdSetStreamMode s
  | .cmdReadData => Sys2Proof.Machine.execCmdReadData s
  | .cmdReset => Sys2Proof.Machine.execCmdReset s
  | .cmdSetRemoteMode => Sys2Proof.Machine.execCmdSetRemoteMode s
  | .cmdSetSampleRate param => Sys2Proof.Machine.execCmdSetSampleRate param s
  | .cmdEnableDataReporting => Sys2Proof.Machine.execCmdEnableDataReporting s
  | .cmdDisableDataReporting => Sys2Proof.Machine.execCmdDisableDataReporting s
  | .respIsMouse => Sys2Proof.Machine.execRespIsMouse s
  | .respSelfTestPassed => Sys2Proof.Machine.execRespSelfTestPassed s
  | .respAck => Sys2Proof.Machine.execRespAck s
  | .respError => Sys2Proof.Machine.execRespError s
  | .respResend => Sys2Proof.Machine.execRespResend s
  | .frameTx v p a => Sys2Proof.Machine.execFrameTx v p a s
  | .frameRx v p t => Sys2Proof.Machine.execFrameRx v p t s
  | .status b0 b1 b2 => Sys2Proof.Machine.execStatus b0 b1 b2 s
  | .motion b0 b1 b2 => Sys2Proof.Machine.execMotion b0 b1 b2 s

end Sys2Proof.Machine
end

