-- ==== Sys2Proof/Machine/Step.lean ====
section
/-! DEFINITION. One step of the machine. -/

namespace Sys2Proof.Machine

/-- With something presented, it is decoded and run; a word that is no row of the table has the effect that the rules give
it all the same. With nothing presented, an operation in progress goes on, its next read answered (R6, R25), and an idle
block stays as it is (R180: "the block is either idle or running an operation"). -/
def step (s : State) : Host.Outcome State Fault Refusal :=
  match s.nextItem with
  | some (it, s') =>
    match decode it with
    | .ok i => exec i s'
    | .error e => execOutsideTable e s'
  | none =>
    if s.busy then (if s.phase = .idle then .fault .phaseLost else .next (resume s.answered))
    else .next s

/-- The state with a table row's word presented next. -/
def State.withFetchWord (s : State) (nbits w : Nat) : State := s.present (itemOfTableWord nbits w)

end Sys2Proof.Machine
end

