-- ==== Sys2Proof/Safety.lean ====
section
/-! DEFINITION. The terms claims use: what holds in every state a run reaches, which answers of the environment carry a bit,
a frame or an exchange, and what a run adds to the trace. -/

namespace Sys2Proof

/-! Kinds of instructions -/

/-- The sixteen operations of the request word (R67). -/
def Instr.isOperation : Instr → Bool
  | .sendBit _ => true
  | .recvBit => true
  | .sendByte _ => true
  | .recvByte => true
  | .sendCmd _ => true
  | .sendCmdP _ _ => true
  | .reset => true
  | .enStream => true
  | .disStream => true
  | .setScaling _ => true
  | .setRes _ => true
  | .setRate _ => true
  | .getSettings => true
  | .readData => true
  | .decStatus => true
  | .decMotion => true
  | .cmdDisableScaling => false
  | .cmdEnableScaling => false
  | .cmdSetResolution _ => false
  | .cmdStatusRequest => false
  | .cmdSetStreamMode => false
  | .cmdReadData => false
  | .cmdReset => false
  | .cmdSetRemoteMode => false
  | .cmdSetSampleRate _ => false
  | .cmdEnableDataReporting => false
  | .cmdDisableDataReporting => false
  | .respIsMouse => false
  | .respSelfTestPassed => false
  | .respAck => false
  | .respError => false
  | .respResend => false
  | .frameTx _ _ _ => false
  | .frameRx _ _ _ => false
  | .status _ _ _ => false
  | .motion _ _ _ => false

/-- What is requested on the port and refused while the block is busy: the operations (R66, R67), and the command bytes as the
exchanges they begin (log 11). -/
def Instr.onPort : Instr → Bool
  | .sendBit _ => true
  | .recvBit => true
  | .sendByte _ => true
  | .recvByte => true
  | .sendCmd _ => true
  | .sendCmdP _ _ => true
  | .reset => true
  | .enStream => true
  | .disStream => true
  | .setScaling _ => true
  | .setRes _ => true
  | .setRate _ => true
  | .getSettings => true
  | .readData => true
  | .decStatus => true
  | .decMotion => true
  | .cmdDisableScaling => true
  | .cmdEnableScaling => true
  | .cmdSetResolution _ => true
  | .cmdStatusRequest => true
  | .cmdSetStreamMode => true
  | .cmdReadData => true
  | .cmdReset => true
  | .cmdSetRemoteMode => true
  | .cmdSetSampleRate _ => true
  | .cmdEnableDataReporting => true
  | .cmdDisableDataReporting => true
  | .respIsMouse => false
  | .respSelfTestPassed => false
  | .respAck => false
  | .respError => false
  | .respResend => false
  | .frameTx _ _ _ => false
  | .frameRx _ _ _ => false
  | .status _ _ _ => false
  | .motion _ _ _ => false

/-- What is nothing but acknowledged bytes: SENDCMD, SENDCMDP, the command bytes, and the settings (R81, R121, R122). -/
def Instr.commandOnly : Instr → Bool
  | .sendBit _ => false
  | .recvBit => false
  | .sendByte _ => false
  | .recvByte => false
  | .sendCmd _ => true
  | .sendCmdP _ _ => true
  | .reset => false
  | .enStream => false
  | .disStream => false
  | .setScaling _ => true
  | .setRes _ => true
  | .setRate _ => true
  | .getSettings => false
  | .readData => false
  | .decStatus => false
  | .decMotion => false
  | .cmdDisableScaling => true
  | .cmdEnableScaling => true
  | .cmdSetResolution _ => true
  | .cmdStatusRequest => true
  | .cmdSetStreamMode => true
  | .cmdReadData => true
  | .cmdReset => true
  | .cmdSetRemoteMode => true
  | .cmdSetSampleRate _ => true
  | .cmdEnableDataReporting => true
  | .cmdDisableDataReporting => true
  | .respIsMouse => false
  | .respSelfTestPassed => false
  | .respAck => false
  | .respError => false
  | .respResend => false
  | .frameTx _ _ _ => false
  | .frameRx _ _ _ => false
  | .status _ _ _ => false
  | .motion _ _ _ => false

/-- What the device sends: response bytes, received frames and packets (R60). -/
def Instr.fromDevice : Instr → Bool
  | .sendBit _ => false
  | .recvBit => false
  | .sendByte _ => false
  | .recvByte => false
  | .sendCmd _ => false
  | .sendCmdP _ _ => false
  | .reset => false
  | .enStream => false
  | .disStream => false
  | .setScaling _ => false
  | .setRes _ => false
  | .setRate _ => false
  | .getSettings => false
  | .readData => false
  | .decStatus => false
  | .decMotion => false
  | .cmdDisableScaling => false
  | .cmdEnableScaling => false
  | .cmdSetResolution _ => false
  | .cmdStatusRequest => false
  | .cmdSetStreamMode => false
  | .cmdReadData => false
  | .cmdReset => false
  | .cmdSetRemoteMode => false
  | .cmdSetSampleRate _ => false
  | .cmdEnableDataReporting => false
  | .cmdDisableDataReporting => false
  | .respIsMouse => true
  | .respSelfTestPassed => true
  | .respAck => true
  | .respError => true
  | .respResend => true
  | .frameTx _ _ _ => false
  | .frameRx _ _ _ => true
  | .status _ _ _ => true
  | .motion _ _ _ => true

end Sys2Proof

namespace Sys2Proof.Machine

/-! What every step keeps -/

/-- R140: a phase of the remote READDATA, with the value of `SESSION` it restores. -/
def Phase.readingFrom : Phase → Option Session
  | .session (.readSend s0 _) => some s0
  | .session (.readRecv s0 _) => some s0
  | _ => none

/-- R130, R140: `REMOTE_READING` "is held only while a READDATA in remote mode is running", entered only from
`REMOTE_IDLE`; a remote READDATA from another state leaves `SESSION` as it was. -/
abbrev State.readingOk (s : State) : Prop :=
  match s.phase.readingFrom with
  | some .remoteIdle => s.session = .remoteReading
  | some .uninit => s.session = .uninit
  | some .remoteReading => False
  | some .streaming => False
  | none => s.session ≠ .remoteReading

/-- R170, column "exists with reference parameters": the three kinds that need a parameter. -/
abbrev State.errOk (s : State) : Prop :=
  (s.err = .timeout → s.params.waitLimit ≠ none) ∧ (s.err = .retryExhausted → s.params.resendLimit ≠ none)
    ∧ (s.err = .parity → s.params.checkParity = true)

/-- What every step keeps: `PHASE` "is empty when `BUSY = 0`" and only then (R25); `ERR` is 0 when `OK` = 1 (R24); the
kinds of failure fit the parameters (R170); `SESSION` fits the operation in progress (R130, R140); the packet buffer is in
canonical form (R42); the pins are distinct (R7). -/
structure State.Inv (s : State) : Prop where
  busy_iff : s.busy = true ↔ s.phase ≠ .idle
  err_of_ok : s.ok = true → s.err = .none
  err_kind : s.errOk
  reading : s.readingOk
  buffer : Memory.wf s.rxbuf = true
  pins : s.params.wf

/-- R142, R140: what the Device Session operation in progress leaves in `SESSION` when it ends, `ok` saying how; `now` is the
value while it runs. -/
def SessionPhase.sessionAfter (p : SessionPhase) (ok : Bool) (now : Session) : Session :=
  match p with
  | .resetSend _ => if ok then .remoteIdle else now
  | .resetSelfTest _ => if ok then .remoteIdle else now
  | .resetIdentity _ => if ok then .remoteIdle else now
  | .resetRemote _ => if ok then .remoteIdle else now
  | .resetEnable _ => if ok then .remoteIdle else now
  | .enStream _ => if ok then .streaming else now
  | .disStream _ => if ok then .remoteIdle else now
  | .setScaling _ => now
  | .setRes _ => now
  | .setRate _ => now
  | .getSend _ => now
  | .getRecv _ => now
  | .readSend s0 _ => s0
  | .readRecv s0 _ => s0
  | .streamPoll => now
  | .streamRecv _ => now

/-- The same for any operation in progress: only the Device Session writes `SESSION` (R142). -/
def Phase.sessionAfter (p : Phase) (ok : Bool) (now : Session) : Session :=
  match p with
  | .session q => q.sessionAfter ok now
  | .idle => now
  | .sendBit _ => now
  | .recvBit _ => now
  | .sendByte _ => now
  | .recvByte _ => now
  | .command _ => now

/-- R131: the address that a Device Session operation stores to next; `none` where it receives no record (R132 to R137). -/
def SessionPhase.nextStored : SessionPhase → Option Nat
  | .resetSend _ => none
  | .resetSelfTest _ => none
  | .resetIdentity _ => none
  | .resetRemote _ => none
  | .resetEnable _ => none
  | .enStream _ => none
  | .disStream _ => none
  | .setScaling _ => none
  | .setRes _ => none
  | .setRate _ => none
  | .getSend _ => some 0
  | .getRecv p => some p.index.val
  | .readSend _ _ => some 0
  | .readRecv _ p => some p.index.val
  | .streamPoll => some 0
  | .streamRecv p => some p.index.val

/-- R138, R150: a Device Session operation that may write the `ST_` registers. -/
def SessionPhase.writesStatus : SessionPhase → Bool
  | .resetSend _ => false
  | .resetSelfTest _ => false
  | .resetIdentity _ => false
  | .resetRemote _ => false
  | .resetEnable _ => false
  | .enStream _ => false
  | .disStream _ => false
  | .setScaling _ => false
  | .setRes _ => false
  | .setRate _ => false
  | .getSend _ => true
  | .getRecv _ => true
  | .readSend _ _ => false
  | .readRecv _ _ => false
  | .streamPoll => false
  | .streamRecv _ => false

/-- R120: a command after the acknowledge bit of its frame: it awaits the acknowledge byte at the start bit. -/
def CommandPhase.awaitingByte (p : CommandPhase) : CommandPhase := { p with ack := .recvAck (.cell .waitLow) }

/-- The same in a Device Session operation; a phase that sends no byte stays. -/
def SessionPhase.awaitingByte : SessionPhase → SessionPhase
  | .resetSend p => .resetSend p.awaitingByte
  | .resetSelfTest p => .resetSelfTest p
  | .resetIdentity p => .resetIdentity p
  | .resetRemote p => .resetRemote p.awaitingByte
  | .resetEnable p => .resetEnable p.awaitingByte
  | .enStream p => .enStream p.awaitingByte
  | .disStream p => .disStream p.awaitingByte
  | .setScaling p => .setScaling p.awaitingByte
  | .setRes p => .setRes p.awaitingByte
  | .setRate p => .setRate p.awaitingByte
  | .getSend p => .getSend p.awaitingByte
  | .getRecv p => .getRecv p
  | .readSend s0 p => .readSend s0 p.awaitingByte
  | .readRecv s0 p => .readRecv s0 p
  | .streamPoll => .streamPoll
  | .streamRecv p => .streamRecv p

/-- The same for any operation in progress. -/
def Phase.awaitingByte : Phase → Phase
  | .idle => .idle
  | .sendBit p => .sendBit p
  | .recvBit p => .recvBit p
  | .sendByte p => .sendByte p
  | .recvByte p => .recvByte p
  | .command p => .command p.awaitingByte
  | .session p => .session p.awaitingByte

/-! The level a wait is for -/

/-- SENDBIT waits for the clock low, then high (R91). -/
def SendBitPhase.waitsFor : SendBitPhase → Bool
  | .waitLow _ => false
  | .waitHigh => true

/-- RECVBIT's two waits; its sample is no wait (R92). -/
def RecvBitPhase.waitsFor : RecvBitPhase → Option Bool
  | .waitLow => some false
  | .sample => none
  | .waitHigh => some true

/-- SENDBYTE (R100). -/
def SendBytePhase.waitsFor : SendBytePhase → Option Bool
  | .cell bit => some bit.waitsFor
  | .ack bit => bit.waitsFor

/-- RECVBYTE (R105). -/
def RecvBytePhase.waitsFor : RecvBytePhase → Option Bool
  | .cell bit => bit.waitsFor
  | .stop _ bit => bit.waitsFor

/-- SENDACKED (R120). -/
def AckPhase.waitsFor : AckPhase → Option Bool
  | .send b => b.waitsFor
  | .recvAck b => b.waitsFor

/-- Device Session; the streaming poll is one sample and no wait (R141). -/
def SessionPhase.waitsFor : SessionPhase → Option Bool
  | .resetSend p => p.ack.waitsFor
  | .resetSelfTest p => p.waitsFor
  | .resetIdentity p => p.waitsFor
  | .resetRemote p => p.ack.waitsFor
  | .resetEnable p => p.ack.waitsFor
  | .enStream p => p.ack.waitsFor
  | .disStream p => p.ack.waitsFor
  | .setScaling p => p.ack.waitsFor
  | .setRes p => p.ack.waitsFor
  | .setRate p => p.ack.waitsFor
  | .getSend p => p.ack.waitsFor
  | .getRecv p => p.byte.waitsFor
  | .readSend _ p => p.ack.waitsFor
  | .readRecv _ p => p.byte.waitsFor
  | .streamPoll => none
  | .streamRecv p => p.byte.waitsFor

/-- The clock level that a WAITCLK in progress waits for (R90); `none` where the block is in no wait. -/
def Phase.waitsFor : Phase → Option Bool
  | .idle => none
  | .sendBit p => some p.waitsFor
  | .recvBit p => p.waitsFor
  | .sendByte p => p.waitsFor
  | .recvByte p => p.waitsFor
  | .command p => p.ack.waitsFor
  | .session p => p.waitsFor

/-! Which answers carry what. `lim` is `WAIT_LIMIT`. A wait may be answered with any number of samples at the other level
(R90, "The trace of one WAITCLK is `k ≥ 0` reads of `CLK` answering `~L`, then one read answering `L`"), fewer than
`WAIT_LIMIT` when there is one; the level of a line that is not read is not looked at. -/

/-- Samples that a wait for `level` spins on, fewer than `lim` (the limit is looked at after a sample at the other level
only, R90). -/
def Spins (lim : Option Nat) (level : Bool) (w : List Levels) : Prop :=
  (∀ l ∈ w, l.clk = !level) ∧ ∀ n, lim = some n → w ≠ [] → w.length < n

/-- The answers of a WAITCLK(`level`) that returns (R90). -/
def WaitAnswers (lim : Option Nat) (level : Bool) (w : List Levels) : Prop :=
  ∃ spin last, w = spin ++ [last] ∧ Spins lim level spin ∧ last.clk = level

/-- The answers of a SENDBIT that returns (R91). -/
def DriveAnswers (lim : Option Nat) (w : List Levels) : Prop :=
  ∃ low high, w = low ++ high ∧ WaitAnswers lim false low ∧ WaitAnswers lim true high

/-- The answers of a RECVBIT that returns `d` (R92). -/
def SampleAnswers (lim : Option Nat) (d : Bool) (w : List Levels) : Prop :=
  ∃ low sample high, w = low ++ sample :: high ∧ WaitAnswers lim false low ∧ sample.data = d ∧ WaitAnswers lim true high

/-- The answers of `n` SENDBITs in a row. -/
def DriveCells (lim : Option Nat) : Nat → List Levels → Prop
  | 0, w => w = []
  | n + 1, w => ∃ cell rest, w = cell ++ rest ∧ DriveAnswers lim cell ∧ DriveCells lim n rest

/-- The answers of RECVBITs in a row that return the bits listed. -/
def SampleCells (lim : Option Nat) : List Bool → List Levels → Prop
  | [], w => w = []
  | d :: ds, w => ∃ cell rest, w = cell ++ rest ∧ SampleAnswers lim d cell ∧ SampleCells lim ds rest

/-- The eight data bits of a byte, bit 0 first (R45). -/
def dataBits (v : Byte) : List Bool := (List.range 8).map v.getLsbD

/-- The device's side of a FRAME_TX with acknowledge bit `a` (R61): ten driven cells and the acknowledge cell. -/
def TxAnswers (lim : Option Nat) (a : Bool) (w : List Levels) : Prop :=
  ∃ cells ack, w = cells ++ ack ∧ DriveCells lim 10 cells ∧ SampleAnswers lim a ack

/-- The answers that carry a FRAME_RX of byte `v` with parity bit `p` and stop bit `t` (R62). -/
def RxAnswers (lim : Option Nat) (v : Byte) (p t : Bool) (w : List Levels) : Prop :=
  SampleCells lim (false :: (dataBits v ++ [p, t])) w

/-- The optional checks let a frame of `v` with parity bit `p` and stop bit `t` pass (R107, R108). -/
def ChecksPass (params : Params) (v : Byte) (p t : Bool) : Prop :=
  (params.checkParity = true → p = oddParity v) ∧ (params.checkStop = true → t = true)

/-- The answers of one RECVBYTE that returns `v` under `params`; `t` is the stop bit. -/
def ByteAnswers (params : Params) (v : Byte) (t : Bool) (w : List Levels) : Prop :=
  ∃ p, RxAnswers params.waitLimit v p t w ∧ ChecksPass params v p t

/-- The answers of one exchange of R64: the byte's frame is acknowledged on the line, then byte `r` arrives. -/
def ExchangeAnswers (params : Params) (r : Byte) (t : Bool) (w : List Levels) : Prop :=
  ∃ tx rx, w = tx ++ rx ∧ TxAnswers params.waitLimit false tx ∧ ByteAnswers params r t rx

/-- The answers of `k` exchanges that the device answers `resend` each. -/
def ResendAnswers (params : Params) : Nat → List Levels → Prop
  | 0, w => w = []
  | k + 1, w => ∃ t one rest, w = one ++ rest ∧ ExchangeAnswers params ResponseCode.resend.code t one ∧ ResendAnswers params k rest

/-- The answers of a SENDACKED that returns after `k` resends (R120); `t` is the stop bit of the last acknowledge byte. -/
def AckedAnswers (params : Params) (k : Nat) (t : Bool) (w : List Levels) : Prop :=
  ∃ resends last, w = resends ++ last ∧ ResendAnswers params k resends ∧ ExchangeAnswers params ResponseCode.ack.code t last
    ∧ ∀ n, params.resendLimit = some n → k ≤ n

/-- The answers of a RECV3 that receives `r` (R131); `t` is the stop bit of the last byte. -/
def RecordAnswers (params : Params) (r : Record) (t : Bool) (w : List Levels) : Prop :=
  ∃ w0 w1 w2 t0 t1, w = w0 ++ (w1 ++ w2) ∧ ByteAnswers params r.b0 t0 w0 ∧ ByteAnswers params r.b1 t1 w1 ∧ ByteAnswers params r.b2 t w2

/-! What a run adds to the trace -/

/-- An event that shows outside: a `PinSet` or a `DelayUs`. -/
def Event.isOutput : Event → Bool
  | .read _ _ => false
  | .set _ _ => true
  | .delay _ => true

/-- The reads of the clock line that snapshots `w` answer, newest first as in `State.trace`. -/
def clockReads (w : List Levels) : List Event := (w.map fun l => Event.read .clk l.clk).reverse

/-- The drive state that a line has after events `es`, newest first, where it was `d` before them (R12). -/
def driveAfter (p : Line) (es : List Event) (d : Drive) : Drive :=
  match es with
  | [] => d
  | .set q m :: es => if q = p then m else driveAfter p es d
  | .read _ _ :: es => driveAfter p es d
  | .delay _ :: es => driveAfter p es d

/-- `e` is a read that `l` answers. -/
def Event.answeredBy : Event → Levels → Prop
  | .read p b, l => b = l.at p
  | .set _ _, _ => False
  | .delay _, _ => False

/-- From `s` to `t` the block only added events to the trace; its reads are answered by the answers at hand, each by the next
one (R6); and its drive registers follow the `PinSet`s (R12: "Written only by `PinSet(CLK, m)` (`CLK_DRV <- m`) and
`PinSet(DATA, m)`"). -/
def Grows (s t : State) : Prop :=
  ∃ es used, t.trace = es ++ s.trace ∧ s.wire = used ++ t.wire
    ∧ List.Forall₂ Event.answeredBy (es.reverse.filter fun e => !e.isOutput) used
    ∧ t.clkDrv = driveAfter .clk es s.clkDrv ∧ t.dataDrv = driveAfter .data es s.dataDrv

/-- The state with more answers at hand, after those already there. -/
def State.more (w : List Levels) (s : State) : State := { s with wire := s.wire ++ w }

/-- Between `s` and `t` the block made `reads` reads and the outputs `outs`, oldest first, and no other event (R6). -/
def Emits (s t : State) (reads : Nat) (outs : List Event) : Prop :=
  ∃ tr, t.trace = tr ++ s.trace ∧ tr.reverse.filter Event.isOutput = outs ∧ tr.length = reads + outs.length

/-- The ten bits that SENDBYTE(`v`) drives (R61, R101). -/
def drivenBits (v : Byte) : List Bool := dataBits v ++ [oddParity v, true]

/-- The outputs of a SENDBYTE(`v`) that reaches its acknowledge bit, in order (R100). -/
def sendOutputs (v : Byte) : List Event :=
  [.set .clk .outLow, .delay Config.inhibitUs, .set .data .outLow, .set .clk .inPullup]
    ++ (drivenBits v).map (fun b => .set .data (driveOf b)) ++ [.set .data .inFloat]

/-- The outputs of a RECVBYTE (R105, D21). -/
def recvOutputs : List Event := [.set .clk .inFloat, .set .data .inFloat]

/-- The outputs of `n` exchanges of byte `x` (R64, R123). -/
def exchangeOutputs (n : Nat) (x : Byte) : List Event := (List.replicate n (sendOutputs x ++ recvOutputs)).flatten

/-! What a run writes -/

/-- The registers as a completed SENDBYTE(`v`) with acknowledge bit `a` leaves them (R100, R104), `rest` being left on the
wire; `trace` and `WAITCNT` are taken from `t`. -/
def State.afterSend (s t : State) (v : Byte) (a : Bool) (rest : List Levels) : State :=
  { s with txr := v, par := oddParity v, bitcnt := 10, ackbit := a, rxbit := a, clkDrv := .inPullup, dataDrv := .inFloat
           wire := rest, trace := t.trace, waitcnt := t.waitcnt }

/-- The registers as a RECVBYTE that consumed a frame of `v` with stop bit `t` leaves them (R105). -/
def State.afterRecv (s u : State) (v : Byte) (t : Bool) (rest : List Levels) : State :=
  { s with rxr := v, par := oddParity v, bitcnt := 10, rxbit := t, clkDrv := .inFloat, dataDrv := .inFloat
           wire := rest, trace := u.trace, waitcnt := u.waitcnt }

/-- The registers as a SENDACKED(`x`) that received acknowledge byte `r`, stop bit `t`, after `k` resends leaves them
(R120). -/
def State.afterAcked (s u : State) (x r : Byte) (k : Nat) (t : Bool) (rest : List Levels) : State :=
  { s with cmdr := x, retry := k, ackr := r, txr := x, ackbit := false, rxr := r, par := oddParity r, bitcnt := 10
           rxbit := t, clkDrv := .inFloat, dataDrv := .inFloat, wire := rest, trace := u.trace, waitcnt := u.waitcnt }

/-- The packet buffer with record `r` in it, written in increasing address order (R42). -/
def Memory.withRecord (m : Memory) (r : Record) : Memory :=
  Memory.write (Memory.write (Memory.write m 0 r.b0) 1 r.b1) 2 r.b2

/-- The registers as a RECV3 that received `r` leaves them (R131). -/
def State.afterRecord (s u : State) (r : Record) (t : Bool) (rest : List Levels) : State :=
  { s with rxbuf := s.rxbuf.withRecord r, rxcnt := 3, rxr := r.b2, par := oddParity r.b2, bitcnt := 10, rxbit := t
           clkDrv := .inFloat, dataDrv := .inFloat, wire := rest, trace := u.trace, waitcnt := u.waitcnt }

end Sys2Proof.Machine
end

