-- ==== Sys2Proof/Certificates/Slice0/Obligations.lean ====
section
/-! DEFINITION. The statements for the provers. Those that follow a choice of the model name its log entry. -/

open Sys2Proof Sys2Proof.Machine

/-- O1. When the next word presented decodes to instruction i, one step is exec of i on the state with that word taken,
and nothing else is added around exec. In the table or not, a command byte is SENDCMD or SENDCMDP of it (no code is
checked), a response byte is a well-formed frame of it, and the eleven bits of a received frame are eleven received
cells, whatever the start bit. A sent frame that is no row of the table is never sent, and nothing changes. (Words
are presented as log 10 says, in the items of log 14; command bytes rest on log 11, delivery on log 12, frames sent
on log 13, words outside the table on log 29.) Rests on: 30_encoding.md sections 1 to 4; 20_memory.md section 5;
42_byte_framer.md section RECVBYTE; 43_command_protocol.md section Properties. -/
def Obligations.StepRunsTheDecodedInstruction : Prop :=
  ∀ (s : State) (it : Item) (rest : List Item), s.inbox = it :: rest →
    (∀ i, decode it = .ok i → step s = exec i { s with inbox := rest }) ∧
    (∀ c, it = .cmd1 c → step s = exec (.sendCmd c) { s with inbox := rest }) ∧
    (∀ c p, it = .cmd2 c p → step s = exec (.sendCmdP c p) { s with inbox := rest }) ∧
    (∀ v, it = .resp v → step s = exec (.frameRx v (oddParity v) true) { s with inbox := rest }) ∧
    (∀ w, it = .frameRx w →
      step s = .next (deliver ((List.range 11).map fun k => receiveCell (w.getLsbD (10 - k))).flatten { s with inbox := rest })) ∧
    (∀ w, it = .frameTx w → (∀ i, decode it ≠ .ok i) → step s = .next { s with inbox := rest })

/-- O2. With nothing presented: a block that runs an operation goes on with it, its next read being answered (by a free
value where no answer is at hand, log 4); an idle block does nothing (log 19); the only stop is the state that R25
rules out, BUSY = 1 with an empty PHASE (log 18). Rests on: 00_scope.md section 3; 10_state.md section 7;
60_exceptions.md section 5. -/
def Obligations.StepWithNothingPresented : Prop :=
  ∀ s : State, s.inbox = [] →
    (s.busy = false → step s = .next s) ∧
    (s.busy = true → s.phase ≠ .idle → step s = .next (resume s.answered)) ∧
    (s.busy = true → s.phase = .idle → step s = .fault .phaseLost) ∧
    (∀ l ls, s.wire = l :: ls → s.answered = s) ∧
    (s.wire = [] → ∃ l, s.answered = { s with wire := [l], draws := s.draws + 2 })

/-- O3. One word or more of every format of R60, written out bit by bit from the tables of 30_encoding.md, decodes to
its instruction. A REQ is the 20 bits OPSEL, A, B, a frame the bits it spells, first bit on the wire leftmost (log
14). The frame words are 0 00101111 0 1 0 (0xF4 sent, accepted) and 0 01011111 1 1 (0xFA received). Rests on:
30_encoding.md sections 1 to 6. -/
def Obligations.WordsOfTheEncodingsDecode : Prop :=
  decode (.req 0x00100) = .ok (.sendBit true) ∧
  decode (.req 0x2F400) = .ok (.sendByte 0xF4) ∧
  decode (.req 0x5F364) = .ok (.sendCmdP 0xF3 0x64) ∧
  decode (.req 0x9FEFF) = .ok (.setScaling false) ∧
  decode (.req 0xD0000) = .ok .readData ∧
  decode (.req 0xF0000) = .ok .decMotion ∧
  decode (.cmd1 0xEA) = .ok .cmdSetStreamMode ∧
  decode (.cmd2 0xF3 0x64) = .ok (.cmdSetSampleRate 0x64) ∧
  decode (.resp 0xFE) = .ok .respResend ∧
  decode (.frameTx 0b000101111010) = .ok (.frameTx 0xF4 false false) ∧
  decode (.frameRx 0b00101111111) = .ok (.frameRx 0xFA true true) ∧
  decode (.status 0x10 0x02 0x64) = .ok (.status 0x10 0x02 0x64) ∧
  decode (.motion 0x29 0x05 0xFB) = .ok (.motion 0x29 0x05 0xFB)

/-- O4. For every well-formed instruction, with every value of every operand, decoding its encoding gives the
instruction back: no bit of an encoding is dropped. (The items that hold the words are the model's, log 14.) Rests
on: 30_encoding.md sections 1 to 6. -/
def Obligations.DecodeOfEncode : Prop :=
  ∀ i : Instr, i.wf = true → decode (encode i) = .ok i

/-- O5. Each of the 16 values of OPSEL selects its operation, whatever stands in the operand bits; the operands are A, B
or A[0] as the table says. Rests on: R67. -/
def Obligations.OperationTable : Prop :=
  ∀ a b : Byte,
    decodeOp 0x0 a b = .sendBit (a.getLsbD 0) ∧ decodeOp 0x1 a b = .recvBit ∧
    decodeOp 0x2 a b = .sendByte a ∧ decodeOp 0x3 a b = .recvByte ∧
    decodeOp 0x4 a b = .sendCmd a ∧ decodeOp 0x5 a b = .sendCmdP a b ∧
    decodeOp 0x6 a b = .reset ∧ decodeOp 0x7 a b = .enStream ∧ decodeOp 0x8 a b = .disStream ∧
    decodeOp 0x9 a b = .setScaling (a.getLsbD 0) ∧ decodeOp 0xA a b = .setRes a ∧ decodeOp 0xB a b = .setRate a ∧
    decodeOp 0xC a b = .getSettings ∧ decodeOp 0xD a b = .readData ∧
    decodeOp 0xE a b = .decStatus ∧ decodeOp 0xF a b = .decMotion ∧
    (∀ o : BitVec 4, decode (reqItem o a b) = .ok (decodeOp o a b))

/-- O6. In every format but REQ (whose unused operand bits are ignored) a word that decodes is the encoding of what it
decodes to, so no two words mean the same and no word outside the table falls through to a row of it; and whatever
decodes, in any format, is well-formed: a sent frame has the odd parity bit. (The items that hold the words are the
model's, log 14.) Rests on: 30_encoding.md sections 1 to 6. -/
def Obligations.EncodeOfDecode : Prop :=
  ∀ (it : Item) (i : Instr), decode it = .ok i → i.wf = true ∧ (it.isRequest = false → encode i = it)

/-- O7. Construction with any parameters leaves SESSION at UNINIT and so MODE at remote, BUSY, OK and ERR at 0, PHASE
empty, RETRY and WAITCNT at 0, and performs no primitive event; the reset state is construction with the reference
parameters. (The spec leaves the other registers unspecified; their values are log 5, log 6 and log 7 and are not
stated here.) Rests on: 10_state.md section 9; 70_reset_and_hazards.md section 1. -/
def Obligations.ResetRegisters : Prop :=
  (∀ p : Params, (State.construct p).session = .uninit ∧ (State.construct p).mode = .remote ∧
    (State.construct p).busy = false ∧ (State.construct p).ok = false ∧ (State.construct p).err.code = 0 ∧
    (State.construct p).phase = .idle ∧ (State.construct p).retry = 0 ∧ (State.construct p).waitcnt = 0 ∧
    (State.construct p).events = [] ∧ (State.construct p).params = p) ∧
  State.reset = State.construct Params.reference

/-- O8. The state after reset meets the invariant of InvKeptByEveryStep, and so does construction with any parameters
that R7 admits. (That the buffer is then empty is log 7, and the invariant's canonical form is log 26.) Rests on:
00_scope.md section 4; 10_state.md section 9. -/
def Obligations.ConstructionMeetsInv : Prop :=
  State.reset.Inv ∧ ∀ p : Params, p.wf → (State.construct p).Inv

/-- O9. From every state that meets the invariant, a step that answers a next state gives one that meets it: PHASE is
empty exactly when BUSY = 0 (R25); ERR is 0 when OK = 1 (R24); TIMEOUT, RETRY_EXHAUSTED and PARITY stand in ERR only
under the parameters they need (R170); REMOTE_READING holds only while a READDATA that began in REMOTE_IDLE runs,
and a READDATA that began in UNINIT leaves UNINIT (R130, R140); the packet buffer is in canonical form (the model's
own, log 26); the pins are distinct and WAIT_LIMIT is not 0 (R7). (A state outside the invariant, BUSY = 1 with an
empty PHASE, is the one that stops, log 18.) Rests on: 10_state.md section 7; 44_device_session.md sections The
state machine, READDATA and Transition table; 60_exceptions.md section 1; 00_scope.md section 4. -/
def Obligations.InvKeptByEveryStep : Prop :=
  ∀ s t : State, s.Inv → step s = .next t → t.Inv

/-- O10. Once SESSION has left UNINIT no step brings it back, whatever is presented and whatever the device answers.
Rests on: 70_reset_and_hazards.md section 1. -/
def Obligations.NeverBackToUninit : Prop :=
  ∀ s t : State, s.Inv → s.session ≠ .uninit → step s = .next t → t.session ≠ .uninit

/-- O11. Every step only adds events to the trace; CLK_DRV and DATA_DRV after it are what the PinSets among the added
events leave, so nothing else writes them and nothing restores them after a failure; the parameters, the pin
identifiers among them, never change. Rests on: 10_state.md sections 1 and 2; 60_exceptions.md section 2. -/
def Obligations.DrivesFollowThePinSets : Prop :=
  ∀ s t : State, step s = .next t → t.params = s.params ∧
    ∃ es, t.trace = es ++ s.trace ∧ t.clkDrv = driveAfter .clk es s.clkDrv ∧ t.dataDrv = driveAfter .data es s.dataDrv

/-- O12. What is requested on the port, and an operation that goes on, take the answers at hand in order, one for each
read and none else: each read in the trace shows its own line of the answer it took. The trace is what the block
did, in order. (The answers are the list of log 3, the trace is log 16.) Rests on: 00_scope.md section 3;
20_memory.md section 5. -/
def Obligations.AnswersAreTakenInOrder : Prop :=
  (∀ (i : Instr) (s t : State), i.onPort = true → exec i s = .next t → Grows s t) ∧ (∀ s : State, Grows s (resume s))

/-- O13. During an operation PHASE identifies the next primitive event (log 9: it stands at a read). Without an answer
the operation does nothing; with one, the first new event of the trace is a read of the line that PHASE names, with
that line's level. Rests on: 10_state.md section 7. -/
def Obligations.PhaseNamesTheNextRead : Prop :=
  ∀ s : State, s.phase ≠ .idle →
    (s.wire = [] → resume s = s) ∧
    (∀ l ls, s.wire = l :: ls →
      ∃ p es, s.phase.awaits = some p ∧ (resume s).trace = es ++ .read p (l.at p) :: s.trace)

/-- O14. While the clock answers the other level, a wait reads on, and only WAITCNT and the trace change: with
WAIT_LIMIT = none for any number of samples, so BUSY stays 1, OK and ERR are not written, the phase is the same and
a later request is not accepted; with a limit, as long as the count is below it. Rests on: 41_bit_transport.md
sections WAITCLK and Properties of both; 60_exceptions.md section 2. -/
def Obligations.SilentClockHangs : Prop :=
  ∀ (s : State) (L : Bool), s.busy = true → s.phase.waitsFor = some L → (∀ l ∈ s.wire, l.clk = !L) →
    (∀ n, s.params.waitLimit = some n → s.waitcnt + s.wire.length < n) →
    resume s = { s with wire := [], waitcnt := s.waitcnt + s.wire.length, trace := clockReads s.wire ++ s.trace } ∧
    ∀ i : Instr, i.onPort = true → exec i (resume s) = .next (resume s)

/-- O15. With WAIT_LIMIT = n, the mismatching sample that brings the count to n ends the operation on the port with OK =
0 and ERR = TIMEOUT: the count and the sample are recorded, SESSION is restored if a remote READDATA was running,
and no other register, no pin among them, is written. Rests on: 41_bit_transport.md section WAITCLK;
42_byte_framer.md section RECVBYTE; 60_exceptions.md section 2. -/
def Obligations.WaitExpires : Prop :=
  ∀ (s : State) (L : Bool) (l : Levels) (rest : List Levels) (n : Nat), s.phase.waitsFor = some L → s.wire = l :: rest →
    l.clk = !L → s.params.waitLimit = some n → n ≤ s.waitcnt + 1 →
    resume s = State.fail .timeout { s with wire := rest, waitcnt := s.waitcnt + 1, trace := .read .clk l.clk :: s.trace,
                                            session := s.phase.sessionAfter false s.session }

/-- O16. From an idle block, with answers that satisfy its two waits after any number of samples, SENDBIT ends with OK =
1 and ERR = 0: DATA_DRV is OUT_HIGH or OUT_LOW as the bit says, the trace is the reads of the first wait, the
PinSet, and the reads of the second, WAITCNT is the count of the second wait, and nothing else is written. Rests on:
41_bit_transport.md section SENDBIT. -/
def Obligations.SendBitResult : Prop :=
  ∀ (s : State) (b : Bool) (low high rest : List Levels), s.busy = false → WaitAnswers s.params.waitLimit false low →
    WaitAnswers s.params.waitLimit true high → s.wire = low ++ (high ++ rest) →
    exec (.sendBit b) s = .next (State.succeed { s with
      dataDrv := if b then .outHigh else .outLow
      wire := rest
      waitcnt := high.length - 1
      trace := clockReads high ++ .set .data (if b then .outHigh else .outLow) :: (clockReads low ++ s.trace) })

/-- O17. From an idle block, with answers that satisfy its two waits after any number of samples, RECVBIT ends with OK =
1 and ERR = 0: RXBIT is the one sample of the data line taken after the clock was seen low, RESULT is that bit zero-
extended, no drive state changes, and nothing else is written. Rests on: 41_bit_transport.md section RECVBIT. -/
def Obligations.RecvBitResult : Prop :=
  ∀ (s : State) (low high rest : List Levels) (sample : Levels), s.busy = false →
    WaitAnswers s.params.waitLimit false low → WaitAnswers s.params.waitLimit true high →
    s.wire = low ++ (sample :: (high ++ rest)) →
    exec .recvBit s = .next (State.succeed { s with
      rxbit := sample.data
      result := if sample.data then 1 else 0
      wire := rest
      waitcnt := high.length - 1
      trace := clockReads high ++ .read .data sample.data :: (clockReads low ++ s.trace) })

/-- O18. However it stands afterwards (ended, failed, waiting, or ignored), SENDBIT writes no register but DATA_DRV,
WAITCNT, BUSY, OK, ERR and PHASE, and RECVBIT none but RXBIT, RESULT, WAITCNT, BUSY, OK, ERR and PHASE; every byte
of the packet buffer reads as before. Rests on: 10_state.md section 10; 41_bit_transport.md sections SENDBIT and
RECVBIT. -/
def Obligations.BitOperationsLeave : Prop :=
  (∀ (b : Bool) (s t : State), exec (.sendBit b) s = .next t →
    t = { s with dataDrv := t.dataDrv, waitcnt := t.waitcnt, busy := t.busy, ok := t.ok, err := t.err, phase := t.phase
                 wire := t.wire, trace := t.trace } ∧
    ∀ a, Memory.read t.rxbuf a = Memory.read s.rxbuf a) ∧
  (∀ s t : State, exec .recvBit s = .next t →
    t = { s with rxbit := t.rxbit, result := t.result, waitcnt := t.waitcnt, busy := t.busy, ok := t.ok, err := t.err
                 phase := t.phase, wire := t.wire, trace := t.trace } ∧
    ∀ a, Memory.read t.rxbuf a = Memory.read s.rxbuf a)

/-- O19. From an idle block, with the answers of a whole frame and acknowledge bit a, SENDBYTE makes the outputs of its
steps in order (the ten driven bits are the data bits, PAR and 1), makes one read for each answer, and ends: a = 0
is success, a = 1 is failure with NAK. PAR is 1 ^ v[0] ^ ... ^ v[7], the drive states are IN_PULLUP and IN, and
among the first nine driven bits the number of 1 bits is odd. Rests on: R101; R103. -/
def Obligations.SendByteResult : Prop :=
  ∀ (s : State) (v : Byte) (a : Bool) (w rest : List Levels), s.busy = false → TxAnswers s.params.waitLimit a w →
    s.wire = w ++ rest →
    ∃ t, exec (.sendByte v) s = .next t ∧ Emits s t w.length (sendOutputs v) ∧
      t = (if a then State.fail .nak (s.afterSend t v a rest) else State.succeed (s.afterSend t v a rest)) ∧
      t.par = frameParity v ∧ t.ackbit = a ∧ t.clkDrv = .inPullup ∧ t.dataDrv = .inFloat ∧
      drivenBits v = (List.range 8).map v.getLsbD ++ [t.par, true] ∧ ((drivenBits v).take 9).count true % 2 = 1

/-- O20. From an idle block, with the answers of a frame of v with start bit 0, parity bit p and stop bit t, RECVBYTE
consumes the frame whole, leaves v in RXR and its parity in PAR, and ends: with CHECK_PARITY a parity bit other than
PAR is PARITY; then with CHECK_STOP a stop bit of 0 is FRAMING; otherwise, and with the reference parameters for all
four values of p and t, it succeeds with RESULT = v. Rests on: R107; R108. -/
def Obligations.RecvByteResult : Prop :=
  ∀ (s : State) (v : Byte) (p t : Bool) (w rest : List Levels), s.busy = false → RxAnswers s.params.waitLimit v p t w →
    s.wire = w ++ rest →
    ∃ u, exec .recvByte s = .next u ∧ Emits s u w.length recvOutputs ∧
      u = (if s.params.checkParity = true ∧ p ≠ oddParity v then State.fail .parity (s.afterRecv u v t rest)
        else if s.params.checkStop = true ∧ t = false then State.fail .framing (s.afterRecv u v t rest)
        else State.succeed { s.afterRecv u v t rest with result := v })

/-- O21. From an idle block, if the first bit received is 1, RECVBYTE ends at once with FRAMING: it consumed exactly
that one cell, RXR and PAR are not written, the rest of the answers stay, and it made no output but the two that
switch the lines to input. Rests on: R106. -/
def Obligations.RecvByteStartBitFailure : Prop :=
  ∀ (s : State) (w rest : List Levels), s.busy = false → SampleAnswers s.params.waitLimit true w → s.wire = w ++ rest →
    ∃ u, exec .recvByte s = .next u ∧ Emits s u w.length [.set .clk .inFloat, .set .data .inFloat] ∧
      u = State.fail .framing { s with clkDrv := .inFloat, dataDrv := .inFloat, bitcnt := 0, rxbit := true, wire := rest
                                       trace := u.trace, waitcnt := u.waitcnt }

/-- O22. Take any bits such that a SENDBYTE(v) drove them as its ten bits. If start bit 0 and those bits are the eleven
samples of a RECVBYTE, by any block with any setting of CHECK_PARITY and CHECK_STOP, it succeeds and returns v; and
the ninth of the bits is 1 ^ (popcount(v) mod 2). Rests on: R110. -/
def Obligations.LoopBack : Prop :=
  ∀ (s t r : State) (v : Byte) (a : Bool) (bits : List Bool) (w rest x more : List Levels),
    s.busy = false → TxAnswers s.params.waitLimit a w → s.wire = w ++ rest → exec (.sendByte v) s = .next t →
    Emits s t w.length ([.set .clk .outLow, .delay Config.inhibitUs, .set .data .outLow, .set .clk .inPullup]
      ++ bits.map (fun b => .set .data (driveOf b)) ++ [.set .data .inFloat]) →
    r.busy = false → SampleCells r.params.waitLimit (false :: bits) x → r.wire = x ++ more →
    (∃ u, exec .recvByte r = .next u ∧ u.busy = false ∧ u.ok = true ∧ u.err = .none ∧ u.result = v) ∧
    bits[8]? = some (decide ((dataBits v).count true % 2 = 0))

/-- O23. However it stands afterwards, SENDBYTE writes no register but TXR, PAR, BITCNT, ACKBIT, CLK_DRV, DATA_DRV,
WAITCNT, RXBIT, BUSY, OK, ERR and PHASE, and RECVBYTE none but CLK_DRV, DATA_DRV, BITCNT, RXR, PAR, RXBIT, WAITCNT,
RESULT, BUSY, OK, ERR and PHASE; every byte of the packet buffer reads as before. Rests on: 10_state.md section 10;
42_byte_framer.md sections SENDBYTE and RECVBYTE. -/
def Obligations.ByteOperationsLeave : Prop :=
  (∀ (v : Byte) (s t : State), exec (.sendByte v) s = .next t →
    t = { s with txr := t.txr, par := t.par, bitcnt := t.bitcnt, ackbit := t.ackbit, clkDrv := t.clkDrv, dataDrv := t.dataDrv
                 waitcnt := t.waitcnt, rxbit := t.rxbit, busy := t.busy, ok := t.ok, err := t.err, phase := t.phase
                 wire := t.wire, trace := t.trace } ∧
    ∀ a, Memory.read t.rxbuf a = Memory.read s.rxbuf a) ∧
  (∀ s t : State, exec .recvByte s = .next t →
    t = { s with clkDrv := t.clkDrv, dataDrv := t.dataDrv, bitcnt := t.bitcnt, rxr := t.rxr, par := t.par, rxbit := t.rxbit
                 waitcnt := t.waitcnt, result := t.result, busy := t.busy, ok := t.ok, err := t.err, phase := t.phase
                 wire := t.wire, trace := t.trace } ∧
    ∀ a, Memory.read t.rxbuf a = Memory.read s.rxbuf a)

/-- O24. The bit that the accumulator reaches (start 1, exclusive-ored with every data bit) is 1 ^ (popcount(v) mod 2),
the number of 1 bits among the data bits and it is odd, and it is the parity bit that the encoding of a sent frame
requires. Rests on: R63. -/
def Obligations.ParityLaw : Prop :=
  ∀ v : Byte, oddParity v = decide ((dataBits v).count true % 2 = 0) ∧ (dataBits v ++ [oddParity v]).count true % 2 = 1 ∧
    oddParity v = (dataBits v).foldl (fun par b => par ^^ b) true ∧ frameParity v = oddParity v

/-- O25. From an idle block, when the device answers resend k times (not more than RESEND_LIMIT, if there is one) and
then r, not resend: SENDCMD(c) has made exactly k + 1 transmissions, each a complete frame of the same byte c with
its own inhibit and start condition, each followed by one receipt; it ends with success if r is ack, and with
PROTOCOL for each of the other 254 values, error among them. CMDR is c and RETRY is k. Rests on: R72; R123; R124. -/
def Obligations.AcknowledgeByteDecides : Prop :=
  ∀ (s : State) (c r : Byte) (k : Nat) (t : Bool) (resends last rest : List Levels), s.busy = false →
    ResendAnswers s.params k resends → ExchangeAnswers s.params r t last → r ≠ 0xFE →
    (∀ n, s.params.resendLimit = some n → k ≤ n) → s.wire = (resends ++ last) ++ rest →
    ∃ u, exec (.sendCmd c) s = .next u ∧ Emits s u (resends ++ last).length (exchangeOutputs (k + 1) c) ∧
      u = (if r = 0xFA then State.succeed (s.afterAcked u c r k t rest)
        else State.fail .protocol (s.afterAcked u c r k t rest))

/-- O26. From an idle block, SENDCMD of any code, and each of the nine command bytes of format CMD1 as the exchange it
begins (log 11), completes with OK = 1 when the device acknowledges it after k resends within the limit: k + 1
complete transmissions of its code, and the registers as one acknowledged byte leaves them. Rests on: 30_encoding.md
sections 1 and 3; 43_command_protocol.md sections SENDACKED and SENDCMD. -/
def Obligations.CommandsComplete : Prop :=
  ∀ (s : State) (i : Instr) (c : Byte) (k : Nat) (t : Bool) (w rest : List Levels),
    (i = .sendCmd c ∨ (i, c) ∈ [(Instr.cmdDisableScaling, (0xE6 : Byte)), (.cmdEnableScaling, 0xE7), (.cmdStatusRequest, 0xE9),
      (.cmdSetStreamMode, 0xEA), (.cmdReadData, 0xEB), (.cmdReset, 0xFF), (.cmdSetRemoteMode, 0xF0),
      (.cmdEnableDataReporting, 0xF4), (.cmdDisableDataReporting, 0xF5)]) →
    s.busy = false → AckedAnswers s.params k t w → s.wire = w ++ rest →
    ∃ u, exec i s = .next u ∧ Emits s u w.length (exchangeOutputs (k + 1) c) ∧
      u = State.succeed (s.afterAcked u c 0xFA k t rest)

/-- O27. From an idle block, SENDCMDP of any code and parameter, and the two command bytes of format CMD2 as the
exchange they begin (log 11), completes with OK = 1 when the device acknowledges the code after k resends and then
the parameter after m, within the limit: k + 1 transmissions of the code, then m + 1 of the parameter only, RETRY
counting from 0 again for the parameter. Rests on: 30_encoding.md sections 1 and 3; 43_command_protocol.md section
SENDCMDP. -/
def Obligations.ParameterCommandsComplete : Prop :=
  ∀ (s : State) (i : Instr) (c p : Byte) (k m : Nat) (t t' : Bool) (w w' rest : List Levels),
    (i = .sendCmdP c p ∨ (i = .cmdSetResolution p ∧ c = 0xE8) ∨ (i = .cmdSetSampleRate p ∧ c = 0xF3)) →
    s.busy = false → AckedAnswers s.params k t w → AckedAnswers s.params m t' w' → s.wire = w ++ (w' ++ rest) →
    ∃ u, exec i s = .next u ∧
      Emits s u (w.length + w'.length) (exchangeOutputs (k + 1) c ++ exchangeOutputs (m + 1) p) ∧
      u = State.succeed (s.afterAcked u p 0xFA m t' rest)

/-- O28. From an idle block, with the same answers, take the state u in which SENDCMD of the code ends or waits. If it
failed, with whatever kind (NAK, FRAMING, PARITY, TIMEOUT, PROTOCOL, RETRY_EXHAUSTED), SENDCMDP ends in that very
state: the parameter is never sent. If it waits, SENDCMDP waits at the same place, the parameter still to be sent.
If it succeeded, SENDCMDP goes on as SENDCMD of the parameter does from u with OK, ERR and PHASE not yet written,
and differs from it, while that waits, in PHASE only. In particular, with the answers spelled out: a command byte
answered, after k resends, by a byte neither ack nor resend ends it with PROTOCOL after k + 1 transmissions of the
code and none of the parameter; a parameter answered so after m resends ends it with PROTOCOL too, the code having
been sent k + 1 times and the parameter m + 1 times. Rests on: 43_command_protocol.md section SENDCMDP. -/
def Obligations.ParameterOnlyAfterTheAcknowledge : Prop :=
  (∀ (s u : State) (c p : Byte), s.busy = false → exec (.sendCmd c) s = .next u →
    (u.busy = false → u.ok = false → exec (.sendCmdP c p) s = .next u) ∧
    (∀ q, u.phase = .command q → exec (.sendCmdP c p) s = .next { u with phase := .command { q with which := .commandThen p } }) ∧
    (u.busy = false → u.ok = true → ∃ t v, exec (.sendCmdP c p) s = .next t ∧
      exec (.sendCmd p) { u with ok := s.ok, err := s.err, phase := s.phase } = .next v ∧ t = { v with phase := t.phase } ∧
      (v.busy = false → t = v) ∧ ∀ q, v.phase = .command q → t.phase = .command { q with which := .parameter })) ∧
  (∀ (s : State) (c p r : Byte) (k : Nat) (t : Bool) (resends last rest : List Levels), s.busy = false →
    ResendAnswers s.params k resends → ExchangeAnswers s.params r t last → r ≠ 0xFE → r ≠ 0xFA →
    (∀ n, s.params.resendLimit = some n → k ≤ n) → s.wire = (resends ++ last) ++ rest →
    ∃ u, exec (.sendCmdP c p) s = .next u ∧ Emits s u (resends ++ last).length (exchangeOutputs (k + 1) c) ∧
      u = State.fail .protocol (s.afterAcked u c r k t rest)) ∧
  (∀ (s : State) (c p r : Byte) (k m : Nat) (t t' : Bool) (w resends last rest : List Levels), s.busy = false →
    AckedAnswers s.params k t w → ResendAnswers s.params m resends → ExchangeAnswers s.params r t' last → r ≠ 0xFE → r ≠ 0xFA →
    (∀ n, s.params.resendLimit = some n → m ≤ n) → s.wire = w ++ ((resends ++ last) ++ rest) →
    ∃ u, exec (.sendCmdP c p) s = .next u ∧
      Emits s u (w.length + (resends ++ last).length) (exchangeOutputs (k + 1) c ++ exchangeOutputs (m + 1) p) ∧
      u = State.fail .protocol (s.afterAcked u p r m t' rest))

/-- O29. From an idle block, when the device answers resend k times and then gives acknowledge bit 1 to the next
transmission, SENDCMD ends with NAK: that frame is not repeated, no acknowledge byte is awaited after it, and what
the device sends next stays unread. Rests on: R125. -/
def Obligations.NakEndsTheCommand : Prop :=
  ∀ (s : State) (c : Byte) (k : Nat) (resends last rest : List Levels), s.busy = false →
    ResendAnswers s.params k resends → TxAnswers s.params.waitLimit true last →
    (∀ n, s.params.resendLimit = some n → k ≤ n) → s.wire = (resends ++ last) ++ rest →
    ∃ u, exec (.sendCmd c) s = .next u ∧ Emits s u (resends ++ last).length (exchangeOutputs k c ++ sendOutputs c) ∧
      u.busy = false ∧ u.ok = false ∧ u.err = .nak ∧ u.wire = rest ∧ u.cmdr = c ∧ u.retry = k ∧ u.ackbit = true

/-- O30. From an idle block with RESEND_LIMIT = n, when the device answers resend n + 1 times, SENDCMD ends with
RETRY_EXHAUSTED at the last of them: n + 1 transmissions in all, no further one. With n = 0 the first resend fails.
Rests on: 43_command_protocol.md section SENDACKED. -/
def Obligations.ResendLimitEndsTheCommand : Prop :=
  ∀ (s : State) (c : Byte) (n : Nat) (w rest : List Levels), s.busy = false → s.params.resendLimit = some n →
    ResendAnswers s.params (n + 1) w → s.wire = w ++ rest →
    ∃ u, exec (.sendCmd c) s = .next u ∧ Emits s u w.length (exchangeOutputs (n + 1) c) ∧
      u.busy = false ∧ u.ok = false ∧ u.err = .retryExhausted ∧ u.wire = rest ∧ u.retry = n + 1 ∧ u.ackr = 0xFE

/-- O31. With RESEND_LIMIT = none, whatever number k of resends the device has answered, SENDCMD is still running: k
complete, well-formed frames have passed, each answered, and the next transmission has begun and waits at its first
cell; OK and ERR are not written. Rests on: R197. -/
def Obligations.EndlessResend : Prop :=
  ∀ (s : State) (c : Byte) (k : Nat) (w : List Levels), s.busy = false → s.params.resendLimit = none →
    ResendAnswers s.params k w → s.wire = w →
    ∃ u, exec (.sendCmd c) s = .next u ∧ u.busy = true ∧ u.ok = s.ok ∧ u.err = s.err ∧ u.retry = k ∧ u.cmdr = c ∧ u.wire = [] ∧
      u.phase = .command { which := .command, ack := .send (.cell (.waitLow (c.getLsbD 0))) } ∧
      Emits s u w.length (exchangeOutputs k c ++ (sendOutputs c).take 4)

/-- O32. However it stands afterwards, SENDCMD, SENDCMDP, each command byte (log 11), SETSCALING, SETRES and SETRATE
write no register but CMDR, ACKR, RETRY, what SENDBYTE and RECVBYTE write, BUSY, OK, ERR and PHASE: SESSION, RESULT,
the result registers and the packet buffer, every byte of it, stay. Rests on: 10_state.md section 10;
43_command_protocol.md section Properties; 44_device_session.md section SETSCALING, SETRES, SETRATE. -/
def Obligations.CommandOperationsLeave : Prop :=
  ∀ (i : Instr) (s t : State), i.commandOnly = true → exec i s = .next t →
    t = { s with cmdr := t.cmdr, ackr := t.ackr, retry := t.retry, txr := t.txr, rxr := t.rxr, par := t.par
                 bitcnt := t.bitcnt, ackbit := t.ackbit, rxbit := t.rxbit, clkDrv := t.clkDrv, dataDrv := t.dataDrv
                 waitcnt := t.waitcnt, busy := t.busy, ok := t.ok, err := t.err, phase := t.phase, wire := t.wire
                 trace := t.trace } ∧
    ∀ a, Memory.read t.rxbuf a = Memory.read s.rxbuf a

/-- O33. From an idle block, with the same answers: SETSCALING 0, SETSCALING 1, SETRES r and SETRATE r end in the very
state in which SENDCMD 0xE6, SENDCMD 0xE7, SENDCMDP 0xE8, r and SENDCMDP 0xF3, r end, and while they wait differ
from it in PHASE only, which names the operation; ENSTREAM and DISSTREAM are SENDCMD 0xEA and SENDCMD 0xF0 in the
same way plus the write of SESSION on success. Rests on: R81. -/
def Obligations.PseudoOperationsExpand : Prop :=
  ∀ s : State, s.busy = false →
    (∀ p ∈ [(Instr.setScaling false, Instr.sendCmd 0xE6), (.setScaling true, .sendCmd 0xE7)],
      ∃ t u, exec p.1 s = .next t ∧ exec p.2 s = .next u ∧ t = { u with phase := t.phase } ∧ (u.busy = false → t = u)) ∧
    (∀ r : Byte, ∀ p ∈ [(Instr.setRes r, Instr.sendCmdP 0xE8 r), (.setRate r, .sendCmdP 0xF3 r)],
      ∃ t u, exec p.1 s = .next t ∧ exec p.2 s = .next u ∧ t = { u with phase := t.phase } ∧ (u.busy = false → t = u)) ∧
    (∀ p ∈ [(Instr.enStream, Instr.sendCmd 0xEA, Session.streaming), (.disStream, .sendCmd 0xF0, .remoteIdle)],
      ∃ t u, exec p.1 s = .next t ∧ exec p.2.1 s = .next u ∧
        t = { u with phase := t.phase, session := if u.busy = false ∧ u.ok = true then p.2.2 else s.session } ∧
        (u.busy = false → t.phase = u.phase))

/-- O34. From an idle block in any SESSION value, when the device acknowledges 0xFF, sends 0xAA and 0x00 as plain bytes
and acknowledges 0xF0 and 0xF4 (each after any number of resends within the limit), RESET makes exactly those
exchanges in that order and ends with OK = 1 and SESSION = REMOTE_IDLE; no other register of the block is cleared.
Rests on: 44_device_session.md section RESET; 70_reset_and_hazards.md section 1. -/
def Obligations.ResetCompletes : Prop :=
  ∀ (s : State) (k1 k2 k3 : Nat) (t1 t2 t3 t4 t5 : Bool) (w1 w2 w3 w4 w5 rest : List Levels), s.busy = false →
    AckedAnswers s.params k1 t1 w1 → ByteAnswers s.params 0xAA t2 w2 → ByteAnswers s.params 0x00 t3 w3 →
    AckedAnswers s.params k2 t4 w4 → AckedAnswers s.params k3 t5 w5 →
    s.wire = w1 ++ (w2 ++ (w3 ++ (w4 ++ (w5 ++ rest)))) →
    ∃ u, exec .reset s = .next u ∧
      Emits s u (w1.length + w2.length + w3.length + w4.length + w5.length)
        (exchangeOutputs (k1 + 1) 0xFF ++ recvOutputs ++ recvOutputs ++ exchangeOutputs (k2 + 1) 0xF0
          ++ exchangeOutputs (k3 + 1) 0xF4) ∧
      u = State.succeed { s.afterAcked u 0xF4 0xFA k3 t5 rest with session := .remoteIdle }

/-- O35. From an idle block, when 0xFF is acknowledged: a first plain byte other than 0xAA ends RESET with PROTOCOL
before the second byte is received; 0xAA and then a byte other than 0x00 ends it with PROTOCOL before any command is
sent. SESSION keeps its value, and what the device sends next stays unread. Rests on: 44_device_session.md section
RESET. -/
def Obligations.ResetWrongByteFails : Prop :=
  ∀ (s : State) (k : Nat) (t1 t2 t3 : Bool) (r1 r2 : Byte) (w1 w2 w3 rest : List Levels), s.busy = false →
    AckedAnswers s.params k t1 w1 → ByteAnswers s.params r1 t2 w2 →
    (r1 ≠ 0xAA → s.wire = w1 ++ (w2 ++ rest) →
      ∃ u, exec .reset s = .next u ∧ Emits s u (w1.length + w2.length) (exchangeOutputs (k + 1) 0xFF ++ recvOutputs) ∧
        u.busy = false ∧ u.ok = false ∧ u.err = .protocol ∧ u.session = s.session ∧ u.wire = rest) ∧
    (r1 = 0xAA → r2 ≠ 0x00 → ByteAnswers s.params r2 t3 w3 → s.wire = w1 ++ (w2 ++ (w3 ++ rest)) →
      ∃ u, exec .reset s = .next u ∧
        Emits s u (w1.length + w2.length + w3.length) (exchangeOutputs (k + 1) 0xFF ++ recvOutputs ++ recvOutputs) ∧
        u.busy = false ∧ u.ok = false ∧ u.err = .protocol ∧ u.session = s.session ∧ u.wire = rest)

/-- O36. From an idle block in any SESSION value, when the device acknowledges the one command byte after k resends
within the limit: ENSTREAM sends 0xEA and ends with OK = 1 and SESSION = STREAMING; DISSTREAM sends 0xF0 and ends
with OK = 1 and SESSION = REMOTE_IDLE. Rests on: 44_device_session.md section ENSTREAM and DISSTREAM. -/
def Obligations.StreamModeOperationsComplete : Prop :=
  ∀ (s : State) (k : Nat) (t : Bool) (w rest : List Levels), s.busy = false → AckedAnswers s.params k t w → s.wire = w ++ rest →
    (∃ u, exec .enStream s = .next u ∧ Emits s u w.length (exchangeOutputs (k + 1) 0xEA) ∧
      u = State.succeed { s.afterAcked u 0xEA 0xFA k t rest with session := .streaming }) ∧
    (∃ u, exec .disStream s = .next u ∧ Emits s u w.length (exchangeOutputs (k + 1) 0xF0) ∧
      u = State.succeed { s.afterAcked u 0xF0 0xFA k t rest with session := .remoteIdle })

/-- O37. From an idle block, when the device acknowledges every byte within the resend limit: SETSCALING sends 0xE7 for
flag 1 and 0xE6 for flag 0; SETRES sends 0xE8 and the code unchanged; SETRATE sends 0xF3 and the code unchanged;
each ends with OK = 1 and the registers as its last acknowledged byte leaves them, SESSION unchanged. Rests on:
44_device_session.md section SETSCALING, SETRES, SETRATE. -/
def Obligations.SettingsComplete : Prop :=
  ∀ (s : State) (k m : Nat) (t t' : Bool) (w w' rest : List Levels), s.busy = false → AckedAnswers s.params k t w →
    (∀ flag : Bool, s.wire = w ++ rest →
      ∃ u, exec (.setScaling flag) s = .next u ∧ Emits s u w.length (exchangeOutputs (k + 1) (if flag then 0xE7 else 0xE6)) ∧
        u = State.succeed (s.afterAcked u (if flag then 0xE7 else 0xE6) 0xFA k t rest)) ∧
    (∀ r : Byte, AckedAnswers s.params m t' w' → s.wire = w ++ (w' ++ rest) →
      (∃ u, exec (.setRes r) s = .next u ∧
        Emits s u (w.length + w'.length) (exchangeOutputs (k + 1) 0xE8 ++ exchangeOutputs (m + 1) r) ∧
        u = State.succeed (s.afterAcked u r 0xFA m t' rest)) ∧
      (∃ u, exec (.setRate r) s = .next u ∧
        Emits s u (w.length + w'.length) (exchangeOutputs (k + 1) 0xF3 ++ exchangeOutputs (m + 1) r) ∧
        u = State.succeed (s.afterAcked u r 0xFA m t' rest)))

/-- O38. From an idle block in any SESSION value, its buffer in canonical form, when the device acknowledges 0xE9 and
sends the three bytes r: GETSETTINGS ends with OK = 1, the bytes in RXBUF in order of arrival, RXCNT = 3, the ST_
registers decoded from them, and the Settings read from those; SESSION is unchanged. (Which byte of the record is
which, byte 1 the resolution and byte 2 the sample rate, is the order R46 takes from general knowledge, K1, log 15.)
Rests on: 44_device_session.md sections RECV3 and GETSETTINGS; 20_memory.md section 2. -/
def Obligations.GetSettingsCompletes : Prop :=
  ∀ (s : State) (k : Nat) (t t' : Bool) (r : Record) (w w' rest : List Levels), s.busy = false → Memory.wf s.rxbuf = true →
    AckedAnswers s.params k t w → RecordAnswers s.params r t' w' → s.wire = w ++ (w' ++ rest) →
    ∃ u, exec .getSettings s = .next u ∧
      Emits s u (w.length + w'.length) (exchangeOutputs (k + 1) 0xE9 ++ recvOutputs ++ recvOutputs ++ recvOutputs) ∧
      u = State.succeed { (s.afterAcked u 0xE9 0xFA k t rest).afterRecord u r t' rest with st := statusOf s.params.layout r } ∧
      Memory.read u.rxbuf 0 = r.b0 ∧ Memory.read u.rxbuf 1 = r.b1 ∧ Memory.read u.rxbuf 2 = r.b2 ∧
      u.settings = { scaling := u.st.scaling, resolution := r.b1, sampleRate := r.b2 }

/-- O39. From an idle block whose SESSION is not STREAMING, its buffer in canonical form, when the device acknowledges
0xEB and sends the three bytes r: READDATA ends with OK = 1, the bytes in RXBUF, the MV_ registers decoded from
them, and SESSION the value it had. (The order of the bytes is log 15, and MV_XOVF and MV_YOVF without
EXPOSE_OVERFLOW are log 25.) Rests on: 44_device_session.md section READDATA. -/
def Obligations.ReadDataRemoteCompletes : Prop :=
  ∀ (s : State) (k : Nat) (t t' : Bool) (r : Record) (w w' rest : List Levels), s.busy = false → Memory.wf s.rxbuf = true →
    s.session ≠ .streaming → AckedAnswers s.params k t w → RecordAnswers s.params r t' w' → s.wire = w ++ (w' ++ rest) →
    ∃ u, exec .readData s = .next u ∧
      Emits s u (w.length + w'.length) (exchangeOutputs (k + 1) 0xEB ++ recvOutputs ++ recvOutputs ++ recvOutputs) ∧
      u = State.succeed { (s.afterAcked u 0xEB 0xFA k t rest).afterRecord u r t' rest with mv := motionOf s.params s.mv r }

/-- O40. From an idle block with SESSION = STREAMING, its buffer in canonical form: one sample of the clock that is low,
and then the three bytes r, and READDATA ends with OK = 1, the MV_ registers decoded from the bytes, SESSION still
STREAMING; it sent no byte. (The order of the bytes is log 15, and MV_XOVF and MV_YOVF without EXPOSE_OVERFLOW are
log 25.) Rests on: 44_device_session.md section READDATA. -/
def Obligations.ReadDataStreamCompletes : Prop :=
  ∀ (s : State) (t : Bool) (r : Record) (poll : Levels) (w rest : List Levels), s.busy = false → Memory.wf s.rxbuf = true →
    s.session = .streaming → poll.clk = false → RecordAnswers s.params r t w → s.wire = poll :: (w ++ rest) →
    ∃ u, exec .readData s = .next u ∧ Emits s u (w.length + 1) (recvOutputs ++ recvOutputs ++ recvOutputs) ∧
      u = State.succeed { s.afterRecord u r t rest with mv := motionOf s.params s.mv r }

/-- O41. From an idle block with SESSION = STREAMING, when the one sample of the clock is high, READDATA ends at once
with NO_DATA: the whole trace is that read, no PinSet, no bit transport; SESSION stays STREAMING and no other
register is written. Rests on: 44_device_session.md section READDATA. -/
def Obligations.ReadDataNoData : Prop :=
  ∀ (s : State) (poll : Levels) (rest : List Levels), s.busy = false → s.session = .streaming → poll.clk = true →
    s.wire = poll :: rest →
    exec .readData s = .next (State.fail .noData { s with wire := rest, trace := .read .clk true :: s.trace })

/-- O42. For every operation accepted in UNINIT, REMOTE_IDLE or STREAMING: when it has ended, SESSION is REMOTE_IDLE
after a successful RESET or DISSTREAM, STREAMING after a successful ENSTREAM, and the value before in every other
case; while it runs, SESSION is the value before, but REMOTE_READING during a READDATA that began in REMOTE_IDLE.
Rests on: R142. -/
def Obligations.SessionTransitionTable : Prop :=
  ∀ (i : Instr) (s t : State), i.isOperation = true → s.busy = false → s.session ≠ .remoteReading → exec i s = .next t →
    (t.busy = false → t.session =
      if i = .reset ∧ t.ok = true then .remoteIdle
      else if i = .enStream ∧ t.ok = true then .streaming
      else if i = .disStream ∧ t.ok = true then .remoteIdle
      else s.session) ∧
    (t.busy = true → t.session = if i = .readData ∧ s.session = .remoteIdle then .remoteReading else s.session)

/-- O43. An operation accepted by an idle block that ends with a failure has written no ST_ or MV_ register and not
RESULT, SESSION is as it was before it (for READDATA, restored), OK is 0 and ERR is not 0; the drive states are what
the last PinSet that it executed set. Rests on: 60_exceptions.md section 2; 20_memory.md section 4. -/
def Obligations.FailureKeepsTheResults : Prop :=
  ∀ (i : Instr) (s t : State), i.isOperation = true → s.busy = false → exec i s = .next t → t.busy = false → t.ok = false →
    t.session = s.session ∧ t.st = s.st ∧ t.mv = s.mv ∧ t.result = s.result ∧ t.err ≠ .none ∧
    ∃ es, t.trace = es ++ s.trace ∧ t.clkDrv = driveAfter .clk es s.clkDrv ∧ t.dataDrv = driveAfter .data es s.dataDrv

/-- O44. However it stands afterwards, RESET, ENSTREAM and DISSTREAM write no register but SESSION, what SENDCMD and
RECVBYTE write, BUSY, OK, ERR and PHASE: RESULT, the result registers and every byte of the packet buffer stay (the
two plain bytes of RESET do not use the buffer). Rests on: 10_state.md section 10; 44_device_session.md sections
RESET, ENSTREAM and DISSTREAM. -/
def Obligations.SessionOperationsLeave : Prop :=
  ∀ (i : Instr) (s t : State), (i = .reset ∨ i = .enStream ∨ i = .disStream) → exec i s = .next t →
    t = { s with session := t.session, cmdr := t.cmdr, ackr := t.ackr, retry := t.retry, txr := t.txr, rxr := t.rxr
                 par := t.par, bitcnt := t.bitcnt, ackbit := t.ackbit, rxbit := t.rxbit, clkDrv := t.clkDrv
                 dataDrv := t.dataDrv, waitcnt := t.waitcnt, busy := t.busy, ok := t.ok, err := t.err, phase := t.phase
                 wire := t.wire, trace := t.trace } ∧
    ∀ a, Memory.read t.rxbuf a = Memory.read s.rxbuf a

/-- O45. However it stands afterwards, GETSETTINGS writes no register but the ST_ registers, RXBUF, RXCNT, what SENDCMD
and RECVBYTE write, BUSY, OK, ERR and PHASE; READDATA the MV_ registers in place of ST_, and SESSION. Of the packet
buffer, either RECV3 has not begun and RXBUF and RXCNT are as before, or the bytes stored are those at addresses
below RXCNT: every byte at or above it reads as before. Rests on: 10_state.md section 10; 44_device_session.md
sections RECV3, GETSETTINGS and READDATA. -/
def Obligations.RecordOperationsLeave : Prop :=
  ∀ s t : State,
    (exec .getSettings s = .next t →
      t = { s with st := t.st, rxbuf := t.rxbuf, rxcnt := t.rxcnt, cmdr := t.cmdr, ackr := t.ackr, retry := t.retry
                   txr := t.txr, rxr := t.rxr, par := t.par, bitcnt := t.bitcnt, ackbit := t.ackbit, rxbit := t.rxbit
                   clkDrv := t.clkDrv, dataDrv := t.dataDrv, waitcnt := t.waitcnt, busy := t.busy, ok := t.ok, err := t.err
                   phase := t.phase, wire := t.wire, trace := t.trace }) ∧
    (exec .readData s = .next t →
      t = { s with mv := t.mv, session := t.session, rxbuf := t.rxbuf, rxcnt := t.rxcnt, cmdr := t.cmdr, ackr := t.ackr
                   retry := t.retry, txr := t.txr, rxr := t.rxr, par := t.par, bitcnt := t.bitcnt, ackbit := t.ackbit
                   rxbit := t.rxbit, clkDrv := t.clkDrv, dataDrv := t.dataDrv, waitcnt := t.waitcnt, busy := t.busy
                   ok := t.ok, err := t.err, phase := t.phase, wire := t.wire, trace := t.trace }) ∧
    (exec .getSettings s = .next t ∨ exec .readData s = .next t →
      (t.rxbuf = s.rxbuf ∧ t.rxcnt = s.rxcnt) ∨ ∀ a, t.rxcnt.toNat ≤ a → Memory.read t.rxbuf a = Memory.read s.rxbuf a)

/-- O46. From an idle block with RXCNT = 3, DECSTATUS and DECMOTION end with OK = 1 and ERR = 0, with no primitive
event, all their result registers written together from the three bytes of RXBUF by the bit positions of LAYOUT, and
nothing else written: the displacements are magnitude - 256 when the sign bit is 1 and magnitude when it is 0; the
overflow bits are written when EXPOSE_OVERFLOW is true, and keep their values when it is false (log 25). With the
reference LAYOUT the positions are those of R75 and R77, which the spec takes from general knowledge (log 15). Rests
on: 45_packet_decoder.md sections DECSTATUS and DECMOTION; 30_encoding.md section 6. -/
def Obligations.DecodersComplete : Prop :=
  ∀ (s : State) (b0 b1 b2 : Byte), s.busy = false → s.rxcnt = 3 →
    b0 = Memory.read s.rxbuf 0 → b1 = Memory.read s.rxbuf 1 → b2 = Memory.read s.rxbuf 2 →
    exec .decStatus s = .next (State.succeed { s with st :=
      { right := b0.getLsbD s.params.layout.stRight, middle := b0.getLsbD s.params.layout.stMiddle
        left := b0.getLsbD s.params.layout.stLeft, scaling := b0.getLsbD s.params.layout.stScaling
        reporting := b0.getLsbD s.params.layout.stReporting, remote := b0.getLsbD s.params.layout.stRemote
        res := b1, rate := b2 } }) ∧
    (∃ dx dy : BitVec 9, exec .decMotion s = .next (State.succeed { s with mv :=
      { left := b0.getLsbD s.params.layout.mvLeft, right := b0.getLsbD s.params.layout.mvRight
        middle := b0.getLsbD s.params.layout.mvMiddle, dx := dx, dy := dy
        xovf := if s.params.exposeOverflow then b0.getLsbD s.params.layout.mvXOvf else s.mv.xovf
        yovf := if s.params.exposeOverflow then b0.getLsbD s.params.layout.mvYOvf else s.mv.yovf } }) ∧
      dx.toInt = (if b0.getLsbD s.params.layout.mvXSign then (b1.toNat : Int) - 256 else b1.toNat) ∧
      dy.toInt = (if b0.getLsbD s.params.layout.mvYSign then (b2.toNat : Int) - 256 else b2.toNat)) ∧
    Layout.reference = ⟨0, 1, 2, 4, 5, 6, 0, 1, 2, 4, 5, 6, 7⟩

/-- O47. From an idle block with RXCNT other than 3, where the spec lets the three bytes be any value (log 8), DECSTATUS
and DECMOTION end with OK = 1 and their result registers decoded from some record; nothing else is written but the
model's count of free values drawn. Nothing is said of which record. (MV_XOVF and MV_YOVF without EXPOSE_OVERFLOW
are log 25.) Rests on: 45_packet_decoder.md section Laws; 93_implementation_defined.md. -/
def Obligations.DecodersOnAnUnfilledBuffer : Prop :=
  ∀ s : State, s.busy = false → s.rxcnt ≠ 3 →
    (∃ r : Record, exec .decStatus s = .next (State.succeed { s with st := statusOf s.params.layout r, draws := s.draws + 3 })) ∧
    (∃ r : Record, exec .decMotion s = .next (State.succeed { s with mv := motionOf s.params s.mv r, draws := s.draws + 3 }))

/-- O48. With the reference LAYOUT (log 15): changing bits 3 and 7 of a status byte 0 in any way changes no ST_
register; changing bit 3 of a motion byte 0 changes no MV_ register; changing bits 6 and 7 of it changes none but
MV_XOVF and MV_YOVF, which copy them when EXPOSE_OVERFLOW is true and are not written when it is false (log 25).
Rests on: 30_encoding.md section 6; 45_packet_decoder.md section Laws. -/
def Obligations.UnusedAndOverflowBits : Prop :=
  ∀ (r : Record) (m : Byte) (p : Params) (old : MotionRegs), p.layout = Layout.reference →
    (m &&& 0x77 = 0 → statusOf p.layout { r with b0 := r.b0 ^^^ m } = statusOf p.layout r) ∧
    (m &&& 0xF7 = 0 → motionOf p old { r with b0 := r.b0 ^^^ m } = motionOf p old r) ∧
    (m &&& 0x3F = 0 → motionOf p old { r with b0 := r.b0 ^^^ m } =
      { motionOf p old r with
        xovf := if p.exposeOverflow then (r.b0 ^^^ m).getLsbD 6 else old.xovf
        yovf := if p.exposeOverflow then (r.b0 ^^^ m).getLsbD 7 else old.yovf })

/-- O49. For sign bit s and magnitude m the displacement is m - 256 s, computed exactly; it is the value of the nine-bit
two's-complement number that is s followed by m, which is what the register holds; it lies in -256 to 255, and every
value in that range is the displacement of exactly one s and m. In particular (0, 0), (0, 0xFF), (1, 0), (1, 0xFF),
(0, 0x80) and (1, 0x10) give 0, 255, -256, -1, 128 and -240. Rests on: R152. -/
def Obligations.DisplacementLaw : Prop :=
  (∀ (s : Bool) (m : Byte), displacement s m = (m.toNat : Int) - 256 * (if s then 1 else 0) ∧
    displacement9 s m = BitVec.ofBool s ++ m ∧ (displacement9 s m).toInt = displacement s m ∧
    -256 ≤ displacement s m ∧ displacement s m ≤ 255) ∧
  (∀ d : Int, -256 ≤ d → d ≤ 255 → ∃ p : Bool × Byte, displacement p.1 p.2 = d ∧ ∀ q : Bool × Byte, displacement q.1 q.2 = d → q = p) ∧
  displacement false 0 = 0 ∧ displacement false 0xFF = 255 ∧ displacement true 0 = -256 ∧ displacement true 0xFF = -1 ∧
  displacement false 0x80 = 128 ∧ displacement true 0x10 = -240

/-- O50. While BUSY = 1, presenting any operation, or any command byte (log 11), changes nothing. Rests on:
30_encoding.md section 2; 60_exceptions.md section 3. -/
def Obligations.RequestsWhileBusyAreIgnored : Prop :=
  ∀ (i : Instr) (s : State), i.onPort = true → s.busy = true → exec i s = .next s

/-- O51. The block listens only while an operation runs: a response byte, a frame or a packet that the device sends to
an idle block changes nothing (log 12). Rests on: 20_memory.md section 4; 70_reset_and_hazards.md section 3. -/
def Obligations.IdleBlockLosesWhatTheDeviceSends : Prop :=
  ∀ (i : Instr) (s : State), i.fromDevice = true → s.busy = false → exec i s = .next s

/-- O52. When a RECVBYTE waits at its start bit, its answers used up, FRAME_RX of v with parity bit p and stop bit t
(with the least clocking, log 12) ends it as RECVBYTE says of that frame: the checks that are enabled, in order, or
success with RESULT = v. Eleven bits whose start bit is 1, no row of the table (log 29), end it with FRAMING after
that one cell, the ten other cells staying on the wire for the reads to come. An idle block loses them. Rests on:
30_encoding.md section 1; 42_byte_framer.md section RECVBYTE; 20_memory.md section 3. -/
def Obligations.FrameRxIsReceived : Prop :=
  (∀ (s : State) (v : Byte) (p t : Bool), s.busy = true → s.phase = .recvByte (.cell .waitLow) → s.bitcnt = 0 → s.wire = [] →
    ∃ u, exec (.frameRx v p t) s = .next u ∧ Emits s u 33 [] ∧
      u = (let r : State := { s with rxr := v, par := oddParity v, bitcnt := 10, rxbit := t, trace := u.trace, waitcnt := 0 }
        if s.params.checkParity = true ∧ p ≠ oddParity v then State.fail .parity r
        else if s.params.checkStop = true ∧ t = false then State.fail .framing r
        else State.succeed { r with result := v })) ∧
  (∀ (s : State) (w : BitVec 11) (rest : List Item), s.inbox = .frameRx w :: rest → w.getLsbD 10 = true →
    (s.busy = false → step s = .next { s with inbox := rest }) ∧
    (s.busy = true → s.phase = .recvByte (.cell .waitLow) → s.bitcnt = 0 → s.wire = [] →
      ∃ u, step s = .next u ∧ Emits s u 3 [] ∧
        u = State.fail .framing { s with inbox := rest, rxbit := true, trace := u.trace, waitcnt := 0
                                         wire := ((List.range 10).map fun k => receiveCell (w.getLsbD (9 - k))).flatten }))

/-- O53. FRAME_TX of v with the odd parity bit and acknowledge bit a (with the least clocking, log 12, log 13): an idle
block sends it, as SENDBYTE(v) with that acknowledge bit, which is SENDBYTE(v) with the device's side of the frame
behind the answers at hand. A block that offers the frame of v, whichever operation sends it, has it taken: the
operation goes on with the device's side of the frame at hand. With its answers used up at the first cell: a
SENDBYTE requested on the port ends with success or NAK; a command or a Device Session operation ends with NAK if a
= 1 (SESSION restored if a remote READDATA was running), and if a = 0 switches its lines to input and waits for the
acknowledge byte at its start bit. With another parity bit, or while the block offers no frame of v, nothing
changes. Rests on: 30_encoding.md section 1; 42_byte_framer.md section SENDBYTE; 43_command_protocol.md section
SENDACKED. -/
def Obligations.FrameTxPasses : Prop :=
  (∀ (s : State) (v : Byte) (a : Bool), s.busy = false → s.wire = [] →
    ∃ u, exec (.frameTx v (oddParity v) a) s = .next u ∧ Emits s u 23 (sendOutputs v) ∧
      u = (if a then State.fail .nak { s.afterSend u v a [] with waitcnt := 0 }
        else State.succeed { s.afterSend u v a [] with waitcnt := 0 })) ∧
  (∀ (s : State) (v : Byte) (a : Bool), s.busy = false →
    exec (.frameTx v (oddParity v) a) s = exec (.sendByte v) (s.more (frameTxLevels a))) ∧
  (∀ (s : State) (v : Byte) (a : Bool), s.busy = true → s.frameOffered = some v →
    exec (.frameTx v (oddParity v) a) s = .next (resume (s.more (frameTxLevels a)))) ∧
  (∀ (s : State) (v : Byte), s.busy = true → s.phase.sending? = some (.cell (.waitLow (v.getLsbD 0))) → s.bitcnt = 0 →
    s.txr = v → s.par = !(v.getLsbD 0) → s.wire = [] →
    (∃ u, exec (.frameTx v (oddParity v) true) s = .next u ∧ Emits s u 23 ((sendOutputs v).drop 4) ∧
      u = State.fail .nak { s with par := oddParity v, bitcnt := 10, ackbit := true, rxbit := true, dataDrv := .inFloat
                                   trace := u.trace, waitcnt := 0, session := s.phase.sessionAfter false s.session }) ∧
    (s.phase = .sendByte (.cell (.waitLow (v.getLsbD 0))) →
      ∃ u, exec (.frameTx v (oddParity v) false) s = .next u ∧ Emits s u 23 ((sendOutputs v).drop 4) ∧
        u = State.succeed { s with par := oddParity v, bitcnt := 10, ackbit := false, rxbit := false, dataDrv := .inFloat
                                   trace := u.trace, waitcnt := 0 }) ∧
    (s.phase ≠ .sendByte (.cell (.waitLow (v.getLsbD 0))) →
      ∃ u, exec (.frameTx v (oddParity v) false) s = .next u ∧ Emits s u 23 ((sendOutputs v).drop 4 ++ recvOutputs) ∧
        u = { s with par := oddParity v, bitcnt := 0, ackbit := false, rxbit := false, clkDrv := .inFloat, dataDrv := .inFloat
                     trace := u.trace, waitcnt := 0, phase := s.phase.awaitingByte })) ∧
  (∀ (s : State) (v : Byte) (p a : Bool), p ≠ oddParity v ∨ (s.busy = true ∧ s.frameOffered ≠ some v) →
    exec (.frameTx v p a) s = .next s)

/-- O54. When a SENDCMD waits for its acknowledge byte at the start bit, its answers used up: RESP_ACK ends it with
success; RESP_ERROR ends it with PROTOCOL and no byte resent; RESP_RESEND, with no limit or the limit not reached,
raises RETRY by 1 and begins the retransmission of CMDR, which waits at its first cell. When a command with a
parameter waits so, RESP_ACK begins the transmission of the parameter. (Delivery with the least clocking, log 12.)
Rests on: 30_encoding.md section 4; 43_command_protocol.md sections SENDACKED and SENDCMDP. -/
def Obligations.ResponsesToACommand : Prop :=
  ∀ (s : State) (which : WhichByte), s.busy = true → s.phase = .command { which := which, ack := .recvAck (.cell .waitLow) } →
    s.bitcnt = 0 → s.wire = [] →
    (which = .command ∨ which = .parameter → ∃ u, exec .respAck s = .next u ∧ Emits s u 33 [] ∧
      u = State.succeed { s with rxr := 0xFA, par := oddParity 0xFA, bitcnt := 10, rxbit := true, ackr := 0xFA
                                 trace := u.trace, waitcnt := 0 }) ∧
    (∀ p, which = .commandThen p → ∃ u, exec .respAck s = .next u ∧ Emits s u 33 ((sendOutputs p).take 4) ∧ u.busy = true ∧
      u.cmdr = p ∧ u.retry = 0 ∧ u.ackr = 0xFA ∧
      u.phase = .command { which := .parameter, ack := .send (.cell (.waitLow (p.getLsbD 0))) }) ∧
    (∃ u, exec .respError s = .next u ∧ Emits s u 33 [] ∧
      u = State.fail .protocol { s with rxr := 0xFC, par := oddParity 0xFC, bitcnt := 10, rxbit := true, ackr := 0xFC
                                        trace := u.trace, waitcnt := 0 }) ∧
    ((∀ n, s.params.resendLimit = some n → s.retry + 1 ≤ n) →
      ∃ u, exec .respResend s = .next u ∧ Emits s u 33 ((sendOutputs s.cmdr).take 4) ∧ u.busy = true ∧
        u.cmdr = s.cmdr ∧ u.retry = s.retry + 1 ∧ u.ackr = 0xFE ∧
        u.phase = .command { which := which, ack := .send (.cell (.waitLow (s.cmdr.getLsbD 0))) })

/-- O55. When a RESET waits for its first plain byte at the start bit, its answers used up, RESP_SELF_TEST_PASSED lets
it go on to wait for the second; when it waits for the second, RESP_IS_MOUSE lets it go on to send 0xF0, which waits
at its first cell. SESSION is not yet written. (Delivery with the least clocking, log 12.) Rests on: 30_encoding.md
section 4; 44_device_session.md section RESET. -/
def Obligations.ResponsesToAReset : Prop :=
  ∀ s : State, s.busy = true → s.bitcnt = 0 → s.wire = [] →
    (s.phase = .session (.resetSelfTest (.cell .waitLow)) → ∃ u, exec .respSelfTestPassed s = .next u ∧
      Emits s u 33 recvOutputs ∧ u.busy = true ∧ u.rxr = 0xAA ∧ u.bitcnt = 0 ∧ u.session = s.session ∧
      u.phase = .session (.resetIdentity (.cell .waitLow))) ∧
    (s.phase = .session (.resetIdentity (.cell .waitLow)) → ∃ u, exec .respIsMouse s = .next u ∧
      Emits s u 33 ((sendOutputs 0xF0).take 4) ∧ u.busy = true ∧ u.rxr = 0x00 ∧ u.cmdr = 0xF0 ∧ u.session = s.session ∧
      u.phase = .session (.resetRemote { which := .command, ack := .send (.cell (.waitLow false)) }))

/-- O56. When GETSETTINGS waits for its first record byte at the start bit, its answers used up and its buffer in
canonical form, STATUS of b0, b1, b2 ends it with OK = 1 and the ST_ registers decoded from the bytes. MOTION does
the same for a READDATA in remote mode, with the MV_ registers and SESSION restored, and for one in streaming mode
that waits for its poll, the poll being answered low (log 21). (Delivery with the least clocking, log 12; the order
of the bytes, log 15; MV_XOVF and MV_YOVF without EXPOSE_OVERFLOW, log 25.) Rests on: 30_encoding.md section 6;
44_device_session.md sections RECV3, GETSETTINGS and READDATA. -/
def Obligations.PacketsAreReceived : Prop :=
  ∀ (s : State) (b0 b1 b2 : Byte), s.busy = true → s.wire = [] → Memory.wf s.rxbuf = true →
    (s.phase = .session (.getRecv { index := 0, byte := .cell .waitLow }) → s.bitcnt = 0 →
      ∃ u, exec (.status b0 b1 b2) s = .next u ∧ Emits s u 99 (recvOutputs ++ recvOutputs) ∧
        u = State.succeed { s.afterRecord u ⟨b0, b1, b2⟩ true [] with
          st := statusOf s.params.layout ⟨b0, b1, b2⟩, waitcnt := 0 }) ∧
    (∀ s0, s.phase = .session (.readRecv s0 { index := 0, byte := .cell .waitLow }) → s.bitcnt = 0 →
      ∃ u, exec (.motion b0 b1 b2) s = .next u ∧ Emits s u 99 (recvOutputs ++ recvOutputs) ∧
        u = State.succeed { s.afterRecord u ⟨b0, b1, b2⟩ true [] with
          mv := motionOf s.params s.mv ⟨b0, b1, b2⟩, session := s0, waitcnt := 0 }) ∧
    (s.phase = .session .streamPoll → s.session = .streaming →
      ∃ u, exec (.motion b0 b1 b2) s = .next u ∧ Emits s u 100 (recvOutputs ++ recvOutputs ++ recvOutputs) ∧
        u = State.succeed { s.afterRecord u ⟨b0, b1, b2⟩ true [] with mv := motionOf s.params s.mv ⟨b0, b1, b2⟩, waitcnt := 0 })

/-- O57. What passes on the wire while an operation runs, and any levels more that an operation goes on with, write only
what that operation writes (log 12, log 13): never the parameters or what is still to be presented, and no free
value is drawn; SESSION, the result registers, RXBUF, every byte of it, and RXCNT only where a Device Session
operation runs; CMDR, ACKR and RETRY only where a command or a Device Session operation runs; TXR and ACKBIT not
where a RECVBYTE, a RECVBIT or a SENDBIT was requested; RESULT only where a RECVBIT or a RECVBYTE was requested. In
a Device Session operation: SESSION is as before while it runs and, when it has ended, what the transition table
says; the ST_ registers stay outside GETSETTINGS and the MV_ registers outside READDATA; where it receives no record
(RESET, ENSTREAM, DISSTREAM, SETSCALING, SETRES, SETRATE), RXCNT and every byte of the buffer stay; where it does,
either RXBUF and RXCNT are as before, or every byte below the address it stores to next and every byte at or above
RXCNT after it reads as before. Rests on: 10_state.md section 10; 20_memory.md section 4; 44_device_session.md
sections RECV3 and Transition table. -/
def Obligations.DeliveriesLeave : Prop :=
  ∀ s t : State, s.busy = true →
    ((∃ i : Instr, (i.fromDevice = true ∨ ∃ v p a, i = .frameTx v p a) ∧ exec i s = .next t) ∨ ∃ w, t = resume (s.more w)) →
    t.params = s.params ∧ t.inbox = s.inbox ∧ t.draws = s.draws ∧
    ((∀ p, s.phase ≠ .session p) → t.session = s.session ∧ t.st = s.st ∧ t.mv = s.mv ∧ t.rxcnt = s.rxcnt ∧
      ∀ a, Memory.read t.rxbuf a = Memory.read s.rxbuf a) ∧
    ((∀ p, s.phase ≠ .session p) → (∀ p, s.phase ≠ .command p) →
      t.cmdr = s.cmdr ∧ t.ackr = s.ackr ∧ t.retry = s.retry) ∧
    ((∃ p, s.phase = .recvByte p) ∨ (∃ p, s.phase = .recvBit p) ∨ (∃ p, s.phase = .sendBit p) →
      t.txr = s.txr ∧ t.ackbit = s.ackbit) ∧
    ((∀ p, s.phase ≠ .recvByte p) → (∀ p, s.phase ≠ .recvBit p) → t.result = s.result) ∧
    (∀ q, s.phase = .session q →
      (t.session = if t.busy then s.session else q.sessionAfter t.ok s.session) ∧
      (q.writesStatus = false → t.st = s.st) ∧ (q.writesStatus = true → t.mv = s.mv) ∧
      (q.nextStored = none → t.rxcnt = s.rxcnt ∧ t.mv = s.mv ∧ ∀ a, Memory.read t.rxbuf a = Memory.read s.rxbuf a) ∧
      (∀ n, q.nextStored = some n → (t.rxbuf = s.rxbuf ∧ t.rxcnt = s.rxcnt) ∨
        ∀ a, a < n ∨ t.rxcnt.toNat ≤ a → Memory.read t.rxbuf a = Memory.read s.rxbuf a))

/-- O58. For what is requested on the port of an idle block, and for an operation in progress in any state: running over
the answers at hand, and then going on from PHASE when more answers w have come, is the same as running with w at
hand from the start. So PHASE holds all that an operation needs to go on: the step by step machine and the
structured pseudocode are one. Rests on: 10_state.md section 7; 00_scope.md section 5. -/
def Obligations.AnswersMayComeInPortions : Prop :=
  (∀ (i : Instr) (s t : State) (w : List Levels), i.onPort = true → s.busy = false → s.phase = .idle → exec i s = .next t →
    exec i (s.more w) = .next (resume (t.more w))) ∧
  (∀ (s : State) (w : List Levels), resume (s.more w) = resume ((resume s).more w))

/-- O59. OK, ERR, RESULT and the ST_ and MV_ registers are never written in the middle of an operation: a step after
which the block is busy leaves them all as they were. Rests on: 10_state.md section 7; 20_memory.md section 4. -/
def Obligations.ResultsAreWrittenAtTheEnd : Prop :=
  ∀ s t : State, step s = .next t → t.busy = true →
    t.ok = s.ok ∧ t.err = s.err ∧ t.result = s.result ∧ t.st = s.st ∧ t.mv = s.mv

/-- O60. Every instruction answers a next state in every state: failures are results, not stops. From a state that meets
the invariant every step answers a next state, whatever word is presented, in the table or not (log 14, log 29).
Rests on: 60_exceptions.md sections 1 and 2; 43_command_protocol.md section Properties. -/
def Obligations.EveryStepAnswersANextState : Prop :=
  (∀ (i : Instr) (s : State), ∃ t, exec i s = .next t) ∧ (∀ s : State, s.Inv → ∃ t, step s = .next t)
end

