-- ==== Sys2Proof/Laws/Memory.lean ====
section
/-! SUPPORT. The packet buffer: read after write, and the canonical form that every write keeps. -/

namespace Sys2Proof.Machine

theorem Memory.wf_empty : Memory.wf [] = true := rfl

theorem Memory.sortedFrom_cons (low bound : Nat) (c : Host.Cell) (m : Memory) :
    Memory.sortedFrom low bound (c :: m) = true ↔
      low ≤ c.1 ∧ c.1 < bound ∧ c.2 ≠ Memory.unlisted ∧ Memory.sortedFrom (c.1 + 1) bound m = true := by
  simp [Memory.sortedFrom, and_assoc]

theorem Memory.sortedFrom_weaken {low low' bound : Nat} (h : low' ≤ low) :
    ∀ {m : Memory}, Memory.sortedFrom low bound m = true → Memory.sortedFrom low' bound m = true
  | [], _ => rfl
  | _ :: _, hm => by
    rw [Memory.sortedFrom_cons] at hm ⊢
    exact ⟨by omega, hm.2⟩

theorem Memory.read_below {low bound a : Nat} (h : a < low) :
    ∀ {m : Memory}, Memory.sortedFrom low bound m = true → Memory.read m a = Memory.unlisted
  | [], _ => rfl
  | c :: m, hm => by
    rw [Memory.sortedFrom_cons] at hm
    have hne : c.1 ≠ a := by omega
    simp only [Memory.read, if_neg hne]
    exact Memory.read_below (by omega) hm.2.2.2

theorem Memory.sortedFrom_write {low bound a : Nat} {v : Byte} (hlow : low ≤ a) (hb : a < bound) :
    ∀ {m : Memory}, Memory.sortedFrom low bound m = true → Memory.sortedFrom low bound (Memory.write m a v) = true
  | [], _ => by
    by_cases hv : v = Memory.unlisted
    · simp [Memory.write, hv, Memory.sortedFrom]
    · simp [Memory.write, hv, Memory.sortedFrom, hlow, hb]
  | c :: m, hm => by
    have h := (Memory.sortedFrom_cons low bound c m).1 hm
    simp only [Memory.write]
    split
    · split
      · exact hm
      · rename_i hac hv
        rw [Memory.sortedFrom_cons, Memory.sortedFrom_cons]
        exact ⟨hlow, hb, hv, hac, h.2⟩
    · split
      · rename_i hca
        split
        · exact Memory.sortedFrom_weaken (by omega) h.2.2.2
        · rename_i hv
          rw [Memory.sortedFrom_cons]
          exact ⟨hlow, hb, hv, hca ▸ h.2.2.2⟩
      · rw [Memory.sortedFrom_cons]
        exact ⟨h.1, h.2.1, h.2.2.1, Memory.sortedFrom_write (by omega) hb h.2.2.2⟩

/-- Every write of the block keeps the canonical form. -/
theorem Memory.write_wf {m : Memory} {a : Nat} {v : Byte} (hm : Memory.wf m = true) (ha : a < 3) :
    Memory.wf (Memory.write m a v) = true :=
  Memory.sortedFrom_write (Nat.zero_le a) ha hm

theorem Memory.read_write_same_from {low bound a : Nat} {v : Byte} :
    ∀ {m : Memory}, Memory.sortedFrom low bound m = true → Memory.read (Memory.write m a v) a = v
  | [], _ => by by_cases hv : v = Memory.unlisted <;> simp [Memory.write, hv, Memory.read]
  | c :: m, hm => by
    have h := (Memory.sortedFrom_cons low bound c m).1 hm
    simp only [Memory.write]
    split
    · rename_i hac
      split
      · rename_i hv
        rw [hv]
        simp only [Memory.read, if_neg (show ¬ c.1 = a by omega)]
        exact Memory.read_below (by omega) h.2.2.2
      · simp [Memory.read]
    · split
      · rename_i hca
        split
        · rename_i hv
          rw [hv]
          exact Memory.read_below (by omega) h.2.2.2
        · simp [Memory.read]
      · rename_i hca
        simp only [Memory.read, if_neg hca]
        exact Memory.read_write_same_from h.2.2.2

/-- A read of the address written gives the byte written. -/
theorem Memory.read_write_same {m : Memory} {a : Nat} {v : Byte} (hm : Memory.wf m = true) :
    Memory.read (Memory.write m a v) a = v :=
  Memory.read_write_same_from hm

/-- A write leaves every other address as it was, in any list of cells. -/
theorem Memory.read_write_other {a b : Nat} {v : Byte} (hab : a ≠ b) :
    ∀ {m : Memory}, Memory.read (Memory.write m a v) b = Memory.read m b
  | [] => by by_cases hv : v = Memory.unlisted <;> simp [Memory.write, hv, Memory.read, hab]
  | c :: m => by
    simp only [Memory.write]
    split
    · split
      · rfl
      · simp [Memory.read, hab]
    · split
      · rename_i hca
        split
        · simp [Memory.read, hca, hab]
        · simp [Memory.read, hca, hab]
      · simp only [Memory.read]
        split
        · rfl
        · exact Memory.read_write_other hab

theorem Memory.withRecord_wf {m : Memory} (r : Record) (hm : Memory.wf m = true) : Memory.wf (m.withRecord r) = true :=
  Memory.write_wf (Memory.write_wf (Memory.write_wf hm (by omega)) (by omega)) (by omega)

theorem Memory.read_withRecord {m : Memory} (r : Record) (hm : Memory.wf m = true) :
    Memory.read (m.withRecord r) 0 = r.b0 ∧ Memory.read (m.withRecord r) 1 = r.b1 ∧ Memory.read (m.withRecord r) 2 = r.b2 := by
  have h0 : Memory.wf (Memory.write m 0 r.b0) = true := Memory.write_wf hm (by omega)
  have h1 : Memory.wf (Memory.write (Memory.write m 0 r.b0) 1 r.b1) = true := Memory.write_wf h0 (by omega)
  refine ⟨?_, ?_, Memory.read_write_same h1⟩
  · rw [Memory.withRecord, Memory.read_write_other (by omega), Memory.read_write_other (by omega), Memory.read_write_same hm]
  · rw [Memory.withRecord, Memory.read_write_other (by omega), Memory.read_write_same h0]

end Sys2Proof.Machine
end

