-- ==== Sys2Proof/Laws/State.lean ====
section
/-! SUPPORT. One lemma per field of `State` and named update: the fields an update writes, and those it leaves. -/

namespace Sys2Proof.Machine

/-! `took` -/

@[simp] theorem State.took_params (s : State) (p : Line) (l : Levels) (rest : List Levels) : (s.took p l rest).params = s.params := rfl
@[simp] theorem State.took_clkDrv (s : State) (p : Line) (l : Levels) (rest : List Levels) : (s.took p l rest).clkDrv = s.clkDrv := rfl
@[simp] theorem State.took_dataDrv (s : State) (p : Line) (l : Levels) (rest : List Levels) : (s.took p l rest).dataDrv = s.dataDrv := rfl
@[simp] theorem State.took_session (s : State) (p : Line) (l : Levels) (rest : List Levels) : (s.took p l rest).session = s.session := rfl
@[simp] theorem State.took_txr (s : State) (p : Line) (l : Levels) (rest : List Levels) : (s.took p l rest).txr = s.txr := rfl
@[simp] theorem State.took_rxr (s : State) (p : Line) (l : Levels) (rest : List Levels) : (s.took p l rest).rxr = s.rxr := rfl
@[simp] theorem State.took_par (s : State) (p : Line) (l : Levels) (rest : List Levels) : (s.took p l rest).par = s.par := rfl
@[simp] theorem State.took_bitcnt (s : State) (p : Line) (l : Levels) (rest : List Levels) : (s.took p l rest).bitcnt = s.bitcnt := rfl
@[simp] theorem State.took_ackbit (s : State) (p : Line) (l : Levels) (rest : List Levels) : (s.took p l rest).ackbit = s.ackbit := rfl
@[simp] theorem State.took_rxbit (s : State) (p : Line) (l : Levels) (rest : List Levels) : (s.took p l rest).rxbit = s.rxbit := rfl
@[simp] theorem State.took_cmdr (s : State) (p : Line) (l : Levels) (rest : List Levels) : (s.took p l rest).cmdr = s.cmdr := rfl
@[simp] theorem State.took_ackr (s : State) (p : Line) (l : Levels) (rest : List Levels) : (s.took p l rest).ackr = s.ackr := rfl
@[simp] theorem State.took_retry (s : State) (p : Line) (l : Levels) (rest : List Levels) : (s.took p l rest).retry = s.retry := rfl
@[simp] theorem State.took_waitcnt (s : State) (p : Line) (l : Levels) (rest : List Levels) : (s.took p l rest).waitcnt = s.waitcnt := rfl
@[simp] theorem State.took_rxbuf (s : State) (p : Line) (l : Levels) (rest : List Levels) : (s.took p l rest).rxbuf = s.rxbuf := rfl
@[simp] theorem State.took_rxcnt (s : State) (p : Line) (l : Levels) (rest : List Levels) : (s.took p l rest).rxcnt = s.rxcnt := rfl
@[simp] theorem State.took_busy (s : State) (p : Line) (l : Levels) (rest : List Levels) : (s.took p l rest).busy = s.busy := rfl
@[simp] theorem State.took_ok (s : State) (p : Line) (l : Levels) (rest : List Levels) : (s.took p l rest).ok = s.ok := rfl
@[simp] theorem State.took_err (s : State) (p : Line) (l : Levels) (rest : List Levels) : (s.took p l rest).err = s.err := rfl
@[simp] theorem State.took_result (s : State) (p : Line) (l : Levels) (rest : List Levels) : (s.took p l rest).result = s.result := rfl
@[simp] theorem State.took_phase (s : State) (p : Line) (l : Levels) (rest : List Levels) : (s.took p l rest).phase = s.phase := rfl
@[simp] theorem State.took_st (s : State) (p : Line) (l : Levels) (rest : List Levels) : (s.took p l rest).st = s.st := rfl
@[simp] theorem State.took_mv (s : State) (p : Line) (l : Levels) (rest : List Levels) : (s.took p l rest).mv = s.mv := rfl
@[simp] theorem State.took_wire (s : State) (p : Line) (l : Levels) (rest : List Levels) : (s.took p l rest).wire = rest := rfl
@[simp] theorem State.took_inbox (s : State) (p : Line) (l : Levels) (rest : List Levels) : (s.took p l rest).inbox = s.inbox := rfl
@[simp] theorem State.took_trace (s : State) (p : Line) (l : Levels) (rest : List Levels) : (s.took p l rest).trace = .read p (l.at p) :: s.trace := rfl
@[simp] theorem State.took_draws (s : State) (p : Line) (l : Levels) (rest : List Levels) : (s.took p l rest).draws = s.draws := rfl

/-! `pinSet_clk` -/

@[simp] theorem pinSet_clk_params (s : State) (m : Drive) : (pinSet .clk m s).params = s.params := rfl
@[simp] theorem pinSet_clk_clkDrv (s : State) (m : Drive) : (pinSet .clk m s).clkDrv = m := rfl
@[simp] theorem pinSet_clk_dataDrv (s : State) (m : Drive) : (pinSet .clk m s).dataDrv = s.dataDrv := rfl
@[simp] theorem pinSet_clk_session (s : State) (m : Drive) : (pinSet .clk m s).session = s.session := rfl
@[simp] theorem pinSet_clk_txr (s : State) (m : Drive) : (pinSet .clk m s).txr = s.txr := rfl
@[simp] theorem pinSet_clk_rxr (s : State) (m : Drive) : (pinSet .clk m s).rxr = s.rxr := rfl
@[simp] theorem pinSet_clk_par (s : State) (m : Drive) : (pinSet .clk m s).par = s.par := rfl
@[simp] theorem pinSet_clk_bitcnt (s : State) (m : Drive) : (pinSet .clk m s).bitcnt = s.bitcnt := rfl
@[simp] theorem pinSet_clk_ackbit (s : State) (m : Drive) : (pinSet .clk m s).ackbit = s.ackbit := rfl
@[simp] theorem pinSet_clk_rxbit (s : State) (m : Drive) : (pinSet .clk m s).rxbit = s.rxbit := rfl
@[simp] theorem pinSet_clk_cmdr (s : State) (m : Drive) : (pinSet .clk m s).cmdr = s.cmdr := rfl
@[simp] theorem pinSet_clk_ackr (s : State) (m : Drive) : (pinSet .clk m s).ackr = s.ackr := rfl
@[simp] theorem pinSet_clk_retry (s : State) (m : Drive) : (pinSet .clk m s).retry = s.retry := rfl
@[simp] theorem pinSet_clk_waitcnt (s : State) (m : Drive) : (pinSet .clk m s).waitcnt = s.waitcnt := rfl
@[simp] theorem pinSet_clk_rxbuf (s : State) (m : Drive) : (pinSet .clk m s).rxbuf = s.rxbuf := rfl
@[simp] theorem pinSet_clk_rxcnt (s : State) (m : Drive) : (pinSet .clk m s).rxcnt = s.rxcnt := rfl
@[simp] theorem pinSet_clk_busy (s : State) (m : Drive) : (pinSet .clk m s).busy = s.busy := rfl
@[simp] theorem pinSet_clk_ok (s : State) (m : Drive) : (pinSet .clk m s).ok = s.ok := rfl
@[simp] theorem pinSet_clk_err (s : State) (m : Drive) : (pinSet .clk m s).err = s.err := rfl
@[simp] theorem pinSet_clk_result (s : State) (m : Drive) : (pinSet .clk m s).result = s.result := rfl
@[simp] theorem pinSet_clk_phase (s : State) (m : Drive) : (pinSet .clk m s).phase = s.phase := rfl
@[simp] theorem pinSet_clk_st (s : State) (m : Drive) : (pinSet .clk m s).st = s.st := rfl
@[simp] theorem pinSet_clk_mv (s : State) (m : Drive) : (pinSet .clk m s).mv = s.mv := rfl
@[simp] theorem pinSet_clk_wire (s : State) (m : Drive) : (pinSet .clk m s).wire = s.wire := rfl
@[simp] theorem pinSet_clk_inbox (s : State) (m : Drive) : (pinSet .clk m s).inbox = s.inbox := rfl
@[simp] theorem pinSet_clk_trace (s : State) (m : Drive) : (pinSet .clk m s).trace = .set .clk m :: s.trace := rfl
@[simp] theorem pinSet_clk_draws (s : State) (m : Drive) : (pinSet .clk m s).draws = s.draws := rfl

/-! `pinSet_data` -/

@[simp] theorem pinSet_data_params (s : State) (m : Drive) : (pinSet .data m s).params = s.params := rfl
@[simp] theorem pinSet_data_clkDrv (s : State) (m : Drive) : (pinSet .data m s).clkDrv = s.clkDrv := rfl
@[simp] theorem pinSet_data_dataDrv (s : State) (m : Drive) : (pinSet .data m s).dataDrv = m := rfl
@[simp] theorem pinSet_data_session (s : State) (m : Drive) : (pinSet .data m s).session = s.session := rfl
@[simp] theorem pinSet_data_txr (s : State) (m : Drive) : (pinSet .data m s).txr = s.txr := rfl
@[simp] theorem pinSet_data_rxr (s : State) (m : Drive) : (pinSet .data m s).rxr = s.rxr := rfl
@[simp] theorem pinSet_data_par (s : State) (m : Drive) : (pinSet .data m s).par = s.par := rfl
@[simp] theorem pinSet_data_bitcnt (s : State) (m : Drive) : (pinSet .data m s).bitcnt = s.bitcnt := rfl
@[simp] theorem pinSet_data_ackbit (s : State) (m : Drive) : (pinSet .data m s).ackbit = s.ackbit := rfl
@[simp] theorem pinSet_data_rxbit (s : State) (m : Drive) : (pinSet .data m s).rxbit = s.rxbit := rfl
@[simp] theorem pinSet_data_cmdr (s : State) (m : Drive) : (pinSet .data m s).cmdr = s.cmdr := rfl
@[simp] theorem pinSet_data_ackr (s : State) (m : Drive) : (pinSet .data m s).ackr = s.ackr := rfl
@[simp] theorem pinSet_data_retry (s : State) (m : Drive) : (pinSet .data m s).retry = s.retry := rfl
@[simp] theorem pinSet_data_waitcnt (s : State) (m : Drive) : (pinSet .data m s).waitcnt = s.waitcnt := rfl
@[simp] theorem pinSet_data_rxbuf (s : State) (m : Drive) : (pinSet .data m s).rxbuf = s.rxbuf := rfl
@[simp] theorem pinSet_data_rxcnt (s : State) (m : Drive) : (pinSet .data m s).rxcnt = s.rxcnt := rfl
@[simp] theorem pinSet_data_busy (s : State) (m : Drive) : (pinSet .data m s).busy = s.busy := rfl
@[simp] theorem pinSet_data_ok (s : State) (m : Drive) : (pinSet .data m s).ok = s.ok := rfl
@[simp] theorem pinSet_data_err (s : State) (m : Drive) : (pinSet .data m s).err = s.err := rfl
@[simp] theorem pinSet_data_result (s : State) (m : Drive) : (pinSet .data m s).result = s.result := rfl
@[simp] theorem pinSet_data_phase (s : State) (m : Drive) : (pinSet .data m s).phase = s.phase := rfl
@[simp] theorem pinSet_data_st (s : State) (m : Drive) : (pinSet .data m s).st = s.st := rfl
@[simp] theorem pinSet_data_mv (s : State) (m : Drive) : (pinSet .data m s).mv = s.mv := rfl
@[simp] theorem pinSet_data_wire (s : State) (m : Drive) : (pinSet .data m s).wire = s.wire := rfl
@[simp] theorem pinSet_data_inbox (s : State) (m : Drive) : (pinSet .data m s).inbox = s.inbox := rfl
@[simp] theorem pinSet_data_trace (s : State) (m : Drive) : (pinSet .data m s).trace = .set .data m :: s.trace := rfl
@[simp] theorem pinSet_data_draws (s : State) (m : Drive) : (pinSet .data m s).draws = s.draws := rfl

/-! `delayUs` -/

@[simp] theorem delayUs_params (s : State) (n : Nat) : (delayUs n s).params = s.params := rfl
@[simp] theorem delayUs_clkDrv (s : State) (n : Nat) : (delayUs n s).clkDrv = s.clkDrv := rfl
@[simp] theorem delayUs_dataDrv (s : State) (n : Nat) : (delayUs n s).dataDrv = s.dataDrv := rfl
@[simp] theorem delayUs_session (s : State) (n : Nat) : (delayUs n s).session = s.session := rfl
@[simp] theorem delayUs_txr (s : State) (n : Nat) : (delayUs n s).txr = s.txr := rfl
@[simp] theorem delayUs_rxr (s : State) (n : Nat) : (delayUs n s).rxr = s.rxr := rfl
@[simp] theorem delayUs_par (s : State) (n : Nat) : (delayUs n s).par = s.par := rfl
@[simp] theorem delayUs_bitcnt (s : State) (n : Nat) : (delayUs n s).bitcnt = s.bitcnt := rfl
@[simp] theorem delayUs_ackbit (s : State) (n : Nat) : (delayUs n s).ackbit = s.ackbit := rfl
@[simp] theorem delayUs_rxbit (s : State) (n : Nat) : (delayUs n s).rxbit = s.rxbit := rfl
@[simp] theorem delayUs_cmdr (s : State) (n : Nat) : (delayUs n s).cmdr = s.cmdr := rfl
@[simp] theorem delayUs_ackr (s : State) (n : Nat) : (delayUs n s).ackr = s.ackr := rfl
@[simp] theorem delayUs_retry (s : State) (n : Nat) : (delayUs n s).retry = s.retry := rfl
@[simp] theorem delayUs_waitcnt (s : State) (n : Nat) : (delayUs n s).waitcnt = s.waitcnt := rfl
@[simp] theorem delayUs_rxbuf (s : State) (n : Nat) : (delayUs n s).rxbuf = s.rxbuf := rfl
@[simp] theorem delayUs_rxcnt (s : State) (n : Nat) : (delayUs n s).rxcnt = s.rxcnt := rfl
@[simp] theorem delayUs_busy (s : State) (n : Nat) : (delayUs n s).busy = s.busy := rfl
@[simp] theorem delayUs_ok (s : State) (n : Nat) : (delayUs n s).ok = s.ok := rfl
@[simp] theorem delayUs_err (s : State) (n : Nat) : (delayUs n s).err = s.err := rfl
@[simp] theorem delayUs_result (s : State) (n : Nat) : (delayUs n s).result = s.result := rfl
@[simp] theorem delayUs_phase (s : State) (n : Nat) : (delayUs n s).phase = s.phase := rfl
@[simp] theorem delayUs_st (s : State) (n : Nat) : (delayUs n s).st = s.st := rfl
@[simp] theorem delayUs_mv (s : State) (n : Nat) : (delayUs n s).mv = s.mv := rfl
@[simp] theorem delayUs_wire (s : State) (n : Nat) : (delayUs n s).wire = s.wire := rfl
@[simp] theorem delayUs_inbox (s : State) (n : Nat) : (delayUs n s).inbox = s.inbox := rfl
@[simp] theorem delayUs_trace (s : State) (n : Nat) : (delayUs n s).trace = .delay n :: s.trace := rfl
@[simp] theorem delayUs_draws (s : State) (n : Nat) : (delayUs n s).draws = s.draws := rfl

/-! `accept` -/

@[simp] theorem State.accept_params (s : State) : s.accept.params = s.params := rfl
@[simp] theorem State.accept_clkDrv (s : State) : s.accept.clkDrv = s.clkDrv := rfl
@[simp] theorem State.accept_dataDrv (s : State) : s.accept.dataDrv = s.dataDrv := rfl
@[simp] theorem State.accept_session (s : State) : s.accept.session = s.session := rfl
@[simp] theorem State.accept_txr (s : State) : s.accept.txr = s.txr := rfl
@[simp] theorem State.accept_rxr (s : State) : s.accept.rxr = s.rxr := rfl
@[simp] theorem State.accept_par (s : State) : s.accept.par = s.par := rfl
@[simp] theorem State.accept_bitcnt (s : State) : s.accept.bitcnt = s.bitcnt := rfl
@[simp] theorem State.accept_ackbit (s : State) : s.accept.ackbit = s.ackbit := rfl
@[simp] theorem State.accept_rxbit (s : State) : s.accept.rxbit = s.rxbit := rfl
@[simp] theorem State.accept_cmdr (s : State) : s.accept.cmdr = s.cmdr := rfl
@[simp] theorem State.accept_ackr (s : State) : s.accept.ackr = s.ackr := rfl
@[simp] theorem State.accept_retry (s : State) : s.accept.retry = s.retry := rfl
@[simp] theorem State.accept_waitcnt (s : State) : s.accept.waitcnt = s.waitcnt := rfl
@[simp] theorem State.accept_rxbuf (s : State) : s.accept.rxbuf = s.rxbuf := rfl
@[simp] theorem State.accept_rxcnt (s : State) : s.accept.rxcnt = s.rxcnt := rfl
@[simp] theorem State.accept_busy (s : State) : s.accept.busy = true := rfl
@[simp] theorem State.accept_ok (s : State) : s.accept.ok = s.ok := rfl
@[simp] theorem State.accept_err (s : State) : s.accept.err = s.err := rfl
@[simp] theorem State.accept_result (s : State) : s.accept.result = s.result := rfl
@[simp] theorem State.accept_phase (s : State) : s.accept.phase = s.phase := rfl
@[simp] theorem State.accept_st (s : State) : s.accept.st = s.st := rfl
@[simp] theorem State.accept_mv (s : State) : s.accept.mv = s.mv := rfl
@[simp] theorem State.accept_wire (s : State) : s.accept.wire = s.wire := rfl
@[simp] theorem State.accept_inbox (s : State) : s.accept.inbox = s.inbox := rfl
@[simp] theorem State.accept_trace (s : State) : s.accept.trace = s.trace := rfl
@[simp] theorem State.accept_draws (s : State) : s.accept.draws = s.draws := rfl

/-! `succeed` -/

@[simp] theorem State.succeed_params (s : State) : s.succeed.params = s.params := rfl
@[simp] theorem State.succeed_clkDrv (s : State) : s.succeed.clkDrv = s.clkDrv := rfl
@[simp] theorem State.succeed_dataDrv (s : State) : s.succeed.dataDrv = s.dataDrv := rfl
@[simp] theorem State.succeed_session (s : State) : s.succeed.session = s.session := rfl
@[simp] theorem State.succeed_txr (s : State) : s.succeed.txr = s.txr := rfl
@[simp] theorem State.succeed_rxr (s : State) : s.succeed.rxr = s.rxr := rfl
@[simp] theorem State.succeed_par (s : State) : s.succeed.par = s.par := rfl
@[simp] theorem State.succeed_bitcnt (s : State) : s.succeed.bitcnt = s.bitcnt := rfl
@[simp] theorem State.succeed_ackbit (s : State) : s.succeed.ackbit = s.ackbit := rfl
@[simp] theorem State.succeed_rxbit (s : State) : s.succeed.rxbit = s.rxbit := rfl
@[simp] theorem State.succeed_cmdr (s : State) : s.succeed.cmdr = s.cmdr := rfl
@[simp] theorem State.succeed_ackr (s : State) : s.succeed.ackr = s.ackr := rfl
@[simp] theorem State.succeed_retry (s : State) : s.succeed.retry = s.retry := rfl
@[simp] theorem State.succeed_waitcnt (s : State) : s.succeed.waitcnt = s.waitcnt := rfl
@[simp] theorem State.succeed_rxbuf (s : State) : s.succeed.rxbuf = s.rxbuf := rfl
@[simp] theorem State.succeed_rxcnt (s : State) : s.succeed.rxcnt = s.rxcnt := rfl
@[simp] theorem State.succeed_busy (s : State) : s.succeed.busy = false := rfl
@[simp] theorem State.succeed_ok (s : State) : s.succeed.ok = true := rfl
@[simp] theorem State.succeed_err (s : State) : s.succeed.err = .none := rfl
@[simp] theorem State.succeed_result (s : State) : s.succeed.result = s.result := rfl
@[simp] theorem State.succeed_phase (s : State) : s.succeed.phase = .idle := rfl
@[simp] theorem State.succeed_st (s : State) : s.succeed.st = s.st := rfl
@[simp] theorem State.succeed_mv (s : State) : s.succeed.mv = s.mv := rfl
@[simp] theorem State.succeed_wire (s : State) : s.succeed.wire = s.wire := rfl
@[simp] theorem State.succeed_inbox (s : State) : s.succeed.inbox = s.inbox := rfl
@[simp] theorem State.succeed_trace (s : State) : s.succeed.trace = s.trace := rfl
@[simp] theorem State.succeed_draws (s : State) : s.succeed.draws = s.draws := rfl

/-! `fail` -/

@[simp] theorem State.fail_params (s : State) (k : ErrKind) : (s.fail k).params = s.params := rfl
@[simp] theorem State.fail_clkDrv (s : State) (k : ErrKind) : (s.fail k).clkDrv = s.clkDrv := rfl
@[simp] theorem State.fail_dataDrv (s : State) (k : ErrKind) : (s.fail k).dataDrv = s.dataDrv := rfl
@[simp] theorem State.fail_session (s : State) (k : ErrKind) : (s.fail k).session = s.session := rfl
@[simp] theorem State.fail_txr (s : State) (k : ErrKind) : (s.fail k).txr = s.txr := rfl
@[simp] theorem State.fail_rxr (s : State) (k : ErrKind) : (s.fail k).rxr = s.rxr := rfl
@[simp] theorem State.fail_par (s : State) (k : ErrKind) : (s.fail k).par = s.par := rfl
@[simp] theorem State.fail_bitcnt (s : State) (k : ErrKind) : (s.fail k).bitcnt = s.bitcnt := rfl
@[simp] theorem State.fail_ackbit (s : State) (k : ErrKind) : (s.fail k).ackbit = s.ackbit := rfl
@[simp] theorem State.fail_rxbit (s : State) (k : ErrKind) : (s.fail k).rxbit = s.rxbit := rfl
@[simp] theorem State.fail_cmdr (s : State) (k : ErrKind) : (s.fail k).cmdr = s.cmdr := rfl
@[simp] theorem State.fail_ackr (s : State) (k : ErrKind) : (s.fail k).ackr = s.ackr := rfl
@[simp] theorem State.fail_retry (s : State) (k : ErrKind) : (s.fail k).retry = s.retry := rfl
@[simp] theorem State.fail_waitcnt (s : State) (k : ErrKind) : (s.fail k).waitcnt = s.waitcnt := rfl
@[simp] theorem State.fail_rxbuf (s : State) (k : ErrKind) : (s.fail k).rxbuf = s.rxbuf := rfl
@[simp] theorem State.fail_rxcnt (s : State) (k : ErrKind) : (s.fail k).rxcnt = s.rxcnt := rfl
@[simp] theorem State.fail_busy (s : State) (k : ErrKind) : (s.fail k).busy = false := rfl
@[simp] theorem State.fail_ok (s : State) (k : ErrKind) : (s.fail k).ok = false := rfl
@[simp] theorem State.fail_err (s : State) (k : ErrKind) : (s.fail k).err = k := rfl
@[simp] theorem State.fail_result (s : State) (k : ErrKind) : (s.fail k).result = s.result := rfl
@[simp] theorem State.fail_phase (s : State) (k : ErrKind) : (s.fail k).phase = .idle := rfl
@[simp] theorem State.fail_st (s : State) (k : ErrKind) : (s.fail k).st = s.st := rfl
@[simp] theorem State.fail_mv (s : State) (k : ErrKind) : (s.fail k).mv = s.mv := rfl
@[simp] theorem State.fail_wire (s : State) (k : ErrKind) : (s.fail k).wire = s.wire := rfl
@[simp] theorem State.fail_inbox (s : State) (k : ErrKind) : (s.fail k).inbox = s.inbox := rfl
@[simp] theorem State.fail_trace (s : State) (k : ErrKind) : (s.fail k).trace = s.trace := rfl
@[simp] theorem State.fail_draws (s : State) (k : ErrKind) : (s.fail k).draws = s.draws := rfl

/-! `hold` -/

@[simp] theorem State.hold_params (s : State) (ph : Phase) : (s.hold ph).params = s.params := rfl
@[simp] theorem State.hold_clkDrv (s : State) (ph : Phase) : (s.hold ph).clkDrv = s.clkDrv := rfl
@[simp] theorem State.hold_dataDrv (s : State) (ph : Phase) : (s.hold ph).dataDrv = s.dataDrv := rfl
@[simp] theorem State.hold_session (s : State) (ph : Phase) : (s.hold ph).session = s.session := rfl
@[simp] theorem State.hold_txr (s : State) (ph : Phase) : (s.hold ph).txr = s.txr := rfl
@[simp] theorem State.hold_rxr (s : State) (ph : Phase) : (s.hold ph).rxr = s.rxr := rfl
@[simp] theorem State.hold_par (s : State) (ph : Phase) : (s.hold ph).par = s.par := rfl
@[simp] theorem State.hold_bitcnt (s : State) (ph : Phase) : (s.hold ph).bitcnt = s.bitcnt := rfl
@[simp] theorem State.hold_ackbit (s : State) (ph : Phase) : (s.hold ph).ackbit = s.ackbit := rfl
@[simp] theorem State.hold_rxbit (s : State) (ph : Phase) : (s.hold ph).rxbit = s.rxbit := rfl
@[simp] theorem State.hold_cmdr (s : State) (ph : Phase) : (s.hold ph).cmdr = s.cmdr := rfl
@[simp] theorem State.hold_ackr (s : State) (ph : Phase) : (s.hold ph).ackr = s.ackr := rfl
@[simp] theorem State.hold_retry (s : State) (ph : Phase) : (s.hold ph).retry = s.retry := rfl
@[simp] theorem State.hold_waitcnt (s : State) (ph : Phase) : (s.hold ph).waitcnt = s.waitcnt := rfl
@[simp] theorem State.hold_rxbuf (s : State) (ph : Phase) : (s.hold ph).rxbuf = s.rxbuf := rfl
@[simp] theorem State.hold_rxcnt (s : State) (ph : Phase) : (s.hold ph).rxcnt = s.rxcnt := rfl
@[simp] theorem State.hold_busy (s : State) (ph : Phase) : (s.hold ph).busy = s.busy := rfl
@[simp] theorem State.hold_ok (s : State) (ph : Phase) : (s.hold ph).ok = s.ok := rfl
@[simp] theorem State.hold_err (s : State) (ph : Phase) : (s.hold ph).err = s.err := rfl
@[simp] theorem State.hold_result (s : State) (ph : Phase) : (s.hold ph).result = s.result := rfl
@[simp] theorem State.hold_phase (s : State) (ph : Phase) : (s.hold ph).phase = ph := rfl
@[simp] theorem State.hold_st (s : State) (ph : Phase) : (s.hold ph).st = s.st := rfl
@[simp] theorem State.hold_mv (s : State) (ph : Phase) : (s.hold ph).mv = s.mv := rfl
@[simp] theorem State.hold_wire (s : State) (ph : Phase) : (s.hold ph).wire = s.wire := rfl
@[simp] theorem State.hold_inbox (s : State) (ph : Phase) : (s.hold ph).inbox = s.inbox := rfl
@[simp] theorem State.hold_trace (s : State) (ph : Phase) : (s.hold ph).trace = s.trace := rfl
@[simp] theorem State.hold_draws (s : State) (ph : Phase) : (s.hold ph).draws = s.draws := rfl

/-! `goOn` -/

@[simp] theorem State.goOn_params (s : State) : s.goOn.params = s.params := rfl
@[simp] theorem State.goOn_clkDrv (s : State) : s.goOn.clkDrv = s.clkDrv := rfl
@[simp] theorem State.goOn_dataDrv (s : State) : s.goOn.dataDrv = s.dataDrv := rfl
@[simp] theorem State.goOn_session (s : State) : s.goOn.session = s.session := rfl
@[simp] theorem State.goOn_txr (s : State) : s.goOn.txr = s.txr := rfl
@[simp] theorem State.goOn_rxr (s : State) : s.goOn.rxr = s.rxr := rfl
@[simp] theorem State.goOn_par (s : State) : s.goOn.par = s.par := rfl
@[simp] theorem State.goOn_bitcnt (s : State) : s.goOn.bitcnt = s.bitcnt := rfl
@[simp] theorem State.goOn_ackbit (s : State) : s.goOn.ackbit = s.ackbit := rfl
@[simp] theorem State.goOn_rxbit (s : State) : s.goOn.rxbit = s.rxbit := rfl
@[simp] theorem State.goOn_cmdr (s : State) : s.goOn.cmdr = s.cmdr := rfl
@[simp] theorem State.goOn_ackr (s : State) : s.goOn.ackr = s.ackr := rfl
@[simp] theorem State.goOn_retry (s : State) : s.goOn.retry = s.retry := rfl
@[simp] theorem State.goOn_waitcnt (s : State) : s.goOn.waitcnt = s.waitcnt := rfl
@[simp] theorem State.goOn_rxbuf (s : State) : s.goOn.rxbuf = s.rxbuf := rfl
@[simp] theorem State.goOn_rxcnt (s : State) : s.goOn.rxcnt = s.rxcnt := rfl
@[simp] theorem State.goOn_busy (s : State) : s.goOn.busy = s.busy := rfl
@[simp] theorem State.goOn_ok (s : State) : s.goOn.ok = s.ok := rfl
@[simp] theorem State.goOn_err (s : State) : s.goOn.err = s.err := rfl
@[simp] theorem State.goOn_result (s : State) : s.goOn.result = s.result := rfl
@[simp] theorem State.goOn_phase (s : State) : s.goOn.phase = .idle := rfl
@[simp] theorem State.goOn_st (s : State) : s.goOn.st = s.st := rfl
@[simp] theorem State.goOn_mv (s : State) : s.goOn.mv = s.mv := rfl
@[simp] theorem State.goOn_wire (s : State) : s.goOn.wire = s.wire := rfl
@[simp] theorem State.goOn_inbox (s : State) : s.goOn.inbox = s.inbox := rfl
@[simp] theorem State.goOn_trace (s : State) : s.goOn.trace = s.trace := rfl
@[simp] theorem State.goOn_draws (s : State) : s.goOn.draws = s.draws := rfl

/-! `more` -/

@[simp] theorem State.more_params (s : State) (w : List Levels) : (s.more w).params = s.params := rfl
@[simp] theorem State.more_clkDrv (s : State) (w : List Levels) : (s.more w).clkDrv = s.clkDrv := rfl
@[simp] theorem State.more_dataDrv (s : State) (w : List Levels) : (s.more w).dataDrv = s.dataDrv := rfl
@[simp] theorem State.more_session (s : State) (w : List Levels) : (s.more w).session = s.session := rfl
@[simp] theorem State.more_txr (s : State) (w : List Levels) : (s.more w).txr = s.txr := rfl
@[simp] theorem State.more_rxr (s : State) (w : List Levels) : (s.more w).rxr = s.rxr := rfl
@[simp] theorem State.more_par (s : State) (w : List Levels) : (s.more w).par = s.par := rfl
@[simp] theorem State.more_bitcnt (s : State) (w : List Levels) : (s.more w).bitcnt = s.bitcnt := rfl
@[simp] theorem State.more_ackbit (s : State) (w : List Levels) : (s.more w).ackbit = s.ackbit := rfl
@[simp] theorem State.more_rxbit (s : State) (w : List Levels) : (s.more w).rxbit = s.rxbit := rfl
@[simp] theorem State.more_cmdr (s : State) (w : List Levels) : (s.more w).cmdr = s.cmdr := rfl
@[simp] theorem State.more_ackr (s : State) (w : List Levels) : (s.more w).ackr = s.ackr := rfl
@[simp] theorem State.more_retry (s : State) (w : List Levels) : (s.more w).retry = s.retry := rfl
@[simp] theorem State.more_waitcnt (s : State) (w : List Levels) : (s.more w).waitcnt = s.waitcnt := rfl
@[simp] theorem State.more_rxbuf (s : State) (w : List Levels) : (s.more w).rxbuf = s.rxbuf := rfl
@[simp] theorem State.more_rxcnt (s : State) (w : List Levels) : (s.more w).rxcnt = s.rxcnt := rfl
@[simp] theorem State.more_busy (s : State) (w : List Levels) : (s.more w).busy = s.busy := rfl
@[simp] theorem State.more_ok (s : State) (w : List Levels) : (s.more w).ok = s.ok := rfl
@[simp] theorem State.more_err (s : State) (w : List Levels) : (s.more w).err = s.err := rfl
@[simp] theorem State.more_result (s : State) (w : List Levels) : (s.more w).result = s.result := rfl
@[simp] theorem State.more_phase (s : State) (w : List Levels) : (s.more w).phase = s.phase := rfl
@[simp] theorem State.more_st (s : State) (w : List Levels) : (s.more w).st = s.st := rfl
@[simp] theorem State.more_mv (s : State) (w : List Levels) : (s.more w).mv = s.mv := rfl
@[simp] theorem State.more_wire (s : State) (w : List Levels) : (s.more w).wire = s.wire ++ w := rfl
@[simp] theorem State.more_inbox (s : State) (w : List Levels) : (s.more w).inbox = s.inbox := rfl
@[simp] theorem State.more_trace (s : State) (w : List Levels) : (s.more w).trace = s.trace := rfl
@[simp] theorem State.more_draws (s : State) (w : List Levels) : (s.more w).draws = s.draws := rfl

/-! `resultBit` -/

@[simp] theorem resultBit_params (s : State) (b : Bool) : (resultBit b s).params = s.params := rfl
@[simp] theorem resultBit_clkDrv (s : State) (b : Bool) : (resultBit b s).clkDrv = s.clkDrv := rfl
@[simp] theorem resultBit_dataDrv (s : State) (b : Bool) : (resultBit b s).dataDrv = s.dataDrv := rfl
@[simp] theorem resultBit_session (s : State) (b : Bool) : (resultBit b s).session = s.session := rfl
@[simp] theorem resultBit_txr (s : State) (b : Bool) : (resultBit b s).txr = s.txr := rfl
@[simp] theorem resultBit_rxr (s : State) (b : Bool) : (resultBit b s).rxr = s.rxr := rfl
@[simp] theorem resultBit_par (s : State) (b : Bool) : (resultBit b s).par = s.par := rfl
@[simp] theorem resultBit_bitcnt (s : State) (b : Bool) : (resultBit b s).bitcnt = s.bitcnt := rfl
@[simp] theorem resultBit_ackbit (s : State) (b : Bool) : (resultBit b s).ackbit = s.ackbit := rfl
@[simp] theorem resultBit_rxbit (s : State) (b : Bool) : (resultBit b s).rxbit = s.rxbit := rfl
@[simp] theorem resultBit_cmdr (s : State) (b : Bool) : (resultBit b s).cmdr = s.cmdr := rfl
@[simp] theorem resultBit_ackr (s : State) (b : Bool) : (resultBit b s).ackr = s.ackr := rfl
@[simp] theorem resultBit_retry (s : State) (b : Bool) : (resultBit b s).retry = s.retry := rfl
@[simp] theorem resultBit_waitcnt (s : State) (b : Bool) : (resultBit b s).waitcnt = s.waitcnt := rfl
@[simp] theorem resultBit_rxbuf (s : State) (b : Bool) : (resultBit b s).rxbuf = s.rxbuf := rfl
@[simp] theorem resultBit_rxcnt (s : State) (b : Bool) : (resultBit b s).rxcnt = s.rxcnt := rfl
@[simp] theorem resultBit_busy (s : State) (b : Bool) : (resultBit b s).busy = s.busy := rfl
@[simp] theorem resultBit_ok (s : State) (b : Bool) : (resultBit b s).ok = s.ok := rfl
@[simp] theorem resultBit_err (s : State) (b : Bool) : (resultBit b s).err = s.err := rfl
@[simp] theorem resultBit_result (s : State) (b : Bool) : (resultBit b s).result = zext8 b := rfl
@[simp] theorem resultBit_phase (s : State) (b : Bool) : (resultBit b s).phase = s.phase := rfl
@[simp] theorem resultBit_st (s : State) (b : Bool) : (resultBit b s).st = s.st := rfl
@[simp] theorem resultBit_mv (s : State) (b : Bool) : (resultBit b s).mv = s.mv := rfl
@[simp] theorem resultBit_wire (s : State) (b : Bool) : (resultBit b s).wire = s.wire := rfl
@[simp] theorem resultBit_inbox (s : State) (b : Bool) : (resultBit b s).inbox = s.inbox := rfl
@[simp] theorem resultBit_trace (s : State) (b : Bool) : (resultBit b s).trace = s.trace := rfl
@[simp] theorem resultBit_draws (s : State) (b : Bool) : (resultBit b s).draws = s.draws := rfl

/-! `resultByte` -/

@[simp] theorem resultByte_params (s : State) (v : Byte) : (resultByte v s).params = s.params := rfl
@[simp] theorem resultByte_clkDrv (s : State) (v : Byte) : (resultByte v s).clkDrv = s.clkDrv := rfl
@[simp] theorem resultByte_dataDrv (s : State) (v : Byte) : (resultByte v s).dataDrv = s.dataDrv := rfl
@[simp] theorem resultByte_session (s : State) (v : Byte) : (resultByte v s).session = s.session := rfl
@[simp] theorem resultByte_txr (s : State) (v : Byte) : (resultByte v s).txr = s.txr := rfl
@[simp] theorem resultByte_rxr (s : State) (v : Byte) : (resultByte v s).rxr = s.rxr := rfl
@[simp] theorem resultByte_par (s : State) (v : Byte) : (resultByte v s).par = s.par := rfl
@[simp] theorem resultByte_bitcnt (s : State) (v : Byte) : (resultByte v s).bitcnt = s.bitcnt := rfl
@[simp] theorem resultByte_ackbit (s : State) (v : Byte) : (resultByte v s).ackbit = s.ackbit := rfl
@[simp] theorem resultByte_rxbit (s : State) (v : Byte) : (resultByte v s).rxbit = s.rxbit := rfl
@[simp] theorem resultByte_cmdr (s : State) (v : Byte) : (resultByte v s).cmdr = s.cmdr := rfl
@[simp] theorem resultByte_ackr (s : State) (v : Byte) : (resultByte v s).ackr = s.ackr := rfl
@[simp] theorem resultByte_retry (s : State) (v : Byte) : (resultByte v s).retry = s.retry := rfl
@[simp] theorem resultByte_waitcnt (s : State) (v : Byte) : (resultByte v s).waitcnt = s.waitcnt := rfl
@[simp] theorem resultByte_rxbuf (s : State) (v : Byte) : (resultByte v s).rxbuf = s.rxbuf := rfl
@[simp] theorem resultByte_rxcnt (s : State) (v : Byte) : (resultByte v s).rxcnt = s.rxcnt := rfl
@[simp] theorem resultByte_busy (s : State) (v : Byte) : (resultByte v s).busy = s.busy := rfl
@[simp] theorem resultByte_ok (s : State) (v : Byte) : (resultByte v s).ok = s.ok := rfl
@[simp] theorem resultByte_err (s : State) (v : Byte) : (resultByte v s).err = s.err := rfl
@[simp] theorem resultByte_result (s : State) (v : Byte) : (resultByte v s).result = v := rfl
@[simp] theorem resultByte_phase (s : State) (v : Byte) : (resultByte v s).phase = s.phase := rfl
@[simp] theorem resultByte_st (s : State) (v : Byte) : (resultByte v s).st = s.st := rfl
@[simp] theorem resultByte_mv (s : State) (v : Byte) : (resultByte v s).mv = s.mv := rfl
@[simp] theorem resultByte_wire (s : State) (v : Byte) : (resultByte v s).wire = s.wire := rfl
@[simp] theorem resultByte_inbox (s : State) (v : Byte) : (resultByte v s).inbox = s.inbox := rfl
@[simp] theorem resultByte_trace (s : State) (v : Byte) : (resultByte v s).trace = s.trace := rfl
@[simp] theorem resultByte_draws (s : State) (v : Byte) : (resultByte v s).draws = s.draws := rfl

/-! `present` -/

@[simp] theorem State.present_params (s : State) (it : Item) : (s.present it).params = s.params := rfl
@[simp] theorem State.present_clkDrv (s : State) (it : Item) : (s.present it).clkDrv = s.clkDrv := rfl
@[simp] theorem State.present_dataDrv (s : State) (it : Item) : (s.present it).dataDrv = s.dataDrv := rfl
@[simp] theorem State.present_session (s : State) (it : Item) : (s.present it).session = s.session := rfl
@[simp] theorem State.present_txr (s : State) (it : Item) : (s.present it).txr = s.txr := rfl
@[simp] theorem State.present_rxr (s : State) (it : Item) : (s.present it).rxr = s.rxr := rfl
@[simp] theorem State.present_par (s : State) (it : Item) : (s.present it).par = s.par := rfl
@[simp] theorem State.present_bitcnt (s : State) (it : Item) : (s.present it).bitcnt = s.bitcnt := rfl
@[simp] theorem State.present_ackbit (s : State) (it : Item) : (s.present it).ackbit = s.ackbit := rfl
@[simp] theorem State.present_rxbit (s : State) (it : Item) : (s.present it).rxbit = s.rxbit := rfl
@[simp] theorem State.present_cmdr (s : State) (it : Item) : (s.present it).cmdr = s.cmdr := rfl
@[simp] theorem State.present_ackr (s : State) (it : Item) : (s.present it).ackr = s.ackr := rfl
@[simp] theorem State.present_retry (s : State) (it : Item) : (s.present it).retry = s.retry := rfl
@[simp] theorem State.present_waitcnt (s : State) (it : Item) : (s.present it).waitcnt = s.waitcnt := rfl
@[simp] theorem State.present_rxbuf (s : State) (it : Item) : (s.present it).rxbuf = s.rxbuf := rfl
@[simp] theorem State.present_rxcnt (s : State) (it : Item) : (s.present it).rxcnt = s.rxcnt := rfl
@[simp] theorem State.present_busy (s : State) (it : Item) : (s.present it).busy = s.busy := rfl
@[simp] theorem State.present_ok (s : State) (it : Item) : (s.present it).ok = s.ok := rfl
@[simp] theorem State.present_err (s : State) (it : Item) : (s.present it).err = s.err := rfl
@[simp] theorem State.present_result (s : State) (it : Item) : (s.present it).result = s.result := rfl
@[simp] theorem State.present_phase (s : State) (it : Item) : (s.present it).phase = s.phase := rfl
@[simp] theorem State.present_st (s : State) (it : Item) : (s.present it).st = s.st := rfl
@[simp] theorem State.present_mv (s : State) (it : Item) : (s.present it).mv = s.mv := rfl
@[simp] theorem State.present_wire (s : State) (it : Item) : (s.present it).wire = s.wire := rfl
@[simp] theorem State.present_inbox (s : State) (it : Item) : (s.present it).inbox = it :: s.inbox := rfl
@[simp] theorem State.present_trace (s : State) (it : Item) : (s.present it).trace = s.trace := rfl
@[simp] theorem State.present_draws (s : State) (it : Item) : (s.present it).draws = s.draws := rfl

/-! `nextCell` -/

@[simp] theorem nextCell_params (s : State) : (nextCell s).params = s.params := rfl
@[simp] theorem nextCell_clkDrv (s : State) : (nextCell s).clkDrv = s.clkDrv := rfl
@[simp] theorem nextCell_dataDrv (s : State) : (nextCell s).dataDrv = s.dataDrv := rfl
@[simp] theorem nextCell_session (s : State) : (nextCell s).session = s.session := rfl
@[simp] theorem nextCell_txr (s : State) : (nextCell s).txr = s.txr := rfl
@[simp] theorem nextCell_rxr (s : State) : (nextCell s).rxr = s.rxr := rfl
@[simp] theorem nextCell_par (s : State) : (nextCell s).par = s.par := rfl
@[simp] theorem nextCell_bitcnt (s : State) : (nextCell s).bitcnt = s.bitcnt + 1 := rfl
@[simp] theorem nextCell_ackbit (s : State) : (nextCell s).ackbit = s.ackbit := rfl
@[simp] theorem nextCell_rxbit (s : State) : (nextCell s).rxbit = s.rxbit := rfl
@[simp] theorem nextCell_cmdr (s : State) : (nextCell s).cmdr = s.cmdr := rfl
@[simp] theorem nextCell_ackr (s : State) : (nextCell s).ackr = s.ackr := rfl
@[simp] theorem nextCell_retry (s : State) : (nextCell s).retry = s.retry := rfl
@[simp] theorem nextCell_waitcnt (s : State) : (nextCell s).waitcnt = s.waitcnt := rfl
@[simp] theorem nextCell_rxbuf (s : State) : (nextCell s).rxbuf = s.rxbuf := rfl
@[simp] theorem nextCell_rxcnt (s : State) : (nextCell s).rxcnt = s.rxcnt := rfl
@[simp] theorem nextCell_busy (s : State) : (nextCell s).busy = s.busy := rfl
@[simp] theorem nextCell_ok (s : State) : (nextCell s).ok = s.ok := rfl
@[simp] theorem nextCell_err (s : State) : (nextCell s).err = s.err := rfl
@[simp] theorem nextCell_result (s : State) : (nextCell s).result = s.result := rfl
@[simp] theorem nextCell_phase (s : State) : (nextCell s).phase = s.phase := rfl
@[simp] theorem nextCell_st (s : State) : (nextCell s).st = s.st := rfl
@[simp] theorem nextCell_mv (s : State) : (nextCell s).mv = s.mv := rfl
@[simp] theorem nextCell_wire (s : State) : (nextCell s).wire = s.wire := rfl
@[simp] theorem nextCell_inbox (s : State) : (nextCell s).inbox = s.inbox := rfl
@[simp] theorem nextCell_trace (s : State) : (nextCell s).trace = s.trace := rfl
@[simp] theorem nextCell_draws (s : State) : (nextCell s).draws = s.draws := rfl

/-! `restoreSession` -/

@[simp] theorem restoreSession_params (s : State) (s0 : Session) : (restoreSession s0 s).params = s.params := rfl
@[simp] theorem restoreSession_clkDrv (s : State) (s0 : Session) : (restoreSession s0 s).clkDrv = s.clkDrv := rfl
@[simp] theorem restoreSession_dataDrv (s : State) (s0 : Session) : (restoreSession s0 s).dataDrv = s.dataDrv := rfl
@[simp] theorem restoreSession_session (s : State) (s0 : Session) : (restoreSession s0 s).session = s0 := rfl
@[simp] theorem restoreSession_txr (s : State) (s0 : Session) : (restoreSession s0 s).txr = s.txr := rfl
@[simp] theorem restoreSession_rxr (s : State) (s0 : Session) : (restoreSession s0 s).rxr = s.rxr := rfl
@[simp] theorem restoreSession_par (s : State) (s0 : Session) : (restoreSession s0 s).par = s.par := rfl
@[simp] theorem restoreSession_bitcnt (s : State) (s0 : Session) : (restoreSession s0 s).bitcnt = s.bitcnt := rfl
@[simp] theorem restoreSession_ackbit (s : State) (s0 : Session) : (restoreSession s0 s).ackbit = s.ackbit := rfl
@[simp] theorem restoreSession_rxbit (s : State) (s0 : Session) : (restoreSession s0 s).rxbit = s.rxbit := rfl
@[simp] theorem restoreSession_cmdr (s : State) (s0 : Session) : (restoreSession s0 s).cmdr = s.cmdr := rfl
@[simp] theorem restoreSession_ackr (s : State) (s0 : Session) : (restoreSession s0 s).ackr = s.ackr := rfl
@[simp] theorem restoreSession_retry (s : State) (s0 : Session) : (restoreSession s0 s).retry = s.retry := rfl
@[simp] theorem restoreSession_waitcnt (s : State) (s0 : Session) : (restoreSession s0 s).waitcnt = s.waitcnt := rfl
@[simp] theorem restoreSession_rxbuf (s : State) (s0 : Session) : (restoreSession s0 s).rxbuf = s.rxbuf := rfl
@[simp] theorem restoreSession_rxcnt (s : State) (s0 : Session) : (restoreSession s0 s).rxcnt = s.rxcnt := rfl
@[simp] theorem restoreSession_busy (s : State) (s0 : Session) : (restoreSession s0 s).busy = s.busy := rfl
@[simp] theorem restoreSession_ok (s : State) (s0 : Session) : (restoreSession s0 s).ok = s.ok := rfl
@[simp] theorem restoreSession_err (s : State) (s0 : Session) : (restoreSession s0 s).err = s.err := rfl
@[simp] theorem restoreSession_result (s : State) (s0 : Session) : (restoreSession s0 s).result = s.result := rfl
@[simp] theorem restoreSession_phase (s : State) (s0 : Session) : (restoreSession s0 s).phase = s.phase := rfl
@[simp] theorem restoreSession_st (s : State) (s0 : Session) : (restoreSession s0 s).st = s.st := rfl
@[simp] theorem restoreSession_mv (s : State) (s0 : Session) : (restoreSession s0 s).mv = s.mv := rfl
@[simp] theorem restoreSession_wire (s : State) (s0 : Session) : (restoreSession s0 s).wire = s.wire := rfl
@[simp] theorem restoreSession_inbox (s : State) (s0 : Session) : (restoreSession s0 s).inbox = s.inbox := rfl
@[simp] theorem restoreSession_trace (s : State) (s0 : Session) : (restoreSession s0 s).trace = s.trace := rfl
@[simp] theorem restoreSession_draws (s : State) (s0 : Session) : (restoreSession s0 s).draws = s.draws := rfl

end Sys2Proof.Machine
end

