-- ==== Sys2Proof/Laws/Run.lean ====
section
/-! SUPPORT. The lemmas of `Run`, of the end of an operation, and of `Emits`. -/

namespace Sys2Proof.Machine

variable {φ ψ α β : Type}

@[simp] theorem Run.within_done (v : α) (s : State) (wrap : φ → ψ) (k : α → State → Run ψ β) :
    (Run.done v s : Run φ α).within wrap k = k v s := rfl

@[simp] theorem Run.within_raised (e : ErrKind) (s : State) (wrap : φ → ψ) (k : α → State → Run ψ β) :
    (Run.raised e s : Run φ α).within wrap k = .raised e s := rfl

@[simp] theorem Run.within_waiting (ph : φ) (s : State) (wrap : φ → ψ) (k : α → State → Run ψ β) :
    (Run.waiting ph s : Run φ α).within wrap k = .waiting (wrap ph) s := rfl

@[simp] theorem Run.onRaise_done (v : α) (s : State) (f : State → State) :
    (Run.done v s : Run φ α).onRaise f = .done v s := rfl

@[simp] theorem Run.onRaise_raised (e : ErrKind) (s : State) (f : State → State) :
    (Run.raised e s : Run φ α).onRaise f = .raised e (f s) := rfl

@[simp] theorem Run.onRaise_waiting (ph : φ) (s : State) (f : State → State) :
    (Run.waiting ph s : Run φ α).onRaise f = .waiting ph s := rfl

@[simp] theorem conclude_done (v : α) (s : State) (wrap : φ → Phase) (out : α → State → State) :
    conclude (.done v s : Run φ α) wrap out = (out v s).succeed := rfl

@[simp] theorem conclude_raised (e : ErrKind) (s : State) (wrap : φ → Phase) (out : α → State → State) :
    conclude (.raised e s : Run φ α) wrap out = s.fail e := rfl

@[simp] theorem conclude_waiting (ph : φ) (s : State) (wrap : φ → Phase) (out : α → State → State) :
    conclude (.waiting ph s : Run φ α) wrap out = s.hold (wrap ph) := rfl

theorem request_idle {op : State → State} {s : State} (h : s.busy = false) : request op s = .next (op s.accept) := by
  simp [request, h]

theorem request_busy {op : State → State} {s : State} (h : s.busy = true) : request op s = .next s := by
  simp [request, h]

/-! `Emits` -/

theorem Emits.refl (s : State) : Emits s s 0 [] := ⟨[], rfl, rfl, rfl⟩

theorem Emits.of_trace {s t : State} (h : t.trace = s.trace) : Emits s t 0 [] := ⟨[], h, rfl, rfl⟩

theorem Emits.output {s t : State} {e : Event} (he : e.isOutput = true) (h : t.trace = e :: s.trace) : Emits s t 0 [e] :=
  ⟨[e], h, by simp [he], rfl⟩

theorem Emits.trans {s t u : State} {m n : Nat} {os ps : List Event} (h : Emits s t m os) (g : Emits t u n ps) :
    Emits s u (m + n) (os ++ ps) := by
  obtain ⟨a, ha, hao, hal⟩ := h
  obtain ⟨b, hb, hbo, hbl⟩ := g
  refine ⟨b ++ a, by rw [hb, ha, List.append_assoc], ?_, by simp [hal, hbl]; omega⟩
  rw [List.reverse_append, List.filter_append, hao, hbo]

/-- `Emits` reads only the traces. -/
theorem Emits.congr {s t s' t' : State} {n : Nat} {os : List Event} (h : Emits s t n os) (hs : s'.trace = s.trace)
    (ht : t'.trace = t.trace) : Emits s' t' n os := by
  obtain ⟨a, ha, hao, hal⟩ := h
  exact ⟨a, by rw [ht, hs, ha], hao, hal⟩

theorem Emits.congr_out {s t : State} {m n : Nat} {os ps : List Event} (h : Emits s t m os) (hn : m = n) (ho : os = ps) :
    Emits s t n ps := hn ▸ ho ▸ h

@[simp] theorem clockReads_nil : clockReads [] = [] := rfl

@[simp] theorem clockReads_append (v w : List Levels) : clockReads (v ++ w) = clockReads w ++ clockReads v := by
  simp [clockReads]

@[simp] theorem clockReads_cons (l : Levels) (w : List Levels) :
    clockReads (l :: w) = clockReads w ++ [Event.read .clk l.clk] := by simp [clockReads]

@[simp] theorem clockReads_length (w : List Levels) : (clockReads w).length = w.length := by simp [clockReads]

theorem clockReads_silent (w : List Levels) : (clockReads w).reverse.filter Event.isOutput = [] := by
  rw [List.filter_eq_nil_iff]
  intro e he
  obtain ⟨l, -, rfl⟩ := List.mem_map.1 (by simpa [clockReads] using he : e ∈ w.map fun l => Event.read .clk l.clk)
  simp [Event.isOutput]

theorem Emits.clock {s t : State} {w : List Levels} (h : t.trace = clockReads w ++ s.trace) : Emits s t w.length [] :=
  ⟨clockReads w, h, clockReads_silent w, by simp⟩

end Sys2Proof.Machine
end

