-- ==== Sys2Proof/Laws/Bits.lean ====
section
/-! SUPPORT. Bit Transport: WAITCLK, SENDBIT and RECVBIT on answers that let them return. -/

namespace Sys2Proof.Machine

/-- The snapshots before the last are the samples a wait counts (R90). -/
theorem waitLoop_spin {level : Bool} {last : Levels} (hlast : last.clk = level) (rest : List Levels) :
    ∀ (spin : List Levels) (s : State), (∀ l ∈ spin, l.clk = !level) →
      (∀ n, s.params.waitLimit = some n → spin ≠ [] → s.waitcnt + spin.length < n) →
      waitLoop level (spin ++ last :: rest) s =
        .done () { s with wire := rest, waitcnt := s.waitcnt + spin.length, trace := clockReads (spin ++ [last]) ++ s.trace }
  | [], s, _, _ => by simp [waitLoop, hlast, State.took, Levels.at]
  | l :: spin, s, hspin, hlim => by
    have hl : l.clk ≠ level := by rw [hspin l (by simp)]; cases level <;> simp
    have hex : waitExpired { s.took .clk l (spin ++ last :: rest) with waitcnt := s.waitcnt + 1 } = false := by
      unfold waitExpired
      simp only [State.took_params]
      cases h : s.params.waitLimit with
      | none => rfl
      | some n =>
        have := hlim n h (by simp)
        simp only [List.length_cons] at this
        simp; omega
    rw [List.cons_append, waitLoop, if_neg hl, hex]
    simp only [Bool.false_eq_true, if_false]
    rw [waitLoop_spin hlast rest spin _ (fun x hx => hspin x (by simp [hx]))
      (fun n hn _ => by have := hlim n hn (by simp); simp only [List.length_cons] at this; show s.waitcnt + 1 + spin.length < n; omega)]
    simp [State.took, Levels.at, Nat.add_comm, Nat.add_left_comm]

/-- WAITCLK returns after the samples of `w`, with `WAITCNT` the number that did not match (R90). -/
theorem waitClk_done {level : Bool} {w rest : List Levels} {s : State} (hw : WaitAnswers s.params.waitLimit level w)
    (hs : s.wire = w ++ rest) :
    waitClk level s = .done () { s with wire := rest, waitcnt := w.length - 1, trace := clockReads w ++ s.trace } := by
  obtain ⟨spin, last, rfl, ⟨hspin, hlim⟩, hlast⟩ := hw
  rw [List.append_assoc, List.singleton_append] at hs
  simp only [waitClk, waitMore, hs]
  rw [waitLoop_spin hlast rest spin { s with waitcnt := 0, wire := spin ++ last :: rest } hspin
    (fun n hn hne => by have := hlim n hn hne; simpa using this)]
  simp

/-- SENDBIT(`b`) returns with the data line driven to `b` (R91). -/
theorem sendBit_done {b : Bool} {low high rest : List Levels} {s : State}
    (hlow : WaitAnswers s.params.waitLimit false low) (hhigh : WaitAnswers s.params.waitLimit true high)
    (hs : s.wire = low ++ (high ++ rest)) :
    sendBit b s =
      .done () { s with dataDrv := driveOf b, wire := rest, waitcnt := high.length - 1,
                        trace := clockReads high ++ .set .data (driveOf b) :: (clockReads low ++ s.trace) } := by
  rw [sendBit, waitClk_done hlow hs]
  simp only [Run.within_done, sendBitDrive]
  rw [waitClk_done (w := high) (rest := rest) (by simpa [pinSet] using hhigh) (by simp [pinSet])]
  simp [pinSet]

/-- RECVBIT returns the sample of the data line taken directly after the clock was seen low (R92). -/
theorem recvBit_done {low high rest : List Levels} {sample : Levels} {s : State}
    (hlow : WaitAnswers s.params.waitLimit false low) (hhigh : WaitAnswers s.params.waitLimit true high)
    (hs : s.wire = low ++ (sample :: (high ++ rest))) :
    recvBit s =
      .done sample.data { s with rxbit := sample.data, wire := rest, waitcnt := high.length - 1,
                                 trace := clockReads high ++ .read .data sample.data :: (clockReads low ++ s.trace) } := by
  rw [recvBit, waitClk_done hlow hs]
  simp only [Run.within_done, recvBitSample, pinRead]
  rw [recvBitHigh, waitClk_done (w := high) (rest := rest) (by simpa [State.took] using hhigh) (by simp [State.took])]
  simp [State.took, Levels.at]

/-- SENDBIT in the form the frames use: one output, the rest of the state as it was. -/
theorem sendBit_cell {b : Bool} {w rest : List Levels} {s : State} (hw : DriveAnswers s.params.waitLimit w)
    (hs : s.wire = w ++ rest) :
    ∃ t, sendBit b s = .done () t ∧ Emits s t w.length [.set .data (driveOf b)] ∧
      t = { s with dataDrv := driveOf b, wire := rest, trace := t.trace, waitcnt := t.waitcnt } := by
  obtain ⟨low, high, rfl, hlow, hhigh⟩ := hw
  refine ⟨_, sendBit_done hlow hhigh (by simpa using hs), ?_, rfl⟩
  refine ⟨clockReads high ++ .set .data (driveOf b) :: clockReads low, by simp, ?_, by simp; omega⟩
  simp only [List.reverse_append, List.reverse_cons, List.filter_append, clockReads_silent, List.nil_append, List.append_nil]
  rfl

/-- RECVBIT in the form the frames use: no output, the rest of the state as it was. -/
theorem recvBit_cell {d : Bool} {w rest : List Levels} {s : State} (hw : SampleAnswers s.params.waitLimit d w)
    (hs : s.wire = w ++ rest) :
    ∃ t, recvBit s = .done d t ∧ Emits s t w.length [] ∧
      t = { s with rxbit := d, wire := rest, trace := t.trace, waitcnt := t.waitcnt } := by
  obtain ⟨low, sample, high, rfl, hlow, rfl, hhigh⟩ := hw
  refine ⟨_, recvBit_done hlow hhigh (by simpa using hs), ?_, rfl⟩
  refine ⟨clockReads high ++ .read .data sample.data :: clockReads low, by simp, ?_, by simp; omega⟩
  simp only [List.reverse_append, List.reverse_cons, List.filter_append, clockReads_silent, List.nil_append, List.append_nil]
  rfl

/-! The least clocking -/

/-- A cell received with the least clocking (R92's minimal trace). -/
theorem recvBit_receiveCell {d : Bool} {rest : List Levels} {s : State} (hs : s.wire = receiveCell d ++ rest) :
    recvBit s = .done d { s with rxbit := d, wire := rest, waitcnt := 0,
                                 trace := [.read .clk true, .read .data d, .read .clk false] ++ s.trace } := by
  simp only [receiveCell, List.cons_append, List.nil_append] at hs
  simp [recvBit, recvBitSample, recvBitHigh, waitClk, waitMore, waitLoop, pinRead, hs, State.took, Levels.at]

/-- Going on with a RECVBIT from its first wait, where the clock is seen low at once, is a RECVBIT from there. -/
theorem resumeRecvBit_receiveCell {d : Bool} {rest : List Levels} {s : State} (hs : s.wire = receiveCell d ++ rest) :
    resumeRecvBit .waitLow s = recvBit s := by
  rw [recvBit_receiveCell hs]
  simp only [receiveCell, List.cons_append, List.nil_append] at hs
  simp [resumeRecvBit, recvBitSample, recvBitHigh, waitClk, waitMore, waitLoop, pinRead, hs, State.took, Levels.at]

/-- Going on with a SENDBIT from its first wait, where the clock is seen low at once, is a SENDBIT from there. -/
theorem resumeSendBit_driveCell {b : Bool} {rest : List Levels} {s : State} (hs : s.wire = driveCell ++ rest) :
    resumeSendBit (.waitLow b) s = sendBit b s := by
  simp only [driveCell, List.cons_append, List.nil_append] at hs
  simp [resumeSendBit, sendBit, sendBitDrive, waitClk, waitMore, waitLoop, hs, State.took, Levels.at, pinSet]

theorem waitAnswers_one (lim : Option Nat) {level : Bool} {l : Levels} (h : l.clk = level) : WaitAnswers lim level [l] :=
  ⟨[], l, rfl, ⟨by simp, fun _ _ hne => absurd rfl hne⟩, h⟩

theorem driveCell_answers (lim : Option Nat) : DriveAnswers lim driveCell :=
  ⟨[{ clk := false, data := true }], [{ clk := true, data := true }], rfl, waitAnswers_one lim rfl, waitAnswers_one lim rfl⟩

theorem receiveCell_answers (lim : Option Nat) (d : Bool) : SampleAnswers lim d (receiveCell d) :=
  ⟨[{ clk := false, data := d }], { clk := false, data := d }, [{ clk := true, data := d }], rfl, waitAnswers_one lim rfl, rfl,
    waitAnswers_one lim rfl⟩

theorem driveCells_answers (lim : Option Nat) : ∀ n : Nat, DriveCells lim n (List.replicate n driveCell).flatten
  | 0 => rfl
  | n + 1 => ⟨driveCell, _, by simp [List.replicate_succ], driveCell_answers lim, driveCells_answers lim n⟩

theorem receiveCells_answers (lim : Option Nat) : ∀ ds : List Bool, SampleCells lim ds (ds.map receiveCell).flatten
  | [] => rfl
  | d :: ds => ⟨receiveCell d, _, by simp, receiveCell_answers lim d, receiveCells_answers lim ds⟩

/-- The least clocking of a FRAME_TX is one of the device's sides of it (R61). -/
theorem frameTxLevels_answers (lim : Option Nat) (a : Bool) : TxAnswers lim a (frameTxLevels a) :=
  ⟨_, _, rfl, driveCells_answers lim 10, receiveCell_answers lim a⟩

/-- The least clocking of a FRAME_RX is one that carries it (R62). -/
theorem frameRxLevels_answers (lim : Option Nat) (v : Byte) (p t : Bool) : RxAnswers lim v p t (frameRxLevels v p t) :=
  receiveCells_answers lim (false :: (dataBits v ++ [p, t]))

/-- A well-formed frame passes whichever checks are enabled (R107, R108). -/
theorem goodFrame_answers (params : Params) (v : Byte) : ByteAnswers params v true (goodFrame v) :=
  ⟨oddParity v, frameRxLevels_answers params.waitLimit v (oddParity v) true, fun _ => rfl, fun _ => rfl⟩

/-! The least clocking of exchanges and records -/

/-- The answers of one exchange that the device answers `r` (R64). -/
def exchangeLevels (r : Byte) : List Levels := frameTxLevels false ++ goodFrame r

/-- The answers of `k` exchanges answered `resend`. -/
def resendLevels (k : Nat) : List Levels := (List.replicate k (exchangeLevels ResponseCode.resend.code)).flatten

/-- The answers of a SENDACKED acknowledged after `k` resends. -/
def ackedLevels (k : Nat) : List Levels := resendLevels k ++ exchangeLevels ResponseCode.ack.code

/-- The answers of a RECV3 that receives `r`. -/
def recordLevels (r : Record) : List Levels := goodFrame r.b0 ++ (goodFrame r.b1 ++ goodFrame r.b2)

theorem exchangeLevels_answers (params : Params) (r : Byte) : ExchangeAnswers params r true (exchangeLevels r) :=
  ⟨_, _, rfl, frameTxLevels_answers _ _, goodFrame_answers _ _⟩

theorem resendLevels_answers (params : Params) : ∀ k : Nat, ResendAnswers params k (resendLevels k)
  | 0 => rfl
  | k + 1 => ⟨true, exchangeLevels ResponseCode.resend.code, resendLevels k, by simp [resendLevels, List.replicate_succ],
      exchangeLevels_answers params _, resendLevels_answers params k⟩

theorem ackedLevels_answers (params : Params) {k : Nat} (h : ∀ n, params.resendLimit = some n → k ≤ n) :
    AckedAnswers params k true (ackedLevels k) :=
  ⟨_, _, rfl, resendLevels_answers params k, exchangeLevels_answers params _, h⟩

theorem recordLevels_answers (params : Params) (r : Record) : RecordAnswers params r true (recordLevels r) :=
  ⟨_, _, _, true, true, rfl, goodFrame_answers _ _, goodFrame_answers _ _, goodFrame_answers _ _⟩

end Sys2Proof.Machine
end

