-- ==== Sys2Proof/Laws/Bytes.lean ====
section
/-! SUPPORT. Byte Framer: parity, SENDBYTE and RECVBYTE on answers that carry a frame. -/

namespace Sys2Proof.Machine

/-- The accumulator after the first `k` data bits of `v` (R17). -/
def parityUpto (v : Byte) (k : Nat) : Bool := (List.range k).foldl (fun par i => parityStep par (v.getLsbD i)) parityStart

theorem parityUpto_succ (v : Byte) (k : Nat) : parityUpto v (k + 1) = parityStep (parityUpto v k) (v.getLsbD k) := by
  simp [parityUpto, List.range_succ]

theorem parityUpto_eight (v : Byte) : parityUpto v 8 = oddParity v := rfl

/-- The parity that the encodings require of a frame is the one the accumulator reaches (R61, R63). -/
theorem frameParity_eq_oddParity (v : Byte) : frameParity v = oddParity v := by
  simp [frameParity, oddParity, parityStep, parityStart, List.range_succ]

theorem drivenBits_length (v : Byte) : (drivenBits v).length = 10 := by simp [drivenBits, dataBits]

/-- The bit that SENDBYTE puts in its cell, where the accumulator stands as it should (R100). -/
theorem sendCellBit_eq {s : State} {c : Nat} (hc : c < 10) (hb : s.bitcnt = BitVec.ofNat 4 c)
    (hp : s.par = parityUpto s.txr (min c 8)) :
    (drivenBits s.txr).drop c = sendCellBit s :: (drivenBits s.txr).drop (c + 1) := by
  have h16 : s.bitcnt.toNat = c := by rw [hb]; simp; omega
  have : c = 0 ∨ c = 1 ∨ c = 2 ∨ c = 3 ∨ c = 4 ∨ c = 5 ∨ c = 6 ∨ c = 7 ∨ c = 8 ∨ c = 9 := by omega
  rcases this with rfl | rfl | rfl | rfl | rfl | rfl | rfl | rfl | rfl | rfl <;>
    simp [sendCellBit, h16, drivenBits, dataBits, List.range_succ, hp, parityUpto_eight]

/-- The accumulation keeps the accumulator as it should be (R100, R101). -/
theorem sendAccumulate_par {s : State} {c : Nat} (hc : c < 10) (hb : s.bitcnt = BitVec.ofNat 4 c)
    (hp : s.par = parityUpto s.txr (min c 8)) :
    sendAccumulate s = { s with par := parityUpto s.txr (min (c + 1) 8) } := by
  have h16 : s.bitcnt.toNat = c := by rw [hb]; simp; omega
  unfold sendAccumulate
  rw [h16]
  by_cases h : c < 8
  · have h1 : min c 8 = c := by omega
    have h2 : min (c + 1) 8 = c + 1 := by omega
    rw [if_pos h, h2, parityUpto_succ, hp, h1]
  · have h1 : min c 8 = 8 := by omega
    have h2 : min (c + 1) 8 = 8 := by omega
    rw [if_neg h, h2, ← h1, ← hp]

/-- The cells of a SENDBYTE from cell `c` on: the rest of the ten bits, then the acknowledge cell (R100). -/
theorem sendCells_done {rest : List Levels} :
    ∀ (n : Nat) (w : List Levels) (s : State), n ≤ 10 → s.bitcnt = BitVec.ofNat 4 (10 - n) →
      s.par = parityUpto s.txr (min (10 - n) 8) → DriveCells s.params.waitLimit n w → s.wire = w ++ rest →
      ∃ t, sendCells n s = sendAck t ∧
        Emits s t w.length (((drivenBits s.txr).drop (10 - n)).map fun b => .set .data (driveOf b)) ∧
        t = { s with par := oddParity s.txr, bitcnt := 10, dataDrv := t.dataDrv, wire := rest, trace := t.trace,
                     waitcnt := t.waitcnt }
  | 0, w, s, _, hb, hp, hw, hs => by
    obtain rfl : w = [] := hw
    refine ⟨s, rfl, ?_, ?_⟩
    · have : (drivenBits s.txr).drop 10 = [] := List.drop_eq_nil_of_le (by simp [drivenBits_length])
      simpa [this] using Emits.refl s
    · have hb' : s.bitcnt = 10 := by simpa using hb
      have hp' : s.par = oddParity s.txr := by simpa [parityUpto_eight] using hp
      rw [← hb', ← hp', show rest = s.wire by simpa using hs.symm]
  | n + 1, w, s, hn, hb, hp, hw, hs => by
    obtain ⟨cell, more, rfl, hcell, hmore⟩ := hw
    have hc : 10 - (n + 1) < 10 := by omega
    have hnext : 10 - (n + 1) + 1 = 10 - n := by omega
    have hacc := sendAccumulate_par hc hb hp
    obtain ⟨t, ht, het, hteq⟩ := sendBit_cell (b := sendCellBit s) (w := cell) (rest := more ++ rest)
      (s := sendAccumulate s) (by rw [hacc]; exact hcell) (by rw [hacc]; simpa using hs)
    rw [hacc] at hteq
    rw [hnext] at hteq
    have hb' : (nextCell t).bitcnt = BitVec.ofNat 4 (10 - n) := by
      rw [nextCell_bitcnt, hteq]
      simp only [hb]
      rw [show (1 : BitVec 4) = BitVec.ofNat 4 1 from rfl, ← BitVec.ofNat_add, hnext]
    obtain ⟨u, hu, heu, hueq⟩ := sendCells_done (rest := rest) n more (nextCell t) (by omega) hb'
      (by rw [nextCell_par, nextCell_txr, hteq]) (by rw [nextCell_params, hteq]; exact hmore)
      (by rw [nextCell_wire, hteq])
    refine ⟨u, ?_, ?_, ?_⟩
    · rw [sendCells, ht, Run.within_done, hu]
    · have h1 : Emits s u (cell.length + more.length) _ :=
        (het.congr (s' := s) (t' := nextCell t) (by rw [hacc]) (nextCell_trace t)).trans heu
      refine h1.congr_out (by simp) ?_
      rw [nextCell_txr, hteq, sendCellBit_eq hc hb hp, hnext]
      simp
    · rw [hueq, nextCell, hteq]

/-- SENDBYTE(`v`) up to its acknowledge bit `a` (R100, R104): success for 0, `Nak` for 1 (R103). -/
theorem sendByte_done {v : Byte} {a : Bool} {w rest : List Levels} {s : State} (hw : TxAnswers s.params.waitLimit a w)
    (hs : s.wire = w ++ rest) :
    ∃ t, sendByte v s = (if a then .raised .nak t else .done () t) ∧ Emits s t w.length (sendOutputs v) ∧
      t = s.afterSend t v a rest := by
  obtain ⟨cells, ack, rfl, hcells, hack⟩ := hw
  obtain ⟨t, ht, het, hteq⟩ := sendCells_done (rest := ack ++ rest) 10 cells (sendStart v s) (by omega)
    (by simp [sendStart]) (by simp [sendStart, parityUpto]) (by simpa [sendStart, pinSet, delayUs] using hcells)
    (by simpa [sendStart, pinSet, delayUs] using hs)
  have htx : (sendStart v s).txr = v := by simp [sendStart, pinSet, delayUs]
  obtain ⟨u, hu, heu, hueq⟩ := recvBit_cell (d := a) (w := ack) (rest := rest) (s := pinSet .data .inFloat t)
    (by rw [pinSet_data_params, hteq]; simpa [sendStart, pinSet, delayUs] using hack) (by rw [pinSet_data_wire, hteq])
  have hstart : Emits s (sendStart v s) 0
      [.set .clk .outLow, .delay Config.inhibitUs, .set .data .outLow, .set .clk .inPullup] :=
    ⟨[.set .clk .inPullup, .set .data .outLow, .delay Config.inhibitUs, .set .clk .outLow],
      by simp [sendStart, pinSet, delayUs], by simp [Event.isOutput], rfl⟩
  have hrel : Emits t (pinSet .data .inFloat t) 0 [.set .data .inFloat] := Emits.output rfl (pinSet_data_trace t _)
  have hall := ((hstart.trans het).trans hrel).trans heu
  have hw' : 0 + cells.length + 0 + ack.length = (cells ++ ack).length := by simp
  have hout : Emits s { u with ackbit := a } (cells ++ ack).length (sendOutputs v) :=
    (hall.congr (s' := s) (t' := { u with ackbit := a }) rfl rfl).congr_out hw' (by simp [sendOutputs, htx])
  have hueq' : { u with ackbit := a } = s.afterSend { u with ackbit := a } v a rest := by
    rw [hueq]
    simp only [pinSet]
    rw [hteq]
    simp [State.afterSend, sendStart, pinSet, delayUs]
  refine ⟨{ u with ackbit := a }, ?_, hout, hueq'⟩
  rw [sendByte, ht, sendAck, hu]
  cases a <;> rfl

/-- The cells of a SENDBYTE after its start condition, with the least clocking (R100): success for acknowledge bit 0, `Nak`
for 1. -/
theorem sendCells_least {a : Bool} {rest : List Levels} {s : State} (hb : s.bitcnt = 0) (hp : s.par = parityStart)
    (hs : s.wire = frameTxLevels a ++ rest) :
    ∃ t, sendCells 10 s = (if a then .raised .nak t else .done () t) ∧ Emits s t 23 ((sendOutputs s.txr).drop 4) ∧
      t = { s with par := oddParity s.txr, bitcnt := 10, ackbit := a, rxbit := a, dataDrv := .inFloat, wire := rest,
                   trace := t.trace, waitcnt := 0 } := by
  obtain ⟨t, hcells, het, hteq⟩ := sendCells_done (rest := receiveCell a ++ rest) 10 (List.replicate 10 driveCell).flatten s
    (by omega) (by simpa using hb) (by simpa [parityUpto] using hp) (driveCells_answers s.params.waitLimit 10)
    (by rw [hs]; simp [frameTxLevels])
  have hack := recvBit_receiveCell (d := a) (rest := rest) (s := pinSet .data .inFloat t) (by rw [pinSet_data_wire, hteq])
  refine ⟨{ pinSet .data .inFloat t with
      rxbit := a, wire := rest, waitcnt := 0, ackbit := a
      trace := [.read .clk true, .read .data a, .read .clk false] ++ (pinSet .data .inFloat t).trace }, ?_, ?_, ?_⟩
  · rw [hcells, sendAck, hack, Run.within_done]
    cases a <;> rfl
  · have hrel : Emits t (pinSet .data .inFloat t) 0 [.set .data .inFloat] := Emits.output rfl (pinSet_data_trace t _)
    refine ((het.trans hrel).trans ⟨[.read .clk true, .read .data a, .read .clk false], rfl, rfl, rfl⟩).congr_out ?_ rfl
    simp [driveCell]
  · simp only [pinSet]
    rw [hteq]

/-- SENDBYTE(`v`) with the least clocking (R100). -/
theorem sendByte_least {v : Byte} {a : Bool} {rest : List Levels} {s : State} (hs : s.wire = frameTxLevels a ++ rest) :
    ∃ t, sendByte v s = (if a then .raised .nak t else .done () t) ∧ Emits s t 23 (sendOutputs v) ∧
      t = { s.afterSend t v a rest with waitcnt := 0 } := by
  obtain ⟨t, ht, het, hteq⟩ := sendCells_least (a := a) (rest := rest) (s := sendStart v s) rfl rfl hs
  have hstart : Emits s (sendStart v s) 0 ((sendOutputs v).take 4) :=
    ⟨[.set .clk .inPullup, .set .data .outLow, .delay Config.inhibitUs, .set .clk .outLow], rfl, rfl, rfl⟩
  exact ⟨t, ht, (hstart.trans het).congr_out rfl (List.take_append_drop 4 (sendOutputs v)), hteq⟩

/-- A SENDBYTE of `v` that waits at its first cell, its answers used up, has its frame taken with the least clocking
(R25, R100). -/
theorem resumeSendByte_frame {v : Byte} {a : Bool} {rest : List Levels} {s : State} (hb : s.bitcnt = 0) (ht : s.txr = v)
    (hp : s.par = !(v.getLsbD 0)) (hs : s.wire = frameTxLevels a ++ rest) :
    ∃ t, resumeSendByte (.cell (.waitLow (v.getLsbD 0))) s = (if a then .raised .nak t else .done () t) ∧
      Emits s t 23 ((sendOutputs v).drop 4) ∧
      t = { s with par := oddParity v, bitcnt := 10, ackbit := a, rxbit := a, dataDrv := .inFloat, wire := rest,
                   trace := t.trace, waitcnt := 0 } := by
  subst ht
  have hacc : sendAccumulate { s with par := parityStart } = s := by
    have hpar : parityStep parityStart (s.txr.getLsbD s.bitcnt.toNat) = s.par := by
      rw [hp, hb]
      simp [parityStart, parityStep]
    rw [sendAccumulate, if_pos (show s.bitcnt.toNat < 8 by rw [hb]; decide)]
    show { s with par := parityStep parityStart (s.txr.getLsbD s.bitcnt.toNat) } = s
    rw [hpar]
  have hfirst : s.wire = driveCell ++ ((List.replicate 9 driveCell).flatten ++ (receiveCell a ++ rest)) := by
    rw [hs]; simp [frameTxLevels, List.replicate_succ]
  have hgo : resumeSendByte (.cell (.waitLow (s.txr.getLsbD 0))) s = sendCells 10 { s with par := parityStart } := by
    obtain ⟨u, hu, -, hueq⟩ := sendBit_cell (b := s.txr.getLsbD 0) (s := s) (driveCell_answers _) hfirst
    have hub : 9 - u.bitcnt.toNat = 9 := by rw [hueq, hb]; rfl
    rw [sendCells, hacc, show sendCellBit { s with par := parityStart } = s.txr.getLsbD 0 by simp [sendCellBit, hb],
      resumeSendByte, resumeSendBit_driveCell hfirst, hu, Run.within_done, Run.within_done, hub]
  obtain ⟨t, ht, het, hteq⟩ := sendCells_least (a := a) (rest := rest) (s := { s with par := parityStart }) hb rfl hs
  exact ⟨t, hgo.trans ht, het.congr rfl rfl, hteq⟩

/-- The bits of `v` below `k`. -/
def lowBits (v : Byte) (k : Nat) : Byte := v &&& BitVec.ofNat 8 (2 ^ k - 1)

theorem lowBits_getLsbD (v : Byte) (k i : Nat) : (lowBits v k).getLsbD i = (v.getLsbD i && decide (i < k)) := by
  simp only [lowBits, BitVec.getLsbD_and, BitVec.getLsbD_ofNat, Nat.testBit_two_pow_sub_one]
  by_cases h : i < 8
  · simp [h]
  · simp [BitVec.getLsbD_of_ge v i (by omega)]

theorem setBit_getLsbD (v : Byte) {k i : Nat} (hi : i < 8) (b : Bool) :
    (setBit v k b).getLsbD i = if i = k then b else v.getLsbD i := by
  have h1 : ((1 : Byte) <<< k).getLsbD i = decide (i = k) := by
    rw [BitVec.getLsbD_shiftLeft]
    by_cases h : i = k
    · subst h; simp [hi]
    · by_cases h' : i < k
      · simp [h, h']
      · have : i - k ≠ 0 := by omega
        simp [h, h', this]
  unfold setBit
  cases b
  · simp only [Bool.false_eq_true, if_false, BitVec.getLsbD_and, BitVec.getLsbD_not, h1, hi, decide_true, Bool.true_and]
    by_cases h : i = k <;> simp [h]
  · simp only [if_true, BitVec.getLsbD_or, h1]
    by_cases h : i = k <;> simp [h]

theorem setBit_lowBits (v : Byte) (k : Nat) : setBit (lowBits v k) k (v.getLsbD k) = lowBits v (k + 1) := by
  apply BitVec.eq_of_getLsbD_eq
  intro i hi
  rw [setBit_getLsbD _ hi, lowBits_getLsbD, lowBits_getLsbD]
  by_cases h : i = k
  · simp [h]
  · have : (i < k + 1) ↔ (i < k) := by omega
    simp [h, this]

theorem lowBits_eight (v : Byte) : lowBits v 8 = v := by
  apply BitVec.eq_of_getLsbD_eq
  intro i hi
  rw [lowBits_getLsbD]
  simp [hi]

theorem dataBits_drop (v : Byte) {k : Nat} (hk : k < 8) : (dataBits v).drop k = v.getLsbD k :: (dataBits v).drop (k + 1) := by
  rw [List.drop_eq_getElem_cons (by simpa [dataBits] using hk)]
  simp [dataBits]

/-- The data bits of a RECVBYTE from bit `k` on (R105 step 3): the byte is rebuilt and `PAR` is its parity. -/
theorem recvData_done {v : Byte} {rest : List Levels} :
    ∀ (n : Nat) (w : List Levels) (s : State), n ≤ 8 → s.bitcnt = BitVec.ofNat 4 (9 - n) → s.rxr = lowBits v (8 - n) →
      s.par = parityUpto v (8 - n) → SampleCells s.params.waitLimit ((dataBits v).drop (8 - n)) w → s.wire = w ++ rest →
      ∃ t, recvData n s = recvData 0 t ∧ Emits s t w.length [] ∧
        t = { s with rxr := v, par := oddParity v, bitcnt := 9, rxbit := t.rxbit, wire := rest, trace := t.trace,
                     waitcnt := t.waitcnt }
  | 0, w, s, _, hb, hr, hp, hw, hs => by
    have hnil : (dataBits v).drop 8 = [] := List.drop_eq_nil_of_le (by simp [dataBits])
    obtain rfl : w = [] := by simpa [hnil, SampleCells] using hw
    refine ⟨s, rfl, Emits.refl s, ?_⟩
    have hb' : s.bitcnt = 9 := by simpa using hb
    have hr' : s.rxr = v := by simpa [lowBits_eight] using hr
    have hp' : s.par = oddParity v := by simpa [parityUpto_eight] using hp
    cases s
    simp_all
  | n + 1, w, s, hn, hb, hr, hp, hw, hs => by
    have hk : 8 - (n + 1) < 8 := by omega
    have hnext : 8 - (n + 1) + 1 = 8 - n := by omega
    rw [dataBits_drop v hk, hnext] at hw
    obtain ⟨cell, more, rfl, hcell, hmore⟩ := hw
    obtain ⟨t, ht, het, hteq⟩ := recvBit_cell (w := cell) (rest := more ++ rest) hcell (by simpa using hs)
    have hidx : t.bitcnt.toNat - 1 = 8 - (n + 1) := by rw [hteq]; simp [hb]; omega
    obtain ⟨u, hu, heu, hueq⟩ := recvData_done (v := v) (rest := rest) n more (storeBit (v.getLsbD (8 - (n + 1))) t) (by omega)
      (by 
        simp only [storeBit]
        rw [hteq]
        simp only [hb]
        rw [show (1 : BitVec 4) = BitVec.ofNat 4 1 from rfl, ← BitVec.ofNat_add]
        congr 1; omega)
      (by simp only [storeBit]; rw [hidx, ← hnext, ← setBit_lowBits v, hteq, hr])
      (by simp only [storeBit]; rw [← hnext, parityUpto_succ, hteq, hp])
      (by simp only [storeBit]; rw [hteq]; exact hmore) (by simp only [storeBit]; rw [hteq])
    refine ⟨u, ?_, ?_, ?_⟩
    · simp only [recvData, ht, Run.within_done]
      exact hu
    · exact ((het.congr (s' := s) (t' := storeBit (v.getLsbD (8 - (n + 1))) t) rfl rfl).trans heu).congr_out (by simp) rfl
    · rw [hueq]; simp only [storeBit]; rw [hteq]

theorem dataBits_length (v : Byte) : (dataBits v).length = 8 := by simp [dataBits]

/-- The answers of two runs of received cells, one after the other. -/
theorem SampleCells.append_inv {lim : Option Nat} :
    ∀ {ds es : List Bool} {w : List Levels}, SampleCells lim (ds ++ es) w →
      ∃ x y, w = x ++ y ∧ SampleCells lim ds x ∧ SampleCells lim es y
  | [], _, w, h => ⟨[], w, rfl, rfl, h⟩
  | _ :: ds, es, w, h => by
    obtain ⟨cell, more, rfl, hcell, hmore⟩ := h
    obtain ⟨x, y, rfl, hx, hy⟩ := SampleCells.append_inv hmore
    exact ⟨cell ++ x, y, by simp, ⟨cell, x, rfl, hcell, hx⟩, hy⟩

/-- The cells of a RECVBYTE up to its stop bit (R105): the byte is in `RXR` and its parity in `PAR`. -/
theorem recvCells_toStop {v : Byte} {p : Bool} {w rest : List Levels} {s : State}
    (hw : SampleCells s.params.waitLimit (false :: (dataBits v ++ [p])) w) (hs : s.wire = w ++ rest) :
    ∃ c, (recvBit s).within .cell (fun b s => recvStart b s) = recvStop p c ∧ Emits s c w.length [] ∧
      c = { s with rxr := v, par := oddParity v, bitcnt := c.bitcnt, rxbit := p, wire := rest, trace := c.trace,
                   waitcnt := c.waitcnt } := by
  obtain ⟨start, w1, rfl, hstart, hw1⟩ := hw
  obtain ⟨dat, w2, rfl, hdat, hw2⟩ := SampleCells.append_inv hw1
  obtain ⟨par, w3, rfl, hpar, rfl⟩ := hw2
  obtain ⟨a, ha, hea, haeq⟩ := recvBit_cell (w := start) (rest := dat ++ (par ++ rest)) (s := s) hstart (by simpa using hs)
  obtain ⟨b, hb, heb, hbeq⟩ := recvData_done (v := v) (rest := par ++ rest) 8 dat
    { a with rxr := 0, par := parityStart, bitcnt := 1 } (by omega) rfl (by simp [lowBits]) rfl
    (by rw [haeq]; exact hdat) (by rw [haeq])
  obtain ⟨c, hc, hec, hceq⟩ := recvBit_cell (w := par) (rest := rest) (s := b) (by rw [hbeq, haeq]; exact hpar)
    (by rw [hbeq])
  refine ⟨c, ?_, ((hea.trans (heb.congr (s' := a) rfl rfl)).trans hec).congr_out (by simp; omega) (by simp), ?_⟩
  · rw [ha]
    refine Eq.trans (b := recvData 0 b) hb ?_
    simp only [recvData, hc, Run.within_done]
  · rw [hceq, hbeq, haeq]

/-- RECVBYTE on a frame of `v` up to its checks (R105): the byte is in `RXR`, its parity in `PAR`, and the stop bit is
consumed. -/
theorem recvByte_frame {v : Byte} {p t : Bool} {w rest : List Levels} {s : State}
    (hw : RxAnswers s.params.waitLimit v p t w) (hs : s.wire = w ++ rest) :
    ∃ u, recvByte s = recvFinish p t u ∧ Emits s u w.length recvOutputs ∧ u = s.afterRecv u v t rest := by
  have hw' : SampleCells s.params.waitLimit ((false :: (dataBits v ++ [p])) ++ [t]) w := by
    simpa [RxAnswers] using hw
  obtain ⟨x, y, rfl, hx, stop, y', rfl, hstop, rfl⟩ := SampleCells.append_inv hw'
  have hopen : Emits s (recvOpen s) 0 recvOutputs := ⟨[.set .data .inFloat, .set .clk .inFloat], rfl, rfl, rfl⟩
  obtain ⟨c, hc, hec, hceq⟩ := recvCells_toStop (s := recvOpen s) (w := x) (rest := stop ++ rest) hx
    (by simpa [recvOpen, pinSet] using hs)
  obtain ⟨d, hd, hed, hdeq⟩ := recvBit_cell (w := stop) (rest := rest) (s := { c with bitcnt := 10 })
    (by rw [hceq]; exact hstop) (by rw [hceq])
  refine ⟨d, ?_, ((hopen.trans hec).trans (hed.congr (s' := c) rfl rfl)).congr_out (by simp) (by simp), ?_⟩
  · rw [recvByte]
    refine hc.trans ?_
    simp only [recvStop, hd, Run.within_done]
  · rw [hdeq, hceq]
    rfl

/-- The cells of a RECVBYTE with the least clocking, up to its checks (R105). -/
theorem recvCells_least {v : Byte} {p t : Bool} {rest : List Levels} {s : State} (hs : s.wire = frameRxLevels v p t ++ rest) :
    ∃ u, (recvBit s).within .cell (fun b s => recvStart b s) = recvFinish p t u ∧ Emits s u 33 [] ∧
      u = { s with rxr := v, par := oddParity v, bitcnt := 10, rxbit := t, wire := rest, trace := u.trace, waitcnt := 0 } := by
  have hsplit : frameRxLevels v p t = ((false :: (dataBits v ++ [p])).map receiveCell).flatten ++ receiveCell t := by
    simp [frameRxLevels, dataBits]
  rw [hsplit, List.append_assoc] at hs
  obtain ⟨c, hc, hec, hceq⟩ := recvCells_toStop (receiveCells_answers s.params.waitLimit _) hs
  have hd := recvBit_receiveCell (d := t) (rest := rest) (s := { c with bitcnt := 10 }) (by rw [hceq])
  refine ⟨_, hc.trans (by rw [recvStop, hd, Run.within_done]), ?_, ?_⟩
  · refine (hec.trans ⟨[.read .clk true, .read .data t, .read .clk false], rfl, rfl, rfl⟩).congr_out ?_ rfl
    simp [receiveCell, dataBits, Function.comp_def]
  · rw [hceq]

/-- A RECVBYTE that waits at its start bit, its answers used up, goes on with a frame as from there (R25, R105). -/
theorem resumeRecvByte_frame {v : Byte} {p t : Bool} {rest : List Levels} {s : State} (hb : s.bitcnt = 0)
    (hs : s.wire = frameRxLevels v p t ++ rest) :
    resumeRecvByte (.cell .waitLow) s = (recvBit s).within .cell (fun b s => recvStart b s) := by
  have hw : s.wire = receiveCell false ++ (((dataBits v ++ [p, t]).map receiveCell).flatten ++ rest) := by
    rw [hs]; simp [frameRxLevels, dataBits]
  rw [resumeRecvByte, resumeRecvBit_receiveCell hw, recvBit_receiveCell hw, Run.within_done, Run.within_done, recvAfterCell,
    if_pos (show _ = (0 : BitVec 4) from hb)]

/-- How RECVBYTE ends on a frame of `v`: the checks that are enabled, parity before stop, or the byte (R105, R174). -/
theorem recvFinish_eq {p t : Bool} {u : State} {v : Byte} (hp : u.par = oddParity v) (hr : u.rxr = v) :
    recvFinish p t u =
      if u.params.checkParity = true ∧ p ≠ oddParity v then .raised .parity u
      else if u.params.checkStop = true ∧ t = false then .raised .framing u
      else .done v u := by
  unfold recvFinish frameCheck
  rw [hp, hr]
  cases u.params.checkParity <;> cases u.params.checkStop <;> cases t <;> cases p <;> cases oddParity v <;> rfl

/-- The optional checks let a byte pass (R105 step 5, R107, R108). -/
theorem recvFinish_pass {p t : Bool} {u : State} {v : Byte} (hp : u.par = oddParity v) (hr : u.rxr = v)
    (h : ChecksPass u.params v p t) : recvFinish p t u = .done v u := by
  rw [recvFinish_eq hp hr, if_neg fun g => g.2 (h.1 g.1), if_neg fun g => by simp [h.2 g.1] at g]

/-- RECVBYTE returns the byte of the frame (R105, R104). -/
theorem recvByte_done {v : Byte} {t : Bool} {w rest : List Levels} {s : State} (hw : ByteAnswers s.params v t w)
    (hs : s.wire = w ++ rest) :
    ∃ u, recvByte s = .done v u ∧ Emits s u w.length recvOutputs ∧ u = s.afterRecv u v t rest := by
  obtain ⟨p, hrx, hck⟩ := hw
  obtain ⟨u, hu, heu, hueq⟩ := recvByte_frame hrx hs
  refine ⟨u, ?_, heu, hueq⟩
  rw [hu]
  exact recvFinish_pass (by rw [hueq]; rfl) (by rw [hueq]; rfl) (by rw [hueq]; exact hck)

/-- RECVBYTE on a well-formed frame with the least clocking (R105). -/
theorem recvByte_least {v : Byte} {rest : List Levels} {s : State} (hs : s.wire = goodFrame v ++ rest) :
    ∃ u, recvByte s = .done v u ∧ Emits s u 33 recvOutputs ∧ u = { s.afterRecv u v true rest with waitcnt := 0 } := by
  have hopen : Emits s (recvOpen s) 0 recvOutputs := ⟨[.set .data .inFloat, .set .clk .inFloat], rfl, rfl, rfl⟩
  obtain ⟨u, hu, heu, hueq⟩ := recvCells_least (v := v) (s := recvOpen s) hs
  refine ⟨u, ?_, (hopen.trans heu).congr_out rfl (by simp), hueq⟩
  exact hu.trans (recvFinish_pass (by rw [hueq]) (by rw [hueq]) ⟨fun _ => rfl, fun _ => rfl⟩)

/-- A RECVBYTE that waits at its start bit, its answers used up, receives a well-formed frame (R25, R105). -/
theorem resumeRecvByte_least {v : Byte} {rest : List Levels} {s : State} (hb : s.bitcnt = 0)
    (hs : s.wire = goodFrame v ++ rest) :
    ∃ u, resumeRecvByte (.cell .waitLow) s = .done v u ∧ Emits s u 33 [] ∧
      u = { s with rxr := v, par := oddParity v, bitcnt := 10, rxbit := true, wire := rest, trace := u.trace, waitcnt := 0 } := by
  obtain ⟨u, hu, heu, hueq⟩ := recvCells_least (v := v) hs
  refine ⟨u, ?_, heu, hueq⟩
  rw [resumeRecvByte_frame hb hs, hu]
  exact recvFinish_pass (by rw [hueq]) (by rw [hueq]) ⟨fun _ => rfl, fun _ => rfl⟩

/-- A RECVBYTE that waits at its start bit, its answers used up, fails on a start bit of 1 after that one cell (R25, R106). -/
theorem resumeRecvByte_badStart {rest : List Levels} {s : State} (hb : s.bitcnt = 0) (hs : s.wire = receiveCell true ++ rest) :
    ∃ u, resumeRecvByte (.cell .waitLow) s = .raised .framing u ∧ Emits s u 3 [] ∧
      u = { s with rxbit := true, wire := rest, trace := u.trace, waitcnt := 0 } := by
  have h := recvBit_receiveCell (d := true) hs
  rw [resumeRecvByte, resumeRecvBit_receiveCell hs, h, Run.within_done, recvAfterCell, if_pos (show _ = (0 : BitVec 4) from hb),
    recvStart, if_pos rfl]
  exact ⟨_, rfl, ⟨[.read .clk true, .read .data true, .read .clk false], rfl, rfl, rfl⟩, rfl⟩

/-- A start bit of 1 fails after that one cell (R106). -/
theorem recvByte_badStart {w rest : List Levels} {s : State} (hw : SampleAnswers s.params.waitLimit true w)
    (hs : s.wire = w ++ rest) :
    ∃ u, recvByte s = .raised .framing u ∧ Emits s u w.length recvOutputs ∧
      u = { s with clkDrv := .inFloat, dataDrv := .inFloat, bitcnt := 0, rxbit := true, wire := rest, trace := u.trace,
                   waitcnt := u.waitcnt } := by
  have hopen : Emits s (recvOpen s) 0 recvOutputs := ⟨[.set .data .inFloat, .set .clk .inFloat], rfl, rfl, rfl⟩
  obtain ⟨a, ha, hea, haeq⟩ := recvBit_cell (w := w) (rest := rest) (s := recvOpen s) hw (by simpa [recvOpen, pinSet] using hs)
  refine ⟨a, ?_, (hopen.trans hea).congr_out (by simp) (by simp), ?_⟩
  · simp only [recvByte, ha, Run.within_done, recvStart, if_true]
  · rw [haeq]
    rfl

end Sys2Proof.Machine
end

