-- ==== Sys2Proof/Laws/Commands.lean ====
section
/-! SUPPORT. Command Protocol: one exchange, the resends, and how a SENDACKED ends. -/

namespace Sys2Proof.Machine

/-! How many snapshots an exchange takes, at least -/

theorem WaitAnswers.pos {lim : Option Nat} {level : Bool} {w : List Levels} (h : WaitAnswers lim level w) : 1 ≤ w.length := by
  obtain ⟨spin, last, rfl, -, -⟩ := h
  simp

theorem DriveAnswers.two_le {lim : Option Nat} {w : List Levels} (h : DriveAnswers lim w) : 2 ≤ w.length := by
  obtain ⟨low, high, rfl, hl, hh⟩ := h
  have := hl.pos
  have := hh.pos
  simp
  omega

theorem SampleAnswers.three_le {lim : Option Nat} {d : Bool} {w : List Levels} (h : SampleAnswers lim d w) : 3 ≤ w.length := by
  obtain ⟨low, sample, high, rfl, hl, -, hh⟩ := h
  have := hl.pos
  have := hh.pos
  simp
  omega

theorem DriveCells.le_length {lim : Option Nat} : ∀ {n : Nat} {w : List Levels}, DriveCells lim n w → 2 * n ≤ w.length
  | 0, _, _ => by omega
  | n + 1, _, ⟨cell, rest, h, hc, hr⟩ => by
    subst h
    have := hc.two_le
    have := DriveCells.le_length hr
    simp
    omega

theorem SampleCells.le_length {lim : Option Nat} :
    ∀ {ds : List Bool} {w : List Levels}, SampleCells lim ds w → 3 * ds.length ≤ w.length
  | [], _, _ => by simp
  | _ :: ds, _, ⟨cell, rest, h, hc, hr⟩ => by
    subst h
    have := hc.three_le
    have := SampleCells.le_length hr
    simp
    omega

/-- R163: a SENDBYTE performs at least 23 clock samples and data reads. -/
theorem TxAnswers.le_length {lim : Option Nat} {a : Bool} {w : List Levels} (h : TxAnswers lim a w) : 23 ≤ w.length := by
  obtain ⟨cells, ack, rfl, hc, hk⟩ := h
  have := hc.le_length
  have := hk.three_le
  simp
  omega

/-- R163: a RECVBYTE performs at least 33. -/
theorem RxAnswers.le_length {lim : Option Nat} {v : Byte} {p t : Bool} {w : List Levels} (h : RxAnswers lim v p t w) :
    33 ≤ w.length := by
  have := SampleCells.le_length h
  simp [dataBits] at this
  omega

theorem ExchangeAnswers.le_length {params : Params} {r : Byte} {t : Bool} {w : List Levels}
    (h : ExchangeAnswers params r t w) : 56 ≤ w.length := by
  obtain ⟨tx, rx, rfl, htx, p, hrx, -⟩ := h
  have := htx.le_length
  have := hrx.le_length
  simp
  omega

theorem ResendAnswers.le_length {params : Params} :
    ∀ {k : Nat} {w : List Levels}, ResendAnswers params k w → k ≤ w.length
  | 0, _, _ => by omega
  | k + 1, _, ⟨t, one, rest, h, ho, hr⟩ => by
    subst h
    have := ho.le_length
    have := ResendAnswers.le_length hr
    simp
    omega

/-! One exchange, and the resends -/

theorem exchangeOutputs_succ (n : Nat) (x : Byte) :
    exchangeOutputs (n + 1) x = sendOutputs x ++ recvOutputs ++ exchangeOutputs n x := by
  simp [exchangeOutputs, List.replicate_succ]

theorem exchangeOutputs_add (m n : Nat) (x : Byte) :
    exchangeOutputs (m + n) x = exchangeOutputs m x ++ exchangeOutputs n x := by
  rw [exchangeOutputs, ← List.replicate_append_replicate, List.flatten_append]
  rfl

/-- The registers that one exchange writes, before COMPARE. -/
def State.afterExchange (s u : State) (x r : Byte) (t : Bool) (rest : List Levels) : State :=
  { s with txr := x, ackbit := false, rxr := r, par := oddParity r, bitcnt := 10, rxbit := t, clkDrv := .inFloat
           dataDrv := .inFloat, wire := rest, trace := u.trace, waitcnt := u.waitcnt }

/-- One round of the loop of R120: the byte is sent and acknowledged on the line, `r` arrives and is compared. -/
theorem ackLoop_exchange {which : WhichByte} {r : Byte} {t : Bool} {w rest : List Levels} {s : State}
    (hw : ExchangeAnswers s.params r t w) (hs : s.wire = w ++ rest) :
    ∃ u, (∀ fuel, ackLoop (fuel + 1) which s = ackCompare (ackLoop fuel which) r u) ∧
      Emits s u w.length (sendOutputs s.cmdr ++ recvOutputs) ∧ u = s.afterExchange u s.cmdr r t rest := by
  obtain ⟨tx, rx, rfl, htx, hrx⟩ := hw
  obtain ⟨a, ha, hea, haeq⟩ := sendByte_done (v := s.cmdr) (rest := rx ++ rest) htx (by simpa using hs)
  obtain ⟨u, hu, heu, hueq⟩ := recvByte_done (w := rx) (rest := rest) (s := a) (v := r) (t := t)
    (by rw [haeq]; exact hrx) (by rw [haeq]; rfl)
  refine ⟨u, fun fuel => ?_, (hea.trans heu).congr_out (by simp) rfl, ?_⟩
  · rw [ackLoop, ha]
    simp only [Bool.false_eq_true, if_false, Run.within_done, ackReceive, hu]
  · rw [hueq, haeq]
    rfl

/-- Sending, where the device does not acknowledge the byte on the line (R103, R125). -/
theorem ackLoop_nak {which : WhichByte} {w rest : List Levels} {s : State}
    (hw : TxAnswers s.params.waitLimit true w) (hs : s.wire = w ++ rest) :
    ∃ u, (∀ fuel, ackLoop (fuel + 1) which s = .raised .nak u) ∧ Emits s u w.length (sendOutputs s.cmdr) ∧
      u = s.afterSend u s.cmdr true rest := by
  obtain ⟨a, ha, hea, haeq⟩ := sendByte_done (v := s.cmdr) (rest := rest) hw hs
  exact ⟨a, fun fuel => by rw [ackLoop, ha]; rfl, hea, haeq⟩

/-- COMPARE on `resend`, the limit not passed (R120). -/
theorem ackCompare_resend {again : State → Run CommandPhase Unit} {s : State}
    (h : ∀ n, s.params.resendLimit = some n → s.retry + 1 ≤ n) :
    ackCompare again ResponseCode.resend.code s = again { s with ackr := ResponseCode.resend.code, retry := s.retry + 1 } := by
  have : resendExpired { s with ackr := ResponseCode.resend.code, retry := s.retry + 1 } = false := by
    unfold resendExpired
    cases hl : s.params.resendLimit with
    | none => rfl
    | some n => have := h n hl; simp; omega
  rw [ackCompare, if_pos rfl, this]
  rfl

/-- COMPARE on `resend`, the limit passed (R120). -/
theorem ackCompare_exhausted {again : State → Run CommandPhase Unit} {s : State} {n : Nat}
    (hl : s.params.resendLimit = some n) (h : n < s.retry + 1) :
    ackCompare again ResponseCode.resend.code s =
      .raised .retryExhausted { s with ackr := ResponseCode.resend.code, retry := s.retry + 1 } := by
  have : resendExpired { s with ackr := ResponseCode.resend.code, retry := s.retry + 1 } = true := by
    simp [resendExpired, hl, h]
  rw [ackCompare, if_pos rfl, this]
  rfl

/-- COMPARE on `ack` (R120). -/
theorem ackCompare_ack (again : State → Run CommandPhase Unit) (s : State) :
    ackCompare again ResponseCode.ack.code s = .done () { s with ackr := ResponseCode.ack.code } := by
  rw [ackCompare, if_neg (by decide), if_pos rfl]

/-- COMPARE on any of the other 254 values (R120, R124). -/
theorem ackCompare_other {r : Byte} (hr : r ≠ 0xFE) (hr' : r ≠ 0xFA) (again : State → Run CommandPhase Unit) (s : State) :
    ackCompare again r s = .raised .protocol { s with ackr := r } := by
  rw [ackCompare, if_neg (show r ≠ ResponseCode.resend.code from hr), if_neg (show r ≠ ResponseCode.ack.code from hr')]

/-- `k` resends in a row bring the loop back to its state SEND (R120, R123). -/
theorem ackLoop_resends {which : WhichByte} {rest : List Levels} :
    ∀ (k : Nat) (w : List Levels) (s : State), ResendAnswers s.params k w → s.wire = w ++ rest →
      (∀ n, s.params.resendLimit = some n → s.retry + k ≤ n) →
      ∃ u, (∀ fuel, ackLoop (fuel + k) which s = ackLoop fuel which u) ∧ Emits s u w.length (exchangeOutputs k s.cmdr) ∧
        u = { s with txr := u.txr, ackbit := u.ackbit, rxr := u.rxr, par := u.par, bitcnt := u.bitcnt, rxbit := u.rxbit
                     clkDrv := u.clkDrv, dataDrv := u.dataDrv, ackr := u.ackr, retry := s.retry + k, wire := rest
                     trace := u.trace, waitcnt := u.waitcnt }
  | 0, w, s, hw, hs, _ => by
    obtain rfl : w = [] := hw
    refine ⟨s, fun fuel => rfl, Emits.refl s, ?_⟩
    rw [show rest = s.wire by simpa using hs.symm]
    rfl
  | k + 1, w, s, hw, hs, hlim => by
    obtain ⟨t, one, more, rfl, hone, hmore⟩ := hw
    rw [List.append_assoc] at hs
    obtain ⟨a, ha, hea, haeq⟩ := ackLoop_exchange (which := which) hone hs
    have hcmp : ∀ again : State → Run CommandPhase Unit, ackCompare again ResponseCode.resend.code a =
        again { a with ackr := ResponseCode.resend.code, retry := a.retry + 1 } := fun again =>
      ackCompare_resend (again := again) (s := a) (fun n hn => by
        rw [haeq] at hn
        have := hlim n hn
        rw [haeq]
        simp only [State.afterExchange]
        omega)
    obtain ⟨u, hu, heu, hueq⟩ := ackLoop_resends (which := which) (rest := rest) k more
      { a with ackr := ResponseCode.resend.code, retry := a.retry + 1 } (by rw [haeq]; exact hmore) (by rw [haeq]; rfl)
      (fun n hn => by
        rw [haeq] at hn
        have := hlim n hn
        rw [haeq]
        simp only [State.afterExchange]
        omega)
    refine ⟨u, fun fuel => ?_, ?_, ?_⟩
    · rw [← Nat.add_assoc, ha, hcmp, hu]
    · refine ((hea.congr (t' := { a with ackr := ResponseCode.resend.code, retry := a.retry + 1 }) rfl rfl).trans heu).congr_out
        (by simp) ?_
      rw [exchangeOutputs_succ, haeq]
      rfl
    · rw [hueq, haeq]
      simp only [State.afterExchange]
      congr 1
      omega

/-- The last of `k` + 1 resends apart. -/
theorem ResendAnswers.split_last {params : Params} : ∀ {k : Nat} {w : List Levels}, ResendAnswers params (k + 1) w →
    ∃ a b t, w = a ++ b ∧ ResendAnswers params k a ∧ ExchangeAnswers params ResponseCode.resend.code t b
  | 0, _, ⟨t, one, rest, h, ho, hr⟩ => by
    obtain rfl : rest = [] := hr
    exact ⟨[], one, t, by simpa using h, rfl, ho⟩
  | _ + 1, _, ⟨t, one, _, h, ho, hr⟩ => by
    obtain ⟨a, b, t', hab, ha, hb⟩ := ResendAnswers.split_last hr
    exact ⟨one ++ a, b, t', by rw [h, hab, List.append_assoc], ⟨t, one, a, rfl, ho, ha⟩, hb⟩

/-- Without an answer the loop makes its start condition and waits at the first cell, whatever its fuel (R120, log 20). -/
theorem ackLoop_starved {which : WhichByte} {fuel : Nat} {s : State} (h : s.wire = []) :
    ackLoop fuel which s =
      .waiting { which := which, ack := .send (.cell (.waitLow (s.cmdr.getLsbD 0))) }
        { sendAccumulate (sendStart s.cmdr s) with waitcnt := 0 } := by
  cases fuel with
  | zero => rfl
  | succ fuel =>
    have hw : (sendAccumulate (sendStart s.cmdr s)).wire = [] := by
      simp [sendAccumulate, sendStart, pinSet, delayUs, h]
    simp only [ackLoop, sendByte, sendCells, sendBit, waitClk, waitMore]
    rw [hw]
    rfl

/-- SENDACKED(`x`) that gets its answer `r` after `k` resends stands at COMPARE with `r` (R120). -/
theorem sendAcked_compare {which : WhichByte} {x r : Byte} {k : Nat} {t : Bool} {resends last rest : List Levels} {s : State}
    (hresends : ResendAnswers s.params k resends) (hlast : ExchangeAnswers s.params r t last)
    (hlim : ∀ n, s.params.resendLimit = some n → k ≤ n) (hs : s.wire = (resends ++ last) ++ rest) :
    ∃ u fuel, sendAcked which x s = ackCompare (ackLoop fuel which) r u ∧
      Emits s u (resends ++ last).length (exchangeOutputs (k + 1) x) ∧
      u = { s.afterAcked u x r k t rest with ackr := u.ackr } := by
  obtain ⟨a, ha, hea, haeq⟩ := ackLoop_resends (which := which) (rest := last ++ rest) k resends { s with cmdr := x, retry := 0 }
    hresends (by simpa using hs) (fun n hn => by simpa using hlim n hn)
  obtain ⟨u, hu, heu, hueq⟩ := ackLoop_exchange (which := which) (s := a) (r := r) (t := t) (w := last) (rest := rest)
    (by rw [haeq]; exact hlast) (by rw [haeq])
  have hk : k ≤ s.wire.length := by
    have := hresends.le_length
    rw [hs]
    simp
    omega
  refine ⟨u, s.wire.length - k, ?_, ?_, ?_⟩
  · rw [sendAcked, show ackFuel s = (s.wire.length - k + 1) + k by simp [ackFuel]; omega, ha, hu]
  · refine ((hea.congr (s' := s) rfl rfl).trans heu).congr_out (by simp) ?_
    rw [exchangeOutputs_add, haeq]
    simp [exchangeOutputs]
  · rw [hueq, haeq]
    simp [State.afterExchange, State.afterAcked]

/-- SENDACKED(`x`) succeeds on the acknowledge byte, after `k` resends (R120). -/
theorem sendAcked_done {which : WhichByte} {x : Byte} {k : Nat} {t : Bool} {w rest : List Levels} {s : State}
    (hw : AckedAnswers s.params k t w) (hs : s.wire = w ++ rest) :
    ∃ u, sendAcked which x s = .done () u ∧ Emits s u w.length (exchangeOutputs (k + 1) x) ∧
      u = s.afterAcked u x ResponseCode.ack.code k t rest := by
  obtain ⟨resends, last, rfl, hre, hla, hlim⟩ := hw
  obtain ⟨u, fuel, hu, heu, hueq⟩ := sendAcked_compare (which := which) (x := x) hre hla hlim hs
  refine ⟨{ u with ackr := ResponseCode.ack.code }, ?_, heu.congr rfl rfl, ?_⟩
  · rw [hu, ackCompare_ack]
  · rw [hueq]
    simp [State.afterAcked]

/-- SENDCMD succeeds (R121). -/
theorem sendCommand_done {x : Byte} {k : Nat} {t : Bool} {w rest : List Levels} {s : State}
    (hw : AckedAnswers s.params k t w) (hs : s.wire = w ++ rest) :
    ∃ u, sendCommand x s = .done () u ∧ Emits s u w.length (exchangeOutputs (k + 1) x) ∧
      u = s.afterAcked u x ResponseCode.ack.code k t rest := sendAcked_done hw hs

/-- SENDCMDP succeeds: the command and then the parameter are acknowledged (R122). -/
theorem sendCommandP_done {x y : Byte} {k m : Nat} {t t' : Bool} {w w' rest : List Levels} {s : State}
    (hw : AckedAnswers s.params k t w) (hw' : AckedAnswers s.params m t' w') (hs : s.wire = w ++ (w' ++ rest)) :
    ∃ u, sendCommandP x y s = .done () u ∧ Emits s u (w.length + w'.length) (exchangeOutputs (k + 1) x ++ exchangeOutputs (m + 1) y) ∧
      u = s.afterAcked u y ResponseCode.ack.code m t' rest := by
  obtain ⟨a, ha, hea, haeq⟩ := sendAcked_done (which := .commandThen y) (x := x) (rest := w' ++ rest) hw hs
  obtain ⟨u, hu, heu, hueq⟩ := sendAcked_done (which := .parameter) (x := y) (k := m) (t := t') (w := w') (rest := rest) (s := a)
    (by rw [haeq]; exact hw') (by rw [haeq]; rfl)
  refine ⟨u, ?_, hea.trans heu, ?_⟩
  · rw [sendCommandP, ha]
    simp only [Run.within_done, afterAcked, hu]
  · rw [hueq, haeq]
    rfl

/-- Which byte a SENDACKED sends shows in its phase only (R120). -/
theorem ackLoop_which (which which' : WhichByte) : ∀ (fuel : Nat) (s : State),
    ackLoop fuel which' s = (ackLoop fuel which s).within (fun p => { p with which := which' }) fun _ t => .done () t
  | 0, _ => rfl
  | fuel + 1, s => by
    simp only [ackLoop]
    cases sendByte s.cmdr s with
    | raised k t => rfl
    | waiting ph t => rfl
    | done v t =>
      simp only [Run.within_done, ackReceive]
      cases recvByte t with
      | raised k u => rfl
      | waiting ph u => rfl
      | done r u =>
        simp only [Run.within_done, ackCompare]
        repeat' split
        · rfl
        · exact ackLoop_which which which' fuel _
        · rfl
        · rfl

/-- SENDCMDP is SENDCMD of the code and then, once that is acknowledged, SENDACKED of the parameter (R122). -/
theorem sendCommandP_eq (code param : Byte) (s : State) :
    sendCommandP code param s =
      (sendCommand code s).within (fun p => { p with which := .commandThen param }) fun _ t => sendAcked .parameter param t := by
  rw [sendCommandP, sendCommand, sendAcked, sendAcked, ackLoop_which .command]
  cases ackLoop (ackFuel s) .command { s with cmdr := code, retry := 0 } <;> rfl

/-- The parameter is sent as SENDCMD sends a command (R122). -/
theorem sendAcked_parameter (param : Byte) (s : State) :
    sendAcked .parameter param s = (sendCommand param s).within (fun p => { p with which := .parameter }) fun _ t => .done () t :=
  ackLoop_which .command .parameter _ _

end Sys2Proof.Machine
end

