-- ==== Sys2Proof/Laws/Decoder.lean ====
section
/-! SUPPORT. The displacement and the record that the Packet Decoder reads, and the bits of a received frame. -/

namespace Sys2Proof.Machine

/-- The nine-bit register holds the displacement exactly (R27, R151, R152). -/
theorem displacement9_toInt (s : Bool) (m : Byte) : (displacement9 s m).toInt = displacement s m := by
  have h : ∀ b (m : Byte), (displacement9 b m).toInt = if b then (m.toNat : Int) - 256 else m.toNat := by decide
  rw [h]
  cases s <;> rfl

/-- The displacement says the sign bit and the magnitude (R152). -/
theorem displacement_inj {p q : Bool × Byte} (h : displacement p.1 p.2 = displacement q.1 q.2) : p = q := by
  obtain ⟨a, m⟩ := p
  obtain ⟨b, n⟩ := q
  have hm := m.isLt
  have hn := n.isLt
  have hab : a = b ∧ m.toNat = n.toNat := by
    cases a <;> cases b <;> simp [displacement] at h ⊢ <;> omega
  exact Prod.ext hab.1 (BitVec.eq_of_toNat_eq hab.2)

/-- R23: with a filled buffer the decoder reads its three bytes and draws nothing. -/
theorem recordOf_filled {s : State} (h : s.rxcnt = 3) :
    recordOf s = { b0 := Memory.read s.rxbuf 0, b1 := Memory.read s.rxbuf 1, b2 := Memory.read s.rxbuf 2 } ∧
      recordDraws s = s.draws := ⟨if_pos h, if_pos h⟩

/-- A bit that a mask leaves out is 0 in what the mask is disjoint from. -/
theorem getLsbD_of_and_eq_zero {m k : Byte} {i : Nat} (h : m &&& k = 0) (hk : k.getLsbD i = true) : m.getLsbD i = false := by
  have := congrArg (fun x : Byte => x.getLsbD i) h
  simpa [BitVec.getLsbD_and, hk] using this

theorem reverseBits_getLsbD (v : Byte) {k : Nat} (hk : k < 8) : (reverseBits v).getLsbD k = v.getLsbD (7 - k) := by
  revert v k
  decide

/-- The bits of the byte that the decoder reads from the eleven bits of a received frame (R45, R62). -/
theorem frameRx_dataBits (w : BitVec 11) :
    (List.range 8).map (reverseBits (w.extractLsb' 2 8)).getLsbD = (List.range 8).map fun k => w.getLsbD (9 - k) := by
  refine List.map_congr_left fun k hk => ?_
  have h : k < 8 := List.mem_range.1 hk
  rw [reverseBits_getLsbD _ h, BitVec.getLsbD_extractLsb', show 2 + (7 - k) = 9 - k by omega]
  simp
  omega

/-- The eleven bits of a received frame, whatever its start bit, bring the cells of its bits to the block (R62, R106). -/
theorem step_frameRx {s : State} {w : BitVec 11} {rest : List Item} (h : s.inbox = .frameRx w :: rest) :
    step s = .next (deliver ((List.range 11).map fun k => receiveCell (w.getLsbD (10 - k))).flatten { s with inbox := rest }) := by
  have e : step s = match decodeFrameRx w with
      | .ok i => exec i { s with inbox := rest }
      | .error e => execOutsideTable e { s with inbox := rest } := by
    unfold step State.nextItem
    rw [h]
    rfl
  rw [e, decodeFrameRx]
  cases hb : w.getLsbD 10
  · show Host.Outcome.next (deliver (frameRxLevels _ _ _) _) = _
    rw [frameRxLevels, frameRx_dataBits, ← hb]
    rfl
  · show Host.Outcome.next (deliver (misframedLevels _ _ _) _) = _
    rw [misframedLevels, frameRx_dataBits, ← hb]
    rfl

end Sys2Proof.Machine
end

