-- ==== Sys2Proof/Laws/Frames.lean ====
section
/-! SUPPORT. What a sub-operation leaves, however it stands afterwards (done, raised or waiting): the registers it may
write, the growth of the trace, and the kinds of failure it may raise. -/

namespace Sys2Proof.Machine

variable {φ ψ α β : Type}

/-- What holds of a sub-operation in each of the three ways it can stand. -/
def Run.Meets (r : Run φ α) (D : α → State → Prop) (E : ErrKind → State → Prop) (W : φ → State → Prop) : Prop :=
  match r with
  | .done v t => D v t
  | .raised k t => E k t
  | .waiting ph t => W ph t

/-- `F` holds of the state however the sub-operation stands, and `K` of the kind it raises. -/
def Run.Stays (r : Run φ α) (F : State → Prop) (K : ErrKind → Prop) : Prop :=
  r.Meets (fun _ => F) (fun k t => F t ∧ K k) (fun _ => F)

theorem Run.Meets.within {r : Run φ α} {wrap : φ → ψ} {k : α → State → Run ψ β} {D : α → State → Prop}
    {E E' : ErrKind → State → Prop} {W : φ → State → Prop} {D' : β → State → Prop} {W' : ψ → State → Prop}
    (h : r.Meets D E W) (hk : ∀ v t, D v t → (k v t).Meets D' E' W') (he : ∀ e t, E e t → E' e t)
    (hw : ∀ ph t, W ph t → W' (wrap ph) t) : (r.within wrap k).Meets D' E' W' := by
  cases r with
  | done v t => exact hk v t h
  | raised e t => exact he e t h
  | waiting ph t => exact hw ph t h

theorem Run.Stays.within {r : Run φ α} {wrap : φ → ψ} {k : α → State → Run ψ β} {F F' : State → Prop}
    {K K' : ErrKind → Prop} (h : r.Stays F K) (hF : ∀ t, F t → F' t) (hK : ∀ e, K e → K' e)
    (hk : ∀ v t, F t → (k v t).Stays F' K') : (r.within wrap k).Stays F' K' :=
  Run.Meets.within h hk (fun _ t he => ⟨hF t he.1, hK _ he.2⟩) (fun _ t hw => hF t hw)

theorem Run.Stays.mono {r : Run φ α} {F F' : State → Prop} {K K' : ErrKind → Prop} (h : r.Stays F K)
    (hF : ∀ t, F t → F' t) (hK : ∀ e, K e → K' e) : r.Stays F' K' := by
  cases r with
  | done v t => exact hF t h
  | raised e t => exact ⟨hF t h.1, hK e h.2⟩
  | waiting ph t => exact hF t h

/-! `Grows` -/

theorem driveAfter_append (p : Line) (es fs : List Event) (d : Drive) :
    driveAfter p (es ++ fs) d = driveAfter p es (driveAfter p fs d) := by
  induction es with
  | nil => rfl
  | cons e es ih =>
    cases e with
    | read q l => exact ih
    | set q m =>
      simp only [List.cons_append, driveAfter]
      split
      · rfl
      · exact ih
    | delay n => exact ih

theorem Grows.refl (s : State) : Grows s s := ⟨[], [], rfl, rfl, .nil, rfl, rfl⟩

theorem Grows.trans {s t u : State} (h : Grows s t) (g : Grows t u) : Grows s u := by
  obtain ⟨es, v, h1, h2, h3, h4, h5⟩ := h
  obtain ⟨fs, w, g1, g2, g3, g4, g5⟩ := g
  refine ⟨fs ++ es, v ++ w, by rw [g1, h1, List.append_assoc], by rw [h2, g2, List.append_assoc], ?_,
    by rw [g4, h4, driveAfter_append], by rw [g5, h5, driveAfter_append]⟩
  rw [List.reverse_append, List.filter_append]
  exact List.rel_append h3 g3

/-- `Grows` reads only the trace, the answers and the drive registers. -/
theorem Grows.congr {s t s' t' : State} (h : Grows s t) (h1 : s'.trace = s.trace) (h2 : s'.clkDrv = s.clkDrv)
    (h3 : s'.dataDrv = s.dataDrv) (h4 : s'.wire = s.wire) (g1 : t'.trace = t.trace) (g2 : t'.clkDrv = t.clkDrv)
    (g3 : t'.dataDrv = t.dataDrv) (g4 : t'.wire = t.wire) : Grows s' t' := by
  obtain ⟨es, w, e1, e2, e3, e4, e5⟩ := h
  exact ⟨es, w, by rw [g1, e1, h1], by rw [g4, h4, e2], e3, by rw [g2, e4, h2], by rw [g3, e5, h3]⟩

theorem Grows.wire_le {s t : State} (h : Grows s t) : t.wire.length ≤ s.wire.length := by
  obtain ⟨es, w, -, h, -, -, -⟩ := h
  rw [h]
  simp

theorem grows_took {s : State} {p : Line} {l : Levels} {rest : List Levels} (h : s.wire = l :: rest) :
    Grows s (s.took p l rest) :=
  ⟨[.read p (l.at p)], [l], rfl, h, .cons rfl .nil, rfl, rfl⟩

/-- Outputs only. -/
theorem grows_outputs {s t : State} {es : List Event} (h : t.trace = es ++ s.trace) (hw : t.wire = s.wire)
    (hes : es.reverse.filter (fun e => !e.isOutput) = []) (hc : t.clkDrv = driveAfter .clk es s.clkDrv)
    (hd : t.dataDrv = driveAfter .data es s.dataDrv) : Grows s t :=
  ⟨es, [], h, hw.symm, by rw [hes]; exact .nil, hc, hd⟩

theorem grows_pinSet (s : State) (p : Line) (m : Drive) : Grows s (pinSet p m s) := by
  cases p
  · exact grows_outputs (es := [.set .clk m]) rfl rfl rfl rfl rfl
  · exact grows_outputs (es := [.set .data m]) rfl rfl rfl rfl rfl

/-- A clock wait may only time out (R90). -/
def WaitKind (p : Params) (k : ErrKind) : Prop := k = .timeout ∧ p.waitLimit ≠ none

/-! Bit Transport -/

/-- What a clock wait may write (R90). -/
def WaitLeaves (s t : State) : Prop :=
  t = { s with waitcnt := t.waitcnt, wire := t.wire, trace := t.trace } ∧ Grows s t

theorem WaitLeaves.trans {s t u : State} (h : WaitLeaves s t) (g : WaitLeaves t u) : WaitLeaves s u :=
  ⟨g.1.trans (by rw [h.1]), h.2.trans g.2⟩

theorem waitLoop_stays (level : Bool) : ∀ (w : List Levels) (s : State), s.wire = w →
    (waitLoop level w s).Stays (WaitLeaves s) (WaitKind s.params)
  | [], s, _ => ⟨rfl, Grows.refl s⟩
  | l :: rest, s, hs => by
    have h1 : WaitLeaves s { s.took .clk l rest with waitcnt := s.waitcnt + 1 } :=
      ⟨rfl, (grows_took hs).congr rfl rfl rfl rfl rfl rfl rfl rfl⟩
    rw [waitLoop]
    split
    · exact ⟨rfl, grows_took hs⟩
    · split
      · rename_i hex
        refine ⟨h1, rfl, ?_⟩
        intro hn
        have : ({ s.took .clk l rest with waitcnt := s.waitcnt + 1 } : State).params.waitLimit = none := hn
        rw [waitExpired, this] at hex
        cases hex
      · exact (waitLoop_stays level rest _ rfl).mono (fun t ht => h1.trans ht) (fun _ h => h)

theorem waitMore_stays (level : Bool) (s : State) : (waitMore level s).Stays (WaitLeaves s) (WaitKind s.params) :=
  waitLoop_stays level s.wire s rfl

theorem waitClk_stays (level : Bool) (s : State) : (waitClk level s).Stays (WaitLeaves s) (WaitKind s.params) := by
  have h : WaitLeaves s { s with waitcnt := 0 } := ⟨rfl, (Grows.refl s).congr rfl rfl rfl rfl rfl rfl rfl rfl⟩
  exact (waitMore_stays level { s with waitcnt := 0 }).mono (fun t ht => h.trans ht) (fun _ h => h)

/-- What SENDBIT may write (R91). -/
def SendBitLeaves (s t : State) : Prop :=
  t = { s with dataDrv := t.dataDrv, waitcnt := t.waitcnt, wire := t.wire, trace := t.trace } ∧ Grows s t

theorem SendBitLeaves.trans {s t u : State} (h : SendBitLeaves s t) (g : SendBitLeaves t u) : SendBitLeaves s u :=
  ⟨g.1.trans (by rw [h.1]), h.2.trans g.2⟩

theorem WaitLeaves.sendBit {s t : State} (h : WaitLeaves s t) : SendBitLeaves s t :=
  ⟨h.1.trans (by rw [h.1]), h.2⟩

theorem sendBitDrive_stays (b : Bool) (s : State) : (sendBitDrive b s).Stays (SendBitLeaves s) (WaitKind s.params) := by
  have h : SendBitLeaves s (pinSet .data (driveOf b) s) := ⟨rfl, grows_pinSet s .data _⟩
  exact (waitClk_stays true (pinSet .data (driveOf b) s)).within (fun t ht => h.trans ht.sendBit) (fun _ h => h)
    (fun _ t ht => h.trans ht.sendBit)

theorem WaitLeaves.params {s t : State} (h : WaitLeaves s t) : t.params = s.params := by rw [h.1]

theorem sendBit_stays (b : Bool) (s : State) : (sendBit b s).Stays (SendBitLeaves s) (WaitKind s.params) :=
  (waitClk_stays false s).within (fun _ ht => ht.sendBit) (fun _ h => h) (fun _ t ht =>
    (sendBitDrive_stays b t).mono (fun _ hu => ht.sendBit.trans hu) (fun _ h => ht.params ▸ h))

theorem resumeSendBit_stays (p : SendBitPhase) (s : State) :
    (resumeSendBit p s).Stays (SendBitLeaves s) (WaitKind s.params) := by
  cases p with
  | waitLow b =>
    exact (waitMore_stays false s).within (fun _ ht => ht.sendBit) (fun _ h => h) (fun _ t ht =>
      (sendBitDrive_stays b t).mono (fun _ hu => ht.sendBit.trans hu) (fun _ h => ht.params ▸ h))
  | waitHigh => exact (waitMore_stays true s).within (fun _ ht => ht.sendBit) (fun _ h => h) (fun _ _ ht => ht.sendBit)

/-- What RECVBIT may write (R92). -/
def RecvBitLeaves (s t : State) : Prop :=
  t = { s with rxbit := t.rxbit, waitcnt := t.waitcnt, wire := t.wire, trace := t.trace } ∧ Grows s t

theorem RecvBitLeaves.trans {s t u : State} (h : RecvBitLeaves s t) (g : RecvBitLeaves t u) : RecvBitLeaves s u :=
  ⟨g.1.trans (by rw [h.1]), h.2.trans g.2⟩

theorem RecvBitLeaves.params {s t : State} (h : RecvBitLeaves s t) : t.params = s.params := by rw [h.1]

theorem WaitLeaves.recvBit {s t : State} (h : WaitLeaves s t) : RecvBitLeaves s t :=
  ⟨h.1.trans (by rw [h.1]), h.2⟩

theorem recvBitHigh_stays (s : State) : (recvBitHigh s).Stays (RecvBitLeaves s) (WaitKind s.params) :=
  (waitClk_stays true s).within (fun _ ht => ht.recvBit) (fun _ h => h) (fun _ _ ht => ht.recvBit)

theorem recvBitSample_stays (s : State) : (recvBitSample s).Stays (RecvBitLeaves s) (WaitKind s.params) := by
  unfold recvBitSample pinRead
  cases hs : s.wire with
  | nil => exact ⟨rfl, Grows.refl s⟩
  | cons l rest =>
    have h : RecvBitLeaves s { s.took .data l rest with rxbit := l.at .data } :=
      ⟨rfl, (grows_took hs).congr rfl rfl rfl rfl rfl rfl rfl rfl⟩
    exact (recvBitHigh_stays { s.took .data l rest with rxbit := l.at .data }).mono (fun _ ht => h.trans ht) (fun _ h => h)

theorem recvBit_stays (s : State) : (recvBit s).Stays (RecvBitLeaves s) (WaitKind s.params) :=
  (waitClk_stays false s).within (fun _ ht => ht.recvBit) (fun _ h => h) (fun _ t ht =>
    (recvBitSample_stays t).mono (fun _ hu => ht.recvBit.trans hu) (fun _ h => ht.params ▸ h))

theorem resumeRecvBit_stays (p : RecvBitPhase) (s : State) :
    (resumeRecvBit p s).Stays (RecvBitLeaves s) (WaitKind s.params) := by
  cases p with
  | waitLow =>
    exact (waitMore_stays false s).within (fun _ ht => ht.recvBit) (fun _ h => h) (fun _ t ht =>
      (recvBitSample_stays t).mono (fun _ hu => ht.recvBit.trans hu) (fun _ h => ht.params ▸ h))
  | sample => exact recvBitSample_stays s
  | waitHigh => exact (waitMore_stays true s).within (fun _ ht => ht.recvBit) (fun _ h => h) (fun _ _ ht => ht.recvBit)

/-! Byte Framer -/

/-- What SENDBYTE may write (R100). -/
def SendByteLeaves (s t : State) : Prop :=
  t = { s with txr := t.txr, par := t.par, bitcnt := t.bitcnt, ackbit := t.ackbit, clkDrv := t.clkDrv, dataDrv := t.dataDrv
               waitcnt := t.waitcnt, rxbit := t.rxbit, wire := t.wire, trace := t.trace } ∧ Grows s t

theorem SendByteLeaves.trans {s t u : State} (h : SendByteLeaves s t) (g : SendByteLeaves t u) : SendByteLeaves s u :=
  ⟨g.1.trans (by rw [h.1]), h.2.trans g.2⟩

theorem SendByteLeaves.params {s t : State} (h : SendByteLeaves s t) : t.params = s.params := by rw [h.1]

theorem SendBitLeaves.sendByte {s t : State} (h : SendBitLeaves s t) : SendByteLeaves s t :=
  ⟨h.1.trans (by rw [h.1]), h.2⟩

theorem RecvBitLeaves.sendByte {s t : State} (h : RecvBitLeaves s t) : SendByteLeaves s t :=
  ⟨h.1.trans (by rw [h.1]), h.2⟩

/-- SENDBYTE raises `Nak`, or `Timeout` from a wait (R100). -/
def SendByteKind (p : Params) (k : ErrKind) : Prop := k = .nak ∨ WaitKind p k

theorem ackDecide_stays (a : Bool) (s : State) : (ackDecide a s).Stays (SendByteLeaves s) (SendByteKind s.params) := by
  have h : SendByteLeaves s { s with ackbit := a } := ⟨rfl, (Grows.refl s).congr rfl rfl rfl rfl rfl rfl rfl rfl⟩
  cases a
  · exact h
  · exact ⟨h, .inl rfl⟩

theorem sendAck_stays (s : State) : (sendAck s).Stays (SendByteLeaves s) (SendByteKind s.params) := by
  have h : SendByteLeaves s (pinSet .data .inFloat s) := ⟨rfl, grows_pinSet s .data _⟩
  exact (recvBit_stays (pinSet .data .inFloat s)).within (fun _ ht => h.trans ht.sendByte) (fun _ h => .inr h)
    (fun a t ht => (ackDecide_stays a t).mono (fun _ hu => (h.trans ht.sendByte).trans hu) (fun _ g => ht.params ▸ g))

theorem sendAccumulate_leaves (s : State) : SendByteLeaves s (sendAccumulate s) := by
  unfold sendAccumulate
  split
  · exact ⟨rfl, (Grows.refl s).congr rfl rfl rfl rfl rfl rfl rfl rfl⟩
  · exact ⟨rfl, Grows.refl s⟩

theorem nextCell_leaves (s : State) : SendByteLeaves s (nextCell s) :=
  ⟨rfl, (Grows.refl s).congr rfl rfl rfl rfl rfl rfl rfl rfl⟩

theorem sendCells_stays : ∀ (n : Nat) (s : State), (sendCells n s).Stays (SendByteLeaves s) (SendByteKind s.params)
  | 0, s => sendAck_stays s
  | n + 1, s => by
    have h := sendAccumulate_leaves s
    refine (sendBit_stays (sendCellBit s) (sendAccumulate s)).within (fun _ ht => h.trans ht.sendByte)
      (fun _ g => .inr (h.params ▸ g)) (fun _ t ht => ?_)
    have h2 := (h.trans ht.sendByte).trans (nextCell_leaves t)
    exact (sendCells_stays n (nextCell t)).mono (fun _ hu => h2.trans hu) (fun _ g => h2.params ▸ g)

theorem sendStart_leaves (v : Byte) (s : State) : SendByteLeaves s (sendStart v s) :=
  ⟨rfl, grows_outputs (es := [.set .clk .inPullup, .set .data .outLow, .delay Config.inhibitUs, .set .clk .outLow]) rfl rfl rfl
    rfl rfl⟩

theorem sendByte_stays (v : Byte) (s : State) : (sendByte v s).Stays (SendByteLeaves s) (SendByteKind s.params) :=
  (sendCells_stays 10 (sendStart v s)).mono (fun _ ht => (sendStart_leaves v s).trans ht) (fun _ g => g)

theorem resumeSendByte_stays (p : SendBytePhase) (s : State) :
    (resumeSendByte p s).Stays (SendByteLeaves s) (SendByteKind s.params) := by
  cases p with
  | cell bit =>
    refine (resumeSendBit_stays bit s).within (fun _ ht => ht.sendByte) (fun _ g => .inr g) (fun _ t ht => ?_)
    have h2 := ht.sendByte.trans (nextCell_leaves t)
    exact (sendCells_stays _ (nextCell t)).mono (fun _ hu => h2.trans hu) (fun _ g => h2.params ▸ g)
  | ack bit =>
    exact (resumeRecvBit_stays bit s).within (fun _ ht => ht.sendByte) (fun _ g => .inr g)
      (fun a t ht => (ackDecide_stays a t).mono (fun _ hu => ht.sendByte.trans hu) (fun _ g => ht.params ▸ g))

/-- What RECVBYTE may write (R105). -/
def RecvByteLeaves (s t : State) : Prop :=
  t = { s with clkDrv := t.clkDrv, dataDrv := t.dataDrv, bitcnt := t.bitcnt, rxr := t.rxr, par := t.par, rxbit := t.rxbit
               waitcnt := t.waitcnt, wire := t.wire, trace := t.trace } ∧ Grows s t

theorem RecvByteLeaves.trans {s t u : State} (h : RecvByteLeaves s t) (g : RecvByteLeaves t u) : RecvByteLeaves s u :=
  ⟨g.1.trans (by rw [h.1]), h.2.trans g.2⟩

theorem RecvByteLeaves.params {s t : State} (h : RecvByteLeaves s t) : t.params = s.params := by rw [h.1]

theorem RecvBitLeaves.recvByte {s t : State} (h : RecvBitLeaves s t) : RecvByteLeaves s t :=
  ⟨h.1.trans (by rw [h.1]), h.2⟩

/-- RECVBYTE raises `Framing`, `Parity` where it is checked, or `Timeout` from a wait (R105). -/
def RecvByteKind (p : Params) (k : ErrKind) : Prop :=
  k = .framing ∨ (k = .parity ∧ p.checkParity = true) ∨ WaitKind p k

theorem frameCheck_kind {p t : Bool} {s : State} {k : ErrKind} (h : frameCheck p t s = some k) : RecvByteKind s.params k := by
  unfold frameCheck at h
  split at h
  · rename_i hp
    cases h
    exact .inr (.inl ⟨rfl, (Bool.and_eq_true _ _ ▸ hp).1⟩)
  · split at h
    · cases h
      exact .inl rfl
    · cases h

theorem recvFinish_stays (p t : Bool) (s : State) : (recvFinish p t s).Stays (RecvByteLeaves s) (RecvByteKind s.params) := by
  unfold recvFinish
  split
  · rename_i k hk
    exact ⟨⟨rfl, Grows.refl s⟩, frameCheck_kind hk⟩
  · exact ⟨rfl, Grows.refl s⟩

theorem recvStop_stays (p : Bool) (s : State) : (recvStop p s).Stays (RecvByteLeaves s) (RecvByteKind s.params) := by
  have h : RecvByteLeaves s { s with bitcnt := 10 } := ⟨rfl, (Grows.refl s).congr rfl rfl rfl rfl rfl rfl rfl rfl⟩
  exact (recvBit_stays { s with bitcnt := 10 }).within (fun _ ht => h.trans ht.recvByte) (fun _ g => .inr (.inr g))
    (fun a t ht => (recvFinish_stays p a t).mono (fun _ hu => (h.trans ht.recvByte).trans hu) (fun _ g => ht.params ▸ g))

theorem storeBit_leaves (b : Bool) (s : State) : RecvByteLeaves s (storeBit b s) :=
  ⟨rfl, (Grows.refl s).congr rfl rfl rfl rfl rfl rfl rfl rfl⟩

theorem recvData_stays : ∀ (n : Nat) (s : State), (recvData n s).Stays (RecvByteLeaves s) (RecvByteKind s.params)
  | 0, s => (recvBit_stays s).within (fun _ ht => ht.recvByte) (fun _ g => .inr (.inr g)) (fun p t ht =>
      (recvStop_stays p t).mono (fun _ hu => ht.recvByte.trans hu) (fun _ g => ht.params ▸ g))
  | n + 1, s => by
    refine (recvBit_stays s).within (fun _ ht => ht.recvByte) (fun _ g => .inr (.inr g)) (fun b t ht => ?_)
    have h2 := ht.recvByte.trans (storeBit_leaves b t)
    exact (recvData_stays n (storeBit b t)).mono (fun _ hu => h2.trans hu) (fun _ g => h2.params ▸ g)

theorem recvStart_stays (b : Bool) (s : State) : (recvStart b s).Stays (RecvByteLeaves s) (RecvByteKind s.params) := by
  have h : RecvByteLeaves s { s with rxr := 0, par := parityStart, bitcnt := 1 } :=
    ⟨rfl, (Grows.refl s).congr rfl rfl rfl rfl rfl rfl rfl rfl⟩
  cases b
  · exact (recvData_stays 8 { s with rxr := 0, par := parityStart, bitcnt := 1 }).mono (fun _ ht => h.trans ht) (fun _ g => g)
  · exact ⟨⟨rfl, Grows.refl s⟩, .inl rfl⟩

theorem recvOpen_leaves (s : State) : RecvByteLeaves s (recvOpen s) :=
  ⟨rfl, grows_outputs (es := [.set .data .inFloat, .set .clk .inFloat]) rfl rfl rfl rfl rfl⟩

theorem recvByte_stays (s : State) : (recvByte s).Stays (RecvByteLeaves s) (RecvByteKind s.params) := by
  have h := recvOpen_leaves s
  exact (recvBit_stays (recvOpen s)).within (fun _ ht => h.trans ht.recvByte) (fun _ g => .inr (.inr g))
    (fun b t ht => (recvStart_stays b t).mono (fun _ hu => (h.trans ht.recvByte).trans hu) (fun _ g => ht.params ▸ g))

theorem recvAfterCell_stays (b : Bool) (s : State) :
    (recvAfterCell b s).Stays (RecvByteLeaves s) (RecvByteKind s.params) := by
  unfold recvAfterCell
  split
  · exact recvStart_stays b s
  · split
    · have h := storeBit_leaves b s
      exact (recvData_stays _ (storeBit b s)).mono (fun _ ht => h.trans ht) (fun _ g => g)
    · exact recvStop_stays b s

theorem resumeRecvByte_stays (p : RecvBytePhase) (s : State) :
    (resumeRecvByte p s).Stays (RecvByteLeaves s) (RecvByteKind s.params) := by
  cases p with
  | cell bit =>
    exact (resumeRecvBit_stays bit s).within (fun _ ht => ht.recvByte) (fun _ g => .inr (.inr g))
      (fun b t ht => (recvAfterCell_stays b t).mono (fun _ hu => ht.recvByte.trans hu) (fun _ g => ht.params ▸ g))
  | stop p bit =>
    exact (resumeRecvBit_stays bit s).within (fun _ ht => ht.recvByte) (fun _ g => .inr (.inr g))
      (fun a t ht => (recvFinish_stays p a t).mono (fun _ hu => ht.recvByte.trans hu) (fun _ g => ht.params ▸ g))

/-! Command Protocol -/

/-- What SENDCMD and SENDCMDP may write (R120, R121). -/
def CommandLeaves (s t : State) : Prop :=
  t = { s with cmdr := t.cmdr, ackr := t.ackr, retry := t.retry, txr := t.txr, rxr := t.rxr, par := t.par
               bitcnt := t.bitcnt, ackbit := t.ackbit, rxbit := t.rxbit, clkDrv := t.clkDrv, dataDrv := t.dataDrv
               waitcnt := t.waitcnt, wire := t.wire, trace := t.trace } ∧ Grows s t

theorem CommandLeaves.refl (s : State) : CommandLeaves s s := ⟨rfl, Grows.refl s⟩

theorem CommandLeaves.trans {s t u : State} (h : CommandLeaves s t) (g : CommandLeaves t u) : CommandLeaves s u :=
  ⟨g.1.trans (by rw [h.1]), h.2.trans g.2⟩

theorem CommandLeaves.params {s t : State} (h : CommandLeaves s t) : t.params = s.params := by rw [h.1]

theorem SendByteLeaves.command {s t : State} (h : SendByteLeaves s t) : CommandLeaves s t :=
  ⟨h.1.trans (by rw [h.1]), h.2⟩

theorem RecvByteLeaves.command {s t : State} (h : RecvByteLeaves s t) : CommandLeaves s t :=
  ⟨h.1.trans (by rw [h.1]), h.2⟩

/-- The kinds of a command: those of its bytes, `Protocol`, and `RetryExhausted` where there is a limit (R120). -/
def CommandKind (p : Params) (k : ErrKind) : Prop :=
  k = .protocol ∨ (k = .retryExhausted ∧ p.resendLimit ≠ none) ∨ SendByteKind p k ∨ RecvByteKind p k

theorem pauseSend_stays (which : WhichByte) (s : State) :
    (pauseSend which s).Stays (CommandLeaves s) (CommandKind s.params) := by
  have h := ((sendStart_leaves s.cmdr s).trans (sendAccumulate_leaves _)).command
  have h2 : CommandLeaves (sendAccumulate (sendStart s.cmdr s)) { sendAccumulate (sendStart s.cmdr s) with waitcnt := 0 } :=
    ⟨rfl, (Grows.refl _).congr rfl rfl rfl rfl rfl rfl rfl rfl⟩
  exact h.trans h2

theorem ackCompare_stays {again : State → Run CommandPhase Unit}
    (ha : ∀ s, (again s).Stays (CommandLeaves s) (CommandKind s.params)) (r : Byte) (s : State) :
    (ackCompare again r s).Stays (CommandLeaves s) (CommandKind s.params) := by
  have h1 : CommandLeaves s { s with ackr := r } := ⟨rfl, (Grows.refl s).congr rfl rfl rfl rfl rfl rfl rfl rfl⟩
  have h2 : CommandLeaves s { s with ackr := r, retry := s.retry + 1 } :=
    ⟨rfl, (Grows.refl s).congr rfl rfl rfl rfl rfl rfl rfl rfl⟩
  unfold ackCompare
  split
  · split
    · rename_i hex
      refine ⟨h2, .inr (.inl ⟨rfl, ?_⟩)⟩
      intro hn
      rw [resendExpired, show ({ s with ackr := r, retry := s.retry + 1 } : State).params.resendLimit = none from hn] at hex
      cases hex
    · exact (ha _).mono (fun _ ht => h2.trans ht) (fun _ g => g)
  · split
    · exact h1
    · exact ⟨h1, .inl rfl⟩

theorem ackReceive_stays {which : WhichByte} {again : State → Run CommandPhase Unit}
    (ha : ∀ s, (again s).Stays (CommandLeaves s) (CommandKind s.params)) (s : State) :
    (ackReceive which again s).Stays (CommandLeaves s) (CommandKind s.params) :=
  (recvByte_stays s).within (fun _ ht => ht.command) (fun _ g => .inr (.inr (.inr g)))
    (fun r t ht => (ackCompare_stays ha r t).mono (fun _ hu => ht.command.trans hu) (fun _ g => ht.params ▸ g))

theorem ackLoop_stays (which : WhichByte) : ∀ (fuel : Nat) (s : State),
    (ackLoop fuel which s).Stays (CommandLeaves s) (CommandKind s.params)
  | 0, s => pauseSend_stays which s
  | fuel + 1, s =>
    (sendByte_stays s.cmdr s).within (fun _ ht => ht.command) (fun _ g => .inr (.inr (.inl g)))
      (fun _ t ht => (ackReceive_stays (ackLoop_stays which fuel) t).mono (fun _ hu => ht.command.trans hu)
        (fun _ g => ht.params ▸ g))

theorem sendAcked_stays (which : WhichByte) (x : Byte) (s : State) :
    (sendAcked which x s).Stays (CommandLeaves s) (CommandKind s.params) := by
  have h : CommandLeaves s { s with cmdr := x, retry := 0 } := ⟨rfl, (Grows.refl s).congr rfl rfl rfl rfl rfl rfl rfl rfl⟩
  exact (ackLoop_stays which (ackFuel s) { s with cmdr := x, retry := 0 }).mono (fun _ ht => h.trans ht) (fun _ g => g)

theorem sendCommand_stays (code : Byte) (s : State) :
    (sendCommand code s).Stays (CommandLeaves s) (CommandKind s.params) := sendAcked_stays .command code s

theorem afterAcked_stays (which : WhichByte) (s : State) :
    (afterAcked which s).Stays (CommandLeaves s) (CommandKind s.params) := by
  cases which with
  | command => exact CommandLeaves.refl s
  | commandThen param => exact sendAcked_stays .parameter param s
  | parameter => exact CommandLeaves.refl s

theorem sendCommandP_stays (code param : Byte) (s : State) :
    (sendCommandP code param s).Stays (CommandLeaves s) (CommandKind s.params) :=
  (sendAcked_stays (.commandThen param) code s).within (fun _ ht => ht) (fun _ g => g)
    (fun _ t ht => (afterAcked_stays _ t).mono (fun _ hu => ht.trans hu) (fun _ g => ht.params ▸ g))

theorem resumeAcked_stays (p : CommandPhase) (s : State) :
    (resumeAcked p s).Stays (CommandLeaves s) (CommandKind s.params) := by
  unfold resumeAcked
  split
  · exact (resumeSendByte_stays _ s).within (fun _ ht => ht.command) (fun _ g => .inr (.inr (.inl g)))
      (fun _ t ht => (ackReceive_stays (ackLoop_stays p.which _) t).mono (fun _ hu => ht.command.trans hu)
        (fun _ g => ht.params ▸ g))
  · exact (resumeRecvByte_stays _ s).within (fun _ ht => ht.command) (fun _ g => .inr (.inr (.inr g)))
      (fun r t ht => (ackCompare_stays (ackLoop_stays p.which _) r t).mono (fun _ hu => ht.command.trans hu)
        (fun _ g => ht.params ▸ g))

theorem resumeCommand_stays (p : CommandPhase) (s : State) :
    (resumeCommand p s).Stays (CommandLeaves s) (CommandKind s.params) :=
  (resumeAcked_stays p s).within (fun _ ht => ht) (fun _ g => g)
    (fun _ t ht => (afterAcked_stays _ t).mono (fun _ hu => ht.trans hu) (fun _ g => ht.params ▸ g))

/-! RECV3 -/

/-- What RECV3 may write (R131): the bytes it stores lie below `RXCNT`, and the buffer keeps its form. -/
def RecordLeaves (s t : State) : Prop :=
  t = { s with rxbuf := t.rxbuf, rxcnt := t.rxcnt, clkDrv := t.clkDrv, dataDrv := t.dataDrv, bitcnt := t.bitcnt
               rxr := t.rxr, par := t.par, rxbit := t.rxbit, waitcnt := t.waitcnt, wire := t.wire, trace := t.trace }
    ∧ Grows s t ∧ s.rxcnt.toNat ≤ t.rxcnt.toNat
    ∧ (∀ a, t.rxcnt.toNat ≤ a → Memory.read t.rxbuf a = Memory.read s.rxbuf a)
    ∧ (Memory.wf s.rxbuf = true → Memory.wf t.rxbuf = true)

theorem RecordLeaves.trans {s t u : State} (h : RecordLeaves s t) (g : RecordLeaves t u) : RecordLeaves s u := by
  obtain ⟨h1, h2, h3, h4, h5⟩ := h
  obtain ⟨g1, g2, g3, g4, g5⟩ := g
  exact ⟨g1.trans (by rw [h1]), h2.trans g2, h3.trans g3, fun a ha => (g4 a ha).trans (h4 a (g3.trans ha)), fun hw => g5 (h5 hw)⟩

theorem RecordLeaves.params {s t : State} (h : RecordLeaves s t) : t.params = s.params := by rw [h.1]

theorem RecordLeaves.of {s t : State} (h : RecvByteLeaves s t) : RecordLeaves s t := by
  have hb : t.rxbuf = s.rxbuf := by rw [h.1]
  have hc : t.rxcnt = s.rxcnt := by rw [h.1]
  exact ⟨h.1.trans (by rw [h.1]), h.2, by rw [hc], fun a _ => by rw [hb], fun hw => by rw [hb]; exact hw⟩

theorem storeByte_leaves {i : Fin 3} {s : State} (r : Byte) (h : s.rxcnt.toNat = i.val) : RecordLeaves s (storeByte i r s) := by
  have hi := i.isLt
  have hc : (storeByte i r s).rxcnt.toNat = i.val + 1 := by simp [storeByte]; omega
  refine ⟨rfl, (Grows.refl s).congr rfl rfl rfl rfl rfl rfl rfl rfl, by rw [hc, h]; omega, fun a ha => ?_, fun hw => ?_⟩
  · rw [hc] at ha
    exact Memory.read_write_other (by omega)
  · exact Memory.write_wf hw (by omega)

theorem recvBytes_meets : ∀ (n : Nat) (s : State), n ≤ 3 → s.rxcnt.toNat = 3 - n →
    (recvBytes n s).Meets (fun _ t => RecordLeaves s t ∧ t.rxcnt = 3) (fun k t => RecordLeaves s t ∧ RecvByteKind s.params k)
      (fun _ t => RecordLeaves s t)
  | 0, s, _, hc => ⟨.of ⟨rfl, Grows.refl s⟩, BitVec.eq_of_toNat_eq hc⟩
  | n + 1, s, hn, hc => by
    have hi : (recvIndex n).val = 2 - n := by simp [recvIndex, Fin.ofNat]; omega
    refine Run.Meets.within (recvByte_stays s) (fun r t ht => ?_) (fun k t hk => ⟨.of hk.1, hk.2⟩) (fun ph t hw => .of hw)
    have htc : t.rxcnt = s.rxcnt := by rw [ht.1]
    have h2 := (RecordLeaves.of ht).trans (storeByte_leaves (i := recvIndex n) r (by rw [htc, hc, hi]; omega))
    have hrec := recvBytes_meets n (storeByte (recvIndex n) r t) (by omega)
      (by simp only [storeByte, BitVec.toNat_ofNat, hi]; omega)
    cases hr : recvBytes n (storeByte (recvIndex n) r t) with
    | done v u => rw [hr] at hrec; exact ⟨h2.trans hrec.1, hrec.2⟩
    | raised k u => rw [hr] at hrec; exact ⟨h2.trans hrec.1, h2.params ▸ hrec.2⟩
    | waiting ph u => rw [hr] at hrec; exact h2.trans hrec

/-- RECV3 clears `RXCNT` and then stores below it; when it returns `RXCNT` is 3 (R131). -/
theorem recv3_meets (s : State) :
    (recv3 s).Meets (fun _ t => RecordLeaves { s with rxcnt := 0 } t ∧ t.rxcnt = 3)
      (fun k t => RecordLeaves { s with rxcnt := 0 } t ∧ RecvByteKind s.params k)
      (fun _ t => RecordLeaves { s with rxcnt := 0 } t) :=
  recvBytes_meets 3 { s with rxcnt := 0 } (by omega) rfl

/-- What a RECV3 may write from any place in it. -/
def BufferLeaves (s t : State) : Prop :=
  t = { s with rxbuf := t.rxbuf, rxcnt := t.rxcnt, clkDrv := t.clkDrv, dataDrv := t.dataDrv, bitcnt := t.bitcnt
               rxr := t.rxr, par := t.par, rxbit := t.rxbit, waitcnt := t.waitcnt, wire := t.wire, trace := t.trace }
    ∧ Grows s t ∧ (Memory.wf s.rxbuf = true → Memory.wf t.rxbuf = true)

theorem BufferLeaves.trans {s t u : State} (h : BufferLeaves s t) (g : BufferLeaves t u) : BufferLeaves s u :=
  ⟨g.1.trans (by rw [h.1]), h.2.1.trans g.2.1, fun hw => g.2.2 (h.2.2 hw)⟩

theorem BufferLeaves.params {s t : State} (h : BufferLeaves s t) : t.params = s.params := by rw [h.1]

theorem RecvByteLeaves.buffer {s t : State} (h : RecvByteLeaves s t) : BufferLeaves s t := by
  have hb : t.rxbuf = s.rxbuf := by rw [h.1]
  exact ⟨h.1.trans (by rw [h.1]), h.2, fun hw => by rw [hb]; exact hw⟩

theorem RecordLeaves.buffer {s t : State} (h : RecordLeaves s t) : BufferLeaves s t := ⟨h.1, h.2.1, h.2.2.2.2⟩

theorem storeByte_buffer (i : Fin 3) (r : Byte) (s : State) : BufferLeaves s (storeByte i r s) :=
  ⟨rfl, (Grows.refl s).congr rfl rfl rfl rfl rfl rfl rfl rfl, fun hw => Memory.write_wf hw i.isLt⟩

theorem resumeRecv3_meets (p : Recv3Phase) (s : State) :
    (resumeRecv3 p s).Meets (fun _ t => BufferLeaves s t ∧ t.rxcnt = 3)
      (fun k t => BufferLeaves s t ∧ RecvByteKind s.params k) (fun _ t => BufferLeaves s t) := by
  refine Run.Meets.within (resumeRecvByte_stays p.byte s) (fun r t ht => ?_) (fun k t hk => ⟨hk.1.buffer, hk.2⟩)
    (fun ph t hw => hw.buffer)
  have h2 := ht.buffer.trans (storeByte_buffer p.index r t)
  have hlt := p.index.isLt
  have hrec := recvBytes_meets (2 - p.index.val) (storeByte p.index r t) (by omega)
    (by simp only [storeByte, BitVec.toNat_ofNat]; omega)
  cases hr : recvBytes (2 - p.index.val) (storeByte p.index r t) with
  | done v u => rw [hr] at hrec; exact ⟨h2.trans hrec.1.buffer, hrec.2⟩
  | raised k u => rw [hr] at hrec; exact ⟨h2.trans hrec.1.buffer, h2.params ▸ hrec.2⟩
  | waiting ph u => rw [hr] at hrec; exact h2.trans hrec.buffer

/-! Device Session -/

/-- What the Device Session operations may write. No free value is drawn: the decoder runs on a filled buffer. -/
def SessionLeaves (s t : State) : Prop :=
  t = { s with cmdr := t.cmdr, ackr := t.ackr, retry := t.retry, txr := t.txr, rxr := t.rxr, par := t.par
               bitcnt := t.bitcnt, ackbit := t.ackbit, rxbit := t.rxbit, clkDrv := t.clkDrv, dataDrv := t.dataDrv
               waitcnt := t.waitcnt, wire := t.wire, trace := t.trace, rxbuf := t.rxbuf, rxcnt := t.rxcnt
               session := t.session, st := t.st, mv := t.mv }
    ∧ Grows s t ∧ (Memory.wf s.rxbuf = true → Memory.wf t.rxbuf = true)

theorem SessionLeaves.refl (s : State) : SessionLeaves s s := ⟨rfl, Grows.refl s, id⟩

theorem SessionLeaves.trans {s t u : State} (h : SessionLeaves s t) (g : SessionLeaves t u) : SessionLeaves s u :=
  ⟨g.1.trans (by rw [h.1]), h.2.1.trans g.2.1, fun hw => g.2.2 (h.2.2 hw)⟩

theorem SessionLeaves.params {s t : State} (h : SessionLeaves s t) : t.params = s.params := by rw [h.1]

theorem CommandLeaves.session {s t : State} (h : CommandLeaves s t) : SessionLeaves s t := by
  have hb : t.rxbuf = s.rxbuf := by rw [h.1]
  exact ⟨h.1.trans (by rw [h.1]), h.2, fun hw => by rw [hb]; exact hw⟩

theorem RecvByteLeaves.session {s t : State} (h : RecvByteLeaves s t) : SessionLeaves s t := h.command.session

theorem BufferLeaves.session {s t : State} (h : BufferLeaves s t) : SessionLeaves s t :=
  ⟨h.1.trans (by rw [h.1]), h.2.1, h.2.2⟩

/-- The kinds of a Device Session operation (R132 to R141). -/
def SessionKind (p : Params) (k : ErrKind) : Prop := k = .noData ∨ CommandKind p k

theorem RecvByteKind.session {p : Params} {k : ErrKind} (h : RecvByteKind p k) : SessionKind p k :=
  .inr (.inr (.inr (.inr h)))

/-- A Device Session operation from some place on: what it leaves, and `SESSION` after it: `A true` on success, `B` on a
raise, the same value while it waits, the phase then keeping `A`. -/
def SessionMeets (A : Bool → Session → Session) (B : Session → Session) (s : State) (r : Run SessionPhase Unit) : Prop :=
  r.Meets (fun _ t => SessionLeaves s t ∧ t.session = A true s.session)
    (fun k t => SessionLeaves s t ∧ SessionKind s.params k ∧ t.session = B s.session)
    (fun ph t => SessionLeaves s t ∧ t.session = s.session ∧ ph.sessionAfter = A)

theorem SessionMeets.after {A : Bool → Session → Session} {B : Session → Session} {s t : State} {r : Run SessionPhase Unit}
    (h : SessionMeets A B t r) (hl : SessionLeaves s t) (hs : t.session = s.session) : SessionMeets A B s r := by
  cases r with
  | done v u => exact ⟨hl.trans h.1, hs ▸ h.2⟩
  | raised k u => exact ⟨hl.trans h.1, hl.params ▸ h.2.1, hs ▸ h.2.2⟩
  | waiting ph u => exact ⟨hl.trans h.1, hs ▸ h.2.1, h.2.2⟩

theorem CommandLeaves.keepsSession {s t : State} (h : CommandLeaves s t) : t.session = s.session := by rw [h.1]

theorem RecvByteLeaves.keepsSession {s t : State} (h : RecvByteLeaves s t) : t.session = s.session := by rw [h.1]

theorem BufferLeaves.keepsSession {s t : State} (h : BufferLeaves s t) : t.session = s.session := by rw [h.1]

theorem SessionMeets.ofCommand {A : Bool → Session → Session} {s : State} {r : Run CommandPhase Unit}
    {wrap : CommandPhase → SessionPhase} {k : Unit → State → Run SessionPhase Unit}
    (h : r.Stays (CommandLeaves s) (CommandKind s.params)) (hw : ∀ ph, (wrap ph).sessionAfter = A)
    (hk : ∀ t, SessionMeets A id t (k () t)) : SessionMeets A id s (r.within wrap k) :=
  Run.Meets.within h (fun _ t ht => (hk t).after ht.session ht.keepsSession)
    (fun _ _ ht => ⟨ht.1.session, .inr ht.2, ht.1.keepsSession⟩) (fun ph _ ht => ⟨ht.session, ht.keepsSession, hw ph⟩)

theorem SessionMeets.ofRecvByte {A : Bool → Session → Session} {s : State} {r : Run RecvBytePhase Byte}
    {wrap : RecvBytePhase → SessionPhase} {k : Byte → State → Run SessionPhase Unit}
    (h : r.Stays (RecvByteLeaves s) (RecvByteKind s.params)) (hw : ∀ ph, (wrap ph).sessionAfter = A)
    (hk : ∀ v t, SessionMeets A id t (k v t)) : SessionMeets A id s (r.within wrap k) :=
  Run.Meets.within h (fun v t ht => (hk v t).after ht.session ht.keepsSession)
    (fun _ _ ht => ⟨ht.1.session, ht.2.session, ht.1.keepsSession⟩) (fun ph _ ht => ⟨ht.session, ht.keepsSession, hw ph⟩)

theorem SessionMeets.ofRecord {A : Bool → Session → Session} {s : State} {r : Run Recv3Phase Unit}
    {wrap : Recv3Phase → SessionPhase} {k : Unit → State → Run SessionPhase Unit}
    (h : r.Meets (fun _ t => BufferLeaves s t ∧ t.rxcnt = 3) (fun k t => BufferLeaves s t ∧ RecvByteKind s.params k)
      (fun _ t => BufferLeaves s t)) (hw : ∀ ph, (wrap ph).sessionAfter = A)
    (hk : ∀ t, t.rxcnt = 3 → SessionMeets A id t (k () t)) : SessionMeets A id s (r.within wrap k) :=
  Run.Meets.within h (fun _ t ht => (hk t ht.2).after ht.1.session ht.1.keepsSession)
    (fun _ _ ht => ⟨ht.1.session, ht.2.session, ht.1.keepsSession⟩) (fun ph _ ht => ⟨ht.session, ht.keepsSession, hw ph⟩)

theorem recv3_buffer (s : State) :
    (recv3 s).Meets (fun _ t => BufferLeaves s t ∧ t.rxcnt = 3) (fun k t => BufferLeaves s t ∧ RecvByteKind s.params k)
      (fun _ t => BufferLeaves s t) := by
  have h0 : BufferLeaves s { s with rxcnt := 0 } := ⟨rfl, (Grows.refl s).congr rfl rfl rfl rfl rfl rfl rfl rfl, id⟩
  have h := recv3_meets s
  cases hr : recv3 s with
  | done v u => rw [hr] at h; exact ⟨h0.trans h.1.buffer, h.2⟩
  | raised k u => rw [hr] at h; exact ⟨h0.trans h.1.buffer, h.2⟩
  | waiting ph u => rw [hr] at h; exact h0.trans h.buffer

theorem SessionMeets.stop {A : Bool → Session → Session} {s : State} {k : ErrKind} (hk : SessionKind s.params k) :
    SessionMeets A id s (.raised k s) := ⟨SessionLeaves.refl s, hk, rfl⟩

theorem SessionMeets.onRaise {A : Bool → Session → Session} {s : State} {r : Run SessionPhase Unit} {s0 : Session}
    (h : SessionMeets A id s r) : SessionMeets A (fun _ => s0) s (r.onRaise (restoreSession s0)) := by
  have hl : ∀ u : State, SessionLeaves u (restoreSession s0 u) :=
    fun u => ⟨rfl, (Grows.refl u).congr rfl rfl rfl rfl rfl rfl rfl rfl, id⟩
  cases r with
  | done v u => exact h
  | raised k u => exact ⟨h.1.trans (hl u), h.2.1, rfl⟩
  | waiting ph u => exact h

/-- `SESSION` after a RESET (R132). -/
def afterReset (ok : Bool) (now : Session) : Session := if ok then .remoteIdle else now

theorem resetDone_meets (s : State) : SessionMeets afterReset id s (resetDone s) :=
  ⟨⟨rfl, (Grows.refl s).congr rfl rfl rfl rfl rfl rfl rfl rfl, id⟩, rfl⟩

theorem resetEnable_meets (s : State) : SessionMeets afterReset id s (resetEnable s) :=
  .ofCommand (sendCommand_stays _ s) (fun _ => rfl) resetDone_meets

theorem resetRemote_meets (s : State) : SessionMeets afterReset id s (resetRemote s) :=
  .ofCommand (sendCommand_stays _ s) (fun _ => rfl) resetEnable_meets

theorem resetIdentity_meets (r : Byte) (s : State) : SessionMeets afterReset id s (resetIdentity r s) := by
  unfold resetIdentity
  split
  · exact resetRemote_meets s
  · exact .stop (.inr (.inl rfl))

theorem resetSelfTest_meets (r : Byte) (s : State) : SessionMeets afterReset id s (resetSelfTest r s) := by
  unfold resetSelfTest
  split
  · exact .ofRecvByte (recvByte_stays s) (fun _ => rfl) resetIdentity_meets
  · exact .stop (.inr (.inl rfl))

theorem resetReply_meets (s : State) : SessionMeets afterReset id s (resetReply s) :=
  .ofRecvByte (recvByte_stays s) (fun _ => rfl) resetSelfTest_meets

theorem resetDevice_meets (s : State) : SessionMeets afterReset id s (resetDevice s) :=
  .ofCommand (sendCommand_stays _ s) (fun _ => rfl) resetReply_meets

/-- `SESSION` after an ENSTREAM (R133). -/
def afterEnStream (ok : Bool) (now : Session) : Session := if ok then .streaming else now

theorem enStreamDone_meets (s : State) : SessionMeets afterEnStream id s (enStreamDone s) :=
  ⟨⟨rfl, (Grows.refl s).congr rfl rfl rfl rfl rfl rfl rfl rfl, id⟩, rfl⟩

theorem enStream_meets (s : State) : SessionMeets afterEnStream id s (enStream s) :=
  .ofCommand (sendCommand_stays _ s) (fun _ => rfl) enStreamDone_meets

theorem disStreamDone_meets (s : State) : SessionMeets afterReset id s (disStreamDone s) :=
  ⟨⟨rfl, (Grows.refl s).congr rfl rfl rfl rfl rfl rfl rfl rfl, id⟩, rfl⟩

theorem disStream_meets (s : State) : SessionMeets afterReset id s (disStream s) :=
  .ofCommand (sendCommand_stays _ s) (fun _ => rfl) disStreamDone_meets

/-- `SESSION` after an operation that does not write it. -/
def afterNone (_ : Bool) (now : Session) : Session := now

theorem SessionMeets.nothing (s : State) : SessionMeets afterNone id s (.done () s) := ⟨SessionLeaves.refl s, rfl⟩

theorem setScaling_meets (flag : Bool) (s : State) : SessionMeets afterNone id s (setScaling flag s) :=
  .ofCommand (sendCommand_stays _ s) (fun _ => rfl) .nothing

theorem setRes_meets (r : Byte) (s : State) : SessionMeets afterNone id s (setRes r s) :=
  .ofCommand (sendCommandP_stays _ _ s) (fun _ => rfl) .nothing

theorem setRate_meets (r : Byte) (s : State) : SessionMeets afterNone id s (setRate r s) :=
  .ofCommand (sendCommandP_stays _ _ s) (fun _ => rfl) .nothing

theorem getDone_meets (s : State) (h : s.rxcnt = 3) : SessionMeets afterNone id s (getDone s) := by
  refine ⟨⟨?_, (Grows.refl s).congr rfl rfl rfl rfl rfl rfl rfl rfl, id⟩, rfl⟩
  simp only [decStatus, recordDraws, h, if_true]

theorem getRecord_meets (s : State) : SessionMeets afterNone id s (getRecord s) :=
  .ofRecord (recv3_buffer s) (fun _ => rfl) getDone_meets

theorem getSettings_meets (s : State) : SessionMeets afterNone id s (getSettings s) :=
  .ofCommand (sendCommand_stays _ s) (fun _ => rfl) getRecord_meets

/-- `SESSION` after a READDATA in remote mode that began in `s0` (R140). -/
def afterRead (s0 : Session) (_ : Bool) (_ : Session) : Session := s0

theorem decMotion_leaves (s : State) (h : s.rxcnt = 3) : SessionLeaves s (decMotion s) := by
  refine ⟨?_, (Grows.refl s).congr rfl rfl rfl rfl rfl rfl rfl rfl, id⟩
  simp only [decMotion, recordDraws, h, if_true]

theorem readDone_meets (s0 : Session) (s : State) (h : s.rxcnt = 3) : SessionMeets (afterRead s0) id s (readDone s0 s) :=
  ⟨(decMotion_leaves s h).trans ⟨rfl, (Grows.refl _).congr rfl rfl rfl rfl rfl rfl rfl rfl, id⟩, rfl⟩

theorem readRecord_meets (s0 : Session) (s : State) : SessionMeets (afterRead s0) id s (readRecord s0 s) :=
  .ofRecord (recv3_buffer s) (fun _ => rfl) (readDone_meets s0)

theorem streamDone_meets (s : State) (h : s.rxcnt = 3) : SessionMeets afterNone id s (streamDone s) :=
  ⟨decMotion_leaves s h, rfl⟩

theorem streamRecord_meets (s : State) : SessionMeets afterNone id s (streamRecord s) :=
  .ofRecord (recv3_buffer s) (fun _ => rfl) streamDone_meets

theorem readStream_meets (s : State) : SessionMeets afterNone id s (readStream s) := by
  unfold readStream pinRead
  cases hs : s.wire with
  | nil => exact ⟨SessionLeaves.refl s, rfl, rfl⟩
  | cons l rest =>
    have h : SessionLeaves s (s.took .clk l rest) := ⟨rfl, grows_took hs, id⟩
    show SessionMeets afterNone id s (streamDecide (l.at .clk) (s.took .clk l rest))
    refine SessionMeets.after ?_ h rfl
    unfold streamDecide
    split
    · exact .stop (.inl rfl)
    · exact streamRecord_meets _

/-- The Device Session operation that goes on from `p` (R132 to R142). -/
theorem resumeSession_meets (p : SessionPhase) (s : State) :
    SessionMeets p.sessionAfter (p.sessionAfter false) s (resumeSession p s) := by
  cases p with
  | resetSend c => exact .ofCommand (resumeCommand_stays c s) (fun _ => rfl) resetReply_meets
  | resetSelfTest b => exact .ofRecvByte (resumeRecvByte_stays b s) (fun _ => rfl) resetSelfTest_meets
  | resetIdentity b => exact .ofRecvByte (resumeRecvByte_stays b s) (fun _ => rfl) resetIdentity_meets
  | resetRemote c => exact .ofCommand (resumeCommand_stays c s) (fun _ => rfl) resetEnable_meets
  | resetEnable c => exact .ofCommand (resumeCommand_stays c s) (fun _ => rfl) resetDone_meets
  | enStream c => exact .ofCommand (resumeCommand_stays c s) (fun _ => rfl) enStreamDone_meets
  | disStream c => exact .ofCommand (resumeCommand_stays c s) (fun _ => rfl) disStreamDone_meets
  | setScaling c => exact .ofCommand (resumeCommand_stays c s) (fun _ => rfl) .nothing
  | setRes c => exact .ofCommand (resumeCommand_stays c s) (fun _ => rfl) .nothing
  | setRate c => exact .ofCommand (resumeCommand_stays c s) (fun _ => rfl) .nothing
  | getSend c => exact .ofCommand (resumeCommand_stays c s) (fun _ => rfl) getRecord_meets
  | getRecv r => exact .ofRecord (resumeRecv3_meets r s) (fun _ => rfl) getDone_meets
  | readSend s0 c =>
    exact SessionMeets.onRaise (.ofCommand (A := afterRead s0) (resumeCommand_stays c s) (fun _ => rfl) (readRecord_meets s0))
  | readRecv s0 r =>
    exact SessionMeets.onRaise (.ofRecord (A := afterRead s0) (resumeRecv3_meets r s) (fun _ => rfl) (readDone_meets s0))
  | streamPoll => exact readStream_meets s
  | streamRecv r => exact .ofRecord (resumeRecv3_meets r s) (fun _ => rfl) streamDone_meets

/-- READDATA in remote mode (R140): it enters `REMOTE_READING` only from `REMOTE_IDLE`, and `SESSION` is restored. -/
theorem readRemote_meets (s : State) :
    SessionMeets (afterRead s.session) (fun _ => s.session) (enterReading s) (readRemote s) :=
  SessionMeets.onRaise (.ofCommand (A := afterRead s.session) (sendCommand_stays _ _) (fun _ => rfl) (readRecord_meets s.session))

theorem enterReading_leaves (s : State) : SessionLeaves s (enterReading s) := by
  unfold enterReading
  split
  · exact ⟨rfl, (Grows.refl s).congr rfl rfl rfl rfl rfl rfl rfl rfl, id⟩
  · exact SessionLeaves.refl s

/-- Which value a remote READDATA restores can be read off what the phase leaves in `SESSION`. -/
theorem readingFrom_of_sessionAfter (p : SessionPhase) : (Phase.session p).readingFrom =
    if p.sessionAfter false .uninit = p.sessionAfter false .streaming then some (p.sessionAfter false .uninit) else none := by
  cases p <;> simp [Phase.readingFrom, SessionPhase.sessionAfter]

/-- A phase that keeps what it leaves in `SESSION` keeps the value a remote READDATA restores. -/
theorem readingFrom_congr {p q : SessionPhase} (h : p.sessionAfter = q.sessionAfter) :
    (Phase.session p).readingFrom = (Phase.session q).readingFrom := by
  rw [readingFrom_of_sessionAfter, readingFrom_of_sessionAfter, h]

end Sys2Proof.Machine
end

