-- ==== Sys2Proof/Laws/Portions.lean ====
section
/-! SUPPORT. Answers may come in portions: running a sub-operation over the answers of two portions is running it over the
first and going on, from where it waits, over the second. -/

namespace Sys2Proof.Machine

variable {φ ψ α β : Type}

/-- What stands after more answers `w` have come, where `resume` goes on from a place. -/
def Run.more (r : Run φ α) (resume : φ → State → Run φ α) (w : List Levels) : Run φ α :=
  match r with
  | .done v t => .done v (t.more w)
  | .raised k t => .raised k (t.more w)
  | .waiting ph t => resume ph (t.more w)

/-- `op`, gone on with by `resume`, may have its answers in portions. -/
def Portioned (op : State → Run φ α) (resume : φ → State → Run φ α) (s : State) : Prop :=
  ∀ w, op (s.more w) = (op s).more resume w

theorem Run.Meets.congr {r : Run φ α} {D : α → State → Prop} {E : ErrKind → State → Prop} {W : φ → State → Prop}
    {wrap : φ → ψ} {k k' : α → State → Run ψ β} (h : r.Meets D E W) (hk : ∀ v t, D v t → k v t = k' v t) :
    r.within wrap k = r.within wrap k' := by
  cases r with
  | done v t => exact hk v t h
  | raised e t => rfl
  | waiting ph t => rfl

/-- A sub-operation and what follows it: `D` and `W` say what is known of the states they meet at. -/
theorem portion_within {op : State → Run φ α} {res : φ → State → Run φ α} {s : State} {w : List Levels} {wrap : φ → ψ}
    {k : α → State → Run ψ β} {res' : ψ → State → Run ψ β} {D : α → State → Prop} {E : ErrKind → State → Prop}
    {W : φ → State → Prop} (h : op (s.more w) = (op s).more res w) (hm : (op s).Meets D E W)
    (hk : ∀ v t, D v t → k v (t.more w) = (k v t).more res' w)
    (hw : ∀ ph t, W ph t → res' (wrap ph) (t.more w) = (res ph (t.more w)).within wrap k) :
    (op (s.more w)).within wrap k = ((op s).within wrap k).more res' w := by
  rw [h]
  cases hr : op s with
  | done v t => rw [hr] at hm; exact hk v t hm
  | raised e t => rfl
  | waiting ph t => rw [hr] at hm; exact (hw ph t hm).symm

theorem Portioned.within {op : State → Run φ α} {res : φ → State → Run φ α} {s : State} {wrap : φ → ψ}
    {k : α → State → Run ψ β} {res' : ψ → State → Run ψ β} {D : α → State → Prop} {E : ErrKind → State → Prop}
    {W : φ → State → Prop} (h : Portioned op res s) (hm : (op s).Meets D E W)
    (hk : ∀ v t, D v t → Portioned (k v) res' t)
    (hw : ∀ ph t w, W ph t → res' (wrap ph) (t.more w) = (res ph (t.more w)).within wrap k) :
    Portioned (fun s => (op s).within wrap k) res' s :=
  fun w => portion_within (h w) hm (fun v t hd => hk v t hd w) (fun ph t ht => hw ph t w ht)

/-- The same where nothing needs to be known. -/
theorem Portioned.then {op : State → Run φ α} {res : φ → State → Run φ α} {s : State} {wrap : φ → ψ}
    {k : α → State → Run ψ β} {res' : ψ → State → Run ψ β} (h : Portioned op res s)
    (hk : ∀ v t, Portioned (k v) res' t)
    (hw : ∀ ph t, res' (wrap ph) t = (res ph t).within wrap k) : Portioned (fun s => (op s).within wrap k) res' s :=
  h.within (D := fun _ _ => True) (E := fun _ _ => True) (W := fun _ _ => True) (by cases op s <;> exact trivial)
    (fun v t _ => hk v t) (fun ph t w _ => hw ph (t.more w))

theorem Portioned.done (v : α) (res : φ → State → Run φ α) (s : State) : Portioned (fun s => Run.done v s) res s := fun _ => rfl

theorem Portioned.raised (k : ErrKind) (res : φ → State → Run φ α) (s : State) :
    Portioned (fun s => Run.raised k s) res s := fun _ => rfl

/-! Bit Transport -/

theorem waitLoop_portion (level : Bool) (w : List Levels) : ∀ (a : List Levels) (s : State), s.wire = a →
    waitLoop level (a ++ w) (s.more w) = (waitLoop level a s).more (fun _ => waitMore level) w
  | [], s, hs => by simp [waitLoop, Run.more, waitMore, hs]
  | l :: rest, s, hs => by
    have htook : (s.more w).took .clk l (rest ++ w) = (s.took .clk l rest).more w := rfl
    rw [List.cons_append, waitLoop, waitLoop, htook]
    have hex : waitExpired { (s.took .clk l rest).more w with waitcnt := (s.more w).waitcnt + 1 } =
        waitExpired { s.took .clk l rest with waitcnt := s.waitcnt + 1 } := rfl
    rw [hex]
    split
    · rfl
    · split
      · rfl
      · exact waitLoop_portion level w rest { s.took .clk l rest with waitcnt := s.waitcnt + 1 } rfl

theorem waitMore_portioned (level : Bool) (s : State) : Portioned (waitMore level) (fun _ => waitMore level) s :=
  fun w => waitLoop_portion level w s.wire s rfl

theorem waitClk_portioned (level : Bool) (s : State) : Portioned (waitClk level) (fun _ => waitMore level) s :=
  fun w => waitMore_portioned level { s with waitcnt := 0 } w

theorem pinRead_portioned (p : Line) (s : State) : Portioned (pinRead p) (fun _ => pinRead p) s := by
  intro w
  show pinRead p (s.more w) = (pinRead p s).more _ w
  unfold pinRead State.more
  cases hs : s.wire with
  | nil => simp [Run.more, State.more, hs]
  | cons l rest => rfl

theorem sendBitDrive_portioned (b : Bool) (s : State) : Portioned (sendBitDrive b) resumeSendBit s := by
  have h : Portioned (fun s => (waitClk true s).within (fun _ => SendBitPhase.waitHigh) fun _ s => .done () s)
      resumeSendBit (pinSet .data (driveOf b) s) :=
    (waitClk_portioned true _).then (fun v t => Portioned.done v _ t) (fun _ _ => rfl)
  exact h

theorem sendBit_portioned (b : Bool) (s : State) : Portioned (sendBit b) resumeSendBit s :=
  (waitClk_portioned false s).then (fun _ t => sendBitDrive_portioned b t) (fun _ _ => rfl)

theorem resumeSendBit_portioned (p : SendBitPhase) (s : State) : Portioned (resumeSendBit p) resumeSendBit s := by
  cases p with
  | waitLow b => exact (waitMore_portioned false s).then (fun _ t => sendBitDrive_portioned b t) (fun _ _ => rfl)
  | waitHigh => exact (waitMore_portioned true s).then (fun v t => Portioned.done v _ t) (fun _ _ => rfl)

theorem recvBitHigh_portioned (s : State) : Portioned recvBitHigh resumeRecvBit s :=
  (waitClk_portioned true s).then (fun _ _ => fun _ => rfl) (fun _ _ => rfl)

theorem recvBitSample_portioned (s : State) : Portioned recvBitSample resumeRecvBit s :=
  (pinRead_portioned .data s).then (fun d t => recvBitHigh_portioned { t with rxbit := d }) (fun _ _ => rfl)

theorem recvBit_portioned (s : State) : Portioned recvBit resumeRecvBit s :=
  (waitClk_portioned false s).then (fun _ t => recvBitSample_portioned t) (fun _ _ => rfl)

theorem resumeRecvBit_portioned (p : RecvBitPhase) (s : State) : Portioned (resumeRecvBit p) resumeRecvBit s := by
  cases p with
  | waitLow => exact (waitMore_portioned false s).then (fun _ t => recvBitSample_portioned t) (fun _ _ => rfl)
  | sample => exact recvBitSample_portioned s
  | waitHigh => exact (waitMore_portioned true s).then (fun _ _ => fun _ => rfl) (fun _ _ => rfl)

/-! Byte Framer -/

theorem bitcnt_succ (x : BitVec 4) : (x + 1).toNat = (x.toNat + 1) % 16 := BitVec.toNat_add x 1

theorem storeBit_bitcnt (b : Bool) (s : State) : (storeBit b s).bitcnt = s.bitcnt + 1 := rfl

theorem ackDecide_portioned (a : Bool) (s : State) : Portioned (ackDecide a) resumeSendByte s := by
  cases a <;> exact fun _ => rfl

theorem sendAck_portioned (s : State) : Portioned sendAck resumeSendByte s := by
  have h : Portioned (fun s => (recvBit s).within SendBytePhase.ack ackDecide) resumeSendByte (pinSet .data .inFloat s) :=
    (recvBit_portioned _).then ackDecide_portioned (fun _ _ => rfl)
  exact h

theorem sendAccumulate_more (s : State) (w : List Levels) : sendAccumulate (s.more w) = (sendAccumulate s).more w := by
  by_cases h : s.bitcnt.toNat < 8 <;> simp [sendAccumulate, State.more, h]

/-- `n` cells still to drive, `BITCNT` being the cell (R18). -/
theorem sendCells_portioned : ∀ (n : Nat) (s : State), (n = 0 ∨ n + s.bitcnt.toNat = 10) →
    Portioned (sendCells n) resumeSendByte s
  | 0, s, _ => sendAck_portioned s
  | n + 1, s, hn => by
    intro w
    have hb : (sendAccumulate s).bitcnt = s.bitcnt := by unfold sendAccumulate; split <;> rfl
    have h : Portioned (fun s' => (sendBit (sendCellBit s) s').within SendBytePhase.cell fun _ s => sendCells n (nextCell s))
        resumeSendByte (sendAccumulate s) := by
      refine (sendBit_portioned (sendCellBit s) (sendAccumulate s)).within (sendBit_stays _ _) (fun _ t ht => ?_)
        (fun ph t w ht => ?_)
      · have htb : t.bitcnt = s.bitcnt := by rw [ht.1]; exact hb
        refine sendCells_portioned n (nextCell t) ?_
        by_cases h0 : n = 0
        · exact .inl h0
        · right
          rw [nextCell_bitcnt, htb, bitcnt_succ]
          omega
      · have htb : (t.more w).bitcnt = s.bitcnt := by rw [State.more_bitcnt, ht.1]; exact hb
        refine Run.Meets.congr (resumeSendBit_stays ph (t.more w)) (fun v u hu => ?_)
        have hub : u.bitcnt = s.bitcnt := by rw [hu.1]; exact htb
        rw [hub, show 9 - s.bitcnt.toNat = n by omega]
    have := h w
    show sendCells (n + 1) (s.more w) = _
    rw [sendCells, sendAccumulate_more]
    exact this

theorem sendByte_portioned (v : Byte) (s : State) : Portioned (sendByte v) resumeSendByte s :=
  fun w => sendCells_portioned 10 (sendStart v s) (.inr rfl) w

theorem resumeSendByte_portioned (p : SendBytePhase) (s : State) : Portioned (resumeSendByte p) resumeSendByte s := by
  cases p with
  | cell bit =>
    refine (resumeSendBit_portioned bit s).then (fun _ t => ?_) (fun _ _ => rfl)
    intro w
    refine sendCells_portioned (9 - t.bitcnt.toNat) (nextCell t) ?_ w
    by_cases h : t.bitcnt.toNat < 9
    · right
      rw [nextCell_bitcnt, bitcnt_succ]
      omega
    · exact .inl (by omega)
  | ack bit => exact (resumeRecvBit_portioned bit s).then ackDecide_portioned (fun _ _ => rfl)

theorem recvFinish_portioned (p t : Bool) (s : State) : Portioned (recvFinish p t) resumeRecvByte s := by
  intro w
  have h : frameCheck p t (s.more w) = frameCheck p t s := rfl
  show recvFinish p t (s.more w) = (recvFinish p t s).more _ w
  unfold recvFinish
  rw [h]
  cases frameCheck p t s <;> rfl

theorem recvStop_portioned (p : Bool) (s : State) : Portioned (recvStop p) resumeRecvByte s := by
  have h : Portioned (fun s => (recvBit s).within (RecvBytePhase.stop p) fun t s => recvFinish p t s) resumeRecvByte
      { s with bitcnt := 10 } := (recvBit_portioned _).then (recvFinish_portioned p) (fun _ _ => rfl)
  exact h

theorem storeBit_more (b : Bool) (s : State) (w : List Levels) : storeBit b (s.more w) = (storeBit b s).more w := rfl

/-- `n` data bits still to receive, `BITCNT` being the cell (R18). -/
theorem recvData_portioned : ∀ (n : Nat) (s : State), n ≤ 8 → n + s.bitcnt.toNat = 9 →
    Portioned (recvData n) resumeRecvByte s
  | 0, s, _, hn => by
    refine (recvBit_portioned s).within (recvBit_stays s) (fun p t _ => recvStop_portioned p t) (fun ph t w ht => ?_)
    refine Run.Meets.congr (resumeRecvBit_stays ph (t.more w)) (fun v u hu => ?_)
    have hub : u.bitcnt = s.bitcnt := by rw [hu.1, State.more_bitcnt, ht.1]
    have h9 : s.bitcnt = 9 := BitVec.eq_of_toNat_eq (by simpa using hn)
    rw [recvAfterCell, hub, h9]
    rfl
  | n + 1, s, hle, hn => by
    refine (recvBit_portioned s).within (recvBit_stays s) (fun b t ht => ?_) (fun ph t w ht => ?_)
    · have htb : t.bitcnt = s.bitcnt := by rw [ht.1]
      intro w
      refine recvData_portioned n (storeBit b t) (by omega) ?_ w
      rw [storeBit_bitcnt, htb, bitcnt_succ]
      omega
    · refine Run.Meets.congr (resumeRecvBit_stays ph (t.more w)) (fun v u hu => ?_)
      have hub : u.bitcnt = s.bitcnt := by rw [hu.1, State.more_bitcnt, ht.1]
      have h0 : s.bitcnt ≠ 0 := by
        intro h
        rw [h] at hn
        simp at hn
        omega
      rw [recvAfterCell, hub, if_neg h0, if_pos (by omega), show 8 - s.bitcnt.toNat = n by omega]

theorem recvStart_portioned (b : Bool) (s : State) : Portioned (recvStart b) resumeRecvByte s := by
  cases b
  · exact fun w => recvData_portioned 8 { s with rxr := 0, par := parityStart, bitcnt := 1 } (by omega) rfl w
  · exact fun _ => rfl

theorem recvByte_portioned (s : State) : Portioned recvByte resumeRecvByte s := by
  have h : Portioned (fun s => (recvBit s).within RecvBytePhase.cell fun b s => recvStart b s) resumeRecvByte (recvOpen s) := by
    refine (recvBit_portioned _).within (recvBit_stays _) (fun b t _ => recvStart_portioned b t) (fun ph t w ht => ?_)
    refine Run.Meets.congr (resumeRecvBit_stays ph (t.more w)) (fun v u hu => ?_)
    have hub : u.bitcnt = 0 := by rw [hu.1, State.more_bitcnt, ht.1]; rfl
    rw [recvAfterCell, if_pos hub]
  exact h

theorem recvAfterCell_portioned (b : Bool) (s : State) : Portioned (recvAfterCell b) resumeRecvByte s := by
  intro w
  show recvAfterCell b (s.more w) = (recvAfterCell b s).more _ w
  by_cases h0 : s.bitcnt = 0
  · have h : ∀ t : State, t.bitcnt = s.bitcnt → recvAfterCell b t = recvStart b t := fun t ht => by
      rw [recvAfterCell, if_pos (ht.trans h0)]
    rw [h s rfl, h (s.more w) rfl]
    exact recvStart_portioned b s w
  · by_cases h8 : s.bitcnt.toNat ≤ 8
    · have h : ∀ t : State, t.bitcnt = s.bitcnt → recvAfterCell b t = recvData (8 - s.bitcnt.toNat) (storeBit b t) :=
        fun t ht => by rw [recvAfterCell, ht, if_neg h0, if_pos h8]
      rw [h s rfl, h (s.more w) rfl]
      refine recvData_portioned (8 - s.bitcnt.toNat) (storeBit b s) (by omega) ?_ w
      rw [storeBit_bitcnt, bitcnt_succ]
      omega
    · have h : ∀ t : State, t.bitcnt = s.bitcnt → recvAfterCell b t = recvStop b t := fun t ht => by
        rw [recvAfterCell, ht, if_neg h0, if_neg h8]
      rw [h s rfl, h (s.more w) rfl]
      exact recvStop_portioned b s w

theorem resumeRecvByte_portioned (p : RecvBytePhase) (s : State) : Portioned (resumeRecvByte p) resumeRecvByte s := by
  cases p with
  | cell bit => exact (resumeRecvBit_portioned bit s).then recvAfterCell_portioned (fun _ _ => rfl)
  | stop p bit => exact (resumeRecvBit_portioned bit s).then (recvFinish_portioned p) (fun _ _ => rfl)

/-! A byte takes at least one answer, so the fuel of the resend loop never runs out -/

/-- The sub-operation takes an answer before it returns. -/
def Uses (r : Run φ α) (s : State) : Prop :=
  r.Meets (fun _ t => t.wire.length < s.wire.length) (fun _ _ => True) (fun _ _ => True)

theorem Uses.within {r : Run φ α} {s : State} {wrap : φ → ψ} {k : α → State → Run ψ β} {F : State → State → Prop}
    {K : α → State → ErrKind → Prop} (h : Uses r s) (hk : ∀ v t, (k v t).Stays (F t) (K v t))
    (hF : ∀ t u, F t u → u.wire.length ≤ t.wire.length) : Uses (r.within wrap k) s := by
  refine Run.Meets.within h (fun v t ht => ?_) (fun _ _ _ => trivial) (fun _ _ _ => trivial)
  have hs := hk v t
  cases hr : k v t with
  | done x u => rw [hr] at hs; exact Nat.lt_of_le_of_lt (hF t u hs) ht
  | raised e u => exact trivial
  | waiting ph u => exact trivial

theorem waitLoop_uses (level : Bool) : ∀ (w : List Levels) (s : State), s.wire = w → Uses (waitLoop level w s) s
  | [], s, _ => trivial
  | l :: rest, s, hs => by
    rw [waitLoop]
    split
    · show rest.length < s.wire.length
      rw [hs]
      simp
    · split
      · exact trivial
      · have h := waitLoop_uses level rest { s.took .clk l rest with waitcnt := s.waitcnt + 1 } rfl
        have hlt : rest.length < s.wire.length := by rw [hs]; simp
        cases hr : waitLoop level rest { s.took .clk l rest with waitcnt := s.waitcnt + 1 } with
        | done v t => rw [hr] at h; exact Nat.lt_trans h hlt
        | raised e t => exact trivial
        | waiting ph t => exact trivial

theorem waitMore_uses (level : Bool) (s : State) : Uses (waitMore level s) s := waitLoop_uses level s.wire s rfl

theorem waitClk_uses (level : Bool) (s : State) : Uses (waitClk level s) s := waitMore_uses level { s with waitcnt := 0 }

theorem sendBit_uses (b : Bool) (s : State) : Uses (sendBit b s) s :=
  (waitClk_uses false s).within (fun _ t => sendBitDrive_stays b t) (fun _ _ h => h.2.wire_le)

theorem Run.Stays.nothing (v : α) (s : State) : (Run.done v s : Run φ α).Stays (WaitLeaves s) (fun _ => True) :=
  ⟨rfl, Grows.refl s⟩

theorem resumeSendBit_uses (p : SendBitPhase) (s : State) : Uses (resumeSendBit p s) s := by
  cases p with
  | waitLow b => exact (waitMore_uses false s).within (fun _ t => sendBitDrive_stays b t) (fun _ _ h => h.2.wire_le)
  | waitHigh => exact (waitMore_uses true s).within (fun v t => Run.Stays.nothing v t) (fun _ _ h => h.2.wire_le)

theorem pinRead_uses (p : Line) (s : State) : Uses (pinRead p s) s := by
  unfold pinRead
  cases hs : s.wire with
  | nil => exact trivial
  | cons l rest =>
    show rest.length < s.wire.length
    rw [hs]
    simp

theorem recvBitHigh_uses (s : State) : Uses (recvBitHigh s) s :=
  (waitClk_uses true s).within (fun _ t => Run.Stays.nothing t.rxbit t) (fun _ _ h => h.2.wire_le)

theorem recvBitSample_uses (s : State) : Uses (recvBitSample s) s := by
  refine (pinRead_uses .data s).within (F := fun t u => u.wire.length ≤ t.wire.length) (K := fun _ _ _ => True)
    (fun d t => ?_) (fun _ _ h => h)
  exact (recvBitHigh_stays { t with rxbit := d }).mono (fun _ h => h.2.wire_le) (fun _ _ => trivial)

theorem recvBit_uses (s : State) : Uses (recvBit s) s :=
  (waitClk_uses false s).within (fun _ t => recvBitSample_stays t) (fun _ _ h => h.2.wire_le)

theorem resumeRecvBit_uses (p : RecvBitPhase) (s : State) : Uses (resumeRecvBit p s) s := by
  cases p with
  | waitLow => exact (waitMore_uses false s).within (fun _ t => recvBitSample_stays t) (fun _ _ h => h.2.wire_le)
  | sample => exact recvBitSample_uses s
  | waitHigh =>
    exact (waitMore_uses true s).within (fun _ t => Run.Stays.nothing t.rxbit t) (fun _ _ h => h.2.wire_le)

theorem recvByte_uses (s : State) : Uses (recvByte s) s :=
  (recvBit_uses (recvOpen s)).within (fun b t => recvStart_stays b t) (fun _ _ h => h.2.wire_le)

theorem resumeRecvByte_uses (p : RecvBytePhase) (s : State) : Uses (resumeRecvByte p s) s := by
  cases p with
  | cell bit => exact (resumeRecvBit_uses bit s).within (fun b t => recvAfterCell_stays b t) (fun _ _ h => h.2.wire_le)
  | stop p bit => exact (resumeRecvBit_uses bit s).within (fun a t => recvFinish_stays p a t) (fun _ _ h => h.2.wire_le)

/-! Command Protocol -/

/-- With a round of fuel for every answer at hand and one more, the fuel does not show (log 20). -/
theorem ackLoop_fuel (which : WhichByte) : ∀ (f g : Nat) (s : State), s.wire.length < f → s.wire.length < g →
    ackLoop f which s = ackLoop g which s
  | 0, _, _, hf, _ => absurd hf (by omega)
  | _ + 1, 0, _, _, hg => absurd hg (by omega)
  | f + 1, g + 1, s, hf, hg => by
    rw [ackLoop, ackLoop]
    refine Run.Meets.congr (sendByte_stays s.cmdr s) (fun _ t ht => ?_)
    have htle := ht.2.wire_le
    unfold ackReceive
    refine Run.Meets.congr (recvByte_uses t) (fun r u (hu : u.wire.length < t.wire.length) => ?_)
    have hstep := ackLoop_fuel which f g { u with ackr := r, retry := u.retry + 1 }
      (show u.wire.length < f by omega) (show u.wire.length < g by omega)
    unfold ackCompare
    rw [hstep]

/-- Every place a handshake waits at keeps which byte it sends. -/
def Keeps (which : WhichByte) (r : Run CommandPhase Unit) : Prop :=
  r.Meets (fun _ _ => True) (fun _ _ => True) (fun ph _ => ph.which = which)

theorem keeps_of {which : WhichByte} {r : Run φ α} {wrap : φ → CommandPhase} {k : α → State → Run CommandPhase Unit}
    (hw : ∀ ph, (wrap ph).which = which) (hk : ∀ v t, Keeps which (k v t)) : Keeps which (r.within wrap k) :=
  Run.Meets.within (D := fun _ _ => True) (E := fun _ _ => True) (W := fun _ _ => True) (by cases r <;> exact trivial)
    (fun v t _ => hk v t) (fun _ _ _ => trivial) (fun ph _ _ => hw ph)

theorem ackCompare_keeps {which : WhichByte} {again : State → Run CommandPhase Unit} (ha : ∀ s, Keeps which (again s))
    (r : Byte) (s : State) : Keeps which (ackCompare again r s) := by
  unfold ackCompare
  split
  · split
    · exact trivial
    · exact ha _
  · split
    · exact trivial
    · exact trivial

theorem ackReceive_keeps {which : WhichByte} {again : State → Run CommandPhase Unit} (ha : ∀ s, Keeps which (again s))
    (s : State) : Keeps which (ackReceive which again s) := keeps_of (fun _ => rfl) (ackCompare_keeps ha)

theorem ackLoop_keeps (which : WhichByte) : ∀ (fuel : Nat) (s : State), Keeps which (ackLoop fuel which s)
  | 0, _ => rfl
  | fuel + 1, _ => keeps_of (fun _ => rfl) (fun _ t => ackReceive_keeps (ackLoop_keeps which fuel) t)

theorem resumeAcked_keeps (p : CommandPhase) (s : State) : Keeps p.which (resumeAcked p s) := by
  unfold resumeAcked
  split
  · exact keeps_of (fun _ => rfl) (fun _ t => ackReceive_keeps (ackLoop_keeps p.which _) t)
  · exact keeps_of (fun _ => rfl) (fun r t => ackCompare_keeps (ackLoop_keeps p.which _) r t)

/-- What is known of the answers left, where a sub-operation has returned and where it waits. -/
theorem Uses.wires {r : Run φ α} {s : State} {F : State → Prop} {K : ErrKind → Prop} (h : Uses r s) (hs : r.Stays F K)
    (hF : ∀ t, F t → t.wire.length ≤ s.wire.length) :
    r.Meets (fun _ t => t.wire.length < s.wire.length) (fun _ _ => True) (fun _ t => t.wire.length ≤ s.wire.length) := by
  cases r with
  | done v t => exact h
  | raised e t => exact trivial
  | waiting ph t => exact hF t hs

theorem State.more_wire_length (s : State) (w : List Levels) : (s.more w).wire.length = s.wire.length + w.length := by simp

theorem ackCompare_congr {again again' : State → Run CommandPhase Unit} {r : Byte} {s : State}
    (h : ∀ t : State, t.wire = s.wire → again t = again' t) : ackCompare again r s = ackCompare again' r s := by
  unfold ackCompare
  rw [h { s with ackr := r, retry := s.retry + 1 } rfl]

theorem ackCompare_portion {again : State → Run CommandPhase Unit} {r : Byte} {s : State} {w : List Levels}
    (h : ∀ t : State, t.wire = s.wire → again (t.more w) = (again t).more resumeAcked w) :
    ackCompare again r (s.more w) = (ackCompare again r s).more resumeAcked w := by
  have hex : resendExpired { s.more w with ackr := r, retry := (s.more w).retry + 1 } =
      resendExpired { s with ackr := r, retry := s.retry + 1 } := rfl
  unfold ackCompare
  rw [hex]
  split
  · split
    · rfl
    · exact h { s with ackr := r, retry := s.retry + 1 } rfl
  · split
    · rfl
    · rfl

/-- From RECV-ACK, where `again` is the loop with any fuel that is enough. -/
theorem ackReceive_portion {which : WhichByte} {w : List Levels} {again : State → Run CommandPhase Unit} {t : State}
    (hagain : ∀ v : State, v.wire.length < t.wire.length → again (v.more w) = (again v).more resumeAcked w)
    (hfuel : ∀ (x : State) (g : Nat), x.wire.length < t.wire.length + w.length → x.wire.length < g →
      ackLoop g which x = again x) :
    ackReceive which again (t.more w) = (ackReceive which again t).more resumeAcked w := by
  refine portion_within (op := recvByte) (recvByte_portioned t w)
    ((recvByte_uses t).wires (recvByte_stays t) fun _ h => h.2.wire_le) (fun r u hu => ?_) (fun ph u hu => ?_)
  · exact ackCompare_portion fun v hv => hagain v (by rw [hv]; exact hu)
  · refine Run.Meets.congr (resumeRecvByte_uses ph (u.more w)) (fun r v hv => ackCompare_congr fun x hx => ?_)
    rw [State.more_wire_length] at hv
    exact hfuel x _ (by rw [hx]; omega) (by rw [hx, ackFuel, State.more_wire_length]; omega)

theorem ackReceive_congr {which : WhichByte} {again again' : State → Run CommandPhase Unit} {s : State}
    (h : ∀ t : State, t.wire.length < s.wire.length → again t = again' t) : ackReceive which again s = ackReceive which again' s :=
  Run.Meets.congr (recvByte_uses s) fun _ u hu => ackCompare_congr fun x hx => h x (by rw [hx]; exact hu)

/-- The resend loop, with enough fuel. -/
theorem ackLoop_portion (which : WhichByte) (w : List Levels) : ∀ (f : Nat) (s : State),
    s.wire.length + w.length < f → ackLoop f which (s.more w) = (ackLoop f which s).more resumeAcked w
  | 0, _, hf => absurd hf (by omega)
  | f + 1, s, hf => by
    refine portion_within (op := sendByte s.cmdr) (sendByte_portioned s.cmdr s w) (sendByte_stays s.cmdr s) (fun _ t ht => ?_)
      (fun ph t ht => ?_)
    · have htle := ht.2.wire_le
      exact ackReceive_portion (fun v hv => ackLoop_portion which w f v (by omega))
        (fun x g hx hg => ackLoop_fuel which g f x hg (by omega))
    · have htle := ht.2.wire_le
      refine Run.Meets.congr (resumeSendByte_stays ph (t.more w)) (fun _ u hu => ?_)
      have hule := hu.2.wire_le
      rw [State.more_wire_length] at hule
      exact ackReceive_congr fun x hx => ackLoop_fuel which _ _ x (by rw [ackFuel, State.more_wire_length]; omega) (by omega)

theorem ackLoop_fuel_portion {which : WhichByte} {w : List Levels} {f g : Nat} {s : State} (hf : s.wire.length + w.length < f)
    (hg : s.wire.length < g) : ackLoop f which (s.more w) = (ackLoop g which s).more resumeAcked w := by
  rw [ackLoop_portion which w f s hf, ackLoop_fuel which g f s hg (by omega)]

theorem sendAcked_portioned (which : WhichByte) (x : Byte) (s : State) : Portioned (sendAcked which x) resumeAcked s := by
  intro w
  exact ackLoop_fuel_portion (s := { s with cmdr := x, retry := 0 }) (by rw [ackFuel, State.more_wire_length]; exact Nat.lt_succ_self _)
    (Nat.lt_succ_self _)

theorem resumeAcked_portioned (p : CommandPhase) (s : State) : Portioned (resumeAcked p) resumeAcked s := by
  intro w
  obtain ⟨which, ack⟩ := p
  have hfuel : ackFuel (s.more w) = s.wire.length + w.length + 1 := by rw [ackFuel, State.more_wire_length]
  have hagain : ∀ v : State, v.wire.length ≤ s.wire.length →
      ackLoop (ackFuel (s.more w)) which (v.more w) = (ackLoop (ackFuel (s.more w)) which v).more resumeAcked w :=
    fun v hv => ackLoop_portion which w _ v (by omega)
  have hsame : ∀ v : State, v.wire.length ≤ s.wire.length →
      ackLoop (ackFuel s) which v = ackLoop (ackFuel (s.more w)) which v :=
    fun v hv => ackLoop_fuel which _ _ v (by rw [ackFuel]; omega) (by omega)
  cases ack with
  | send b =>
    have hR : resumeAcked { which := which, ack := .send b } s = (resumeSendByte b s).within
        (fun b => { which := which, ack := .send b }) fun _ t => ackReceive which (ackLoop (ackFuel (s.more w)) which) t := by
      refine Run.Meets.congr (resumeSendByte_stays b s) (fun _ t ht => ?_)
      have htle := ht.2.wire_le
      exact ackReceive_congr fun x hx => hsame x (by omega)
    rw [hR]
    refine portion_within (op := resumeSendByte b) (resumeSendByte_portioned b s w) (resumeSendByte_stays b s) (fun _ t ht => ?_)
      (fun ph t ht => ?_)
    · have htle := ht.2.wire_le
      exact ackReceive_portion (fun v hv => hagain v (by omega)) (fun x g hx hg => ackLoop_fuel which _ _ x hg (by omega))
    · have htle := ht.2.wire_le
      refine Run.Meets.congr (resumeSendByte_stays ph (t.more w)) (fun _ u hu => ?_)
      have hule := hu.2.wire_le
      rw [State.more_wire_length] at hule
      exact ackReceive_congr fun x hx => ackLoop_fuel which _ _ x (by rw [ackFuel, State.more_wire_length]; omega) (by omega)
  | recvAck b =>
    have hR : resumeAcked { which := which, ack := .recvAck b } s = (resumeRecvByte b s).within
        (fun b => { which := which, ack := .recvAck b }) fun r t => ackCompare (ackLoop (ackFuel (s.more w)) which) r t := by
      refine Run.Meets.congr (resumeRecvByte_stays b s) (fun r t ht => ?_)
      have htle := ht.2.wire_le
      exact ackCompare_congr fun x hx => hsame x (by rw [hx]; omega)
    rw [hR]
    refine portion_within (op := resumeRecvByte b) (resumeRecvByte_portioned b s w) (resumeRecvByte_stays b s) (fun r t ht => ?_)
      (fun ph t ht => ?_)
    · have htle := ht.2.wire_le
      exact ackCompare_portion fun v hv => hagain v (by rw [hv]; omega)
    · have htle := ht.2.wire_le
      refine Run.Meets.congr (resumeRecvByte_uses ph (t.more w)) (fun r v hv => ackCompare_congr fun x hx => ?_)
      rw [State.more_wire_length] at hv
      exact ackLoop_fuel which _ _ x (by rw [hx, ackFuel, State.more_wire_length]; omega) (by rw [hx]; omega)

/-- A place of `which` goes on as `resumeCommand` says. -/
theorem resumeCommand_which {which : WhichByte} {ph : CommandPhase} (h : ph.which = which) (s : State) :
    resumeCommand ph s = (resumeAcked ph s).within id fun _ s => afterAcked which s := by
  rw [resumeCommand, h]

theorem Run.within_id {r : Run CommandPhase Unit} : (r.within id fun _ s => .done () s) = r := by
  cases r <;> rfl

/-- A handshake of the last byte of a command. -/
theorem Portioned.last {op : State → Run CommandPhase Unit} {which : WhichByte} {s : State} (h : Portioned op resumeAcked s)
    (hk : Keeps which (op s)) (hlast : ∀ s, afterAcked which s = .done () s) : Portioned op resumeCommand s := by
  intro w
  rw [h w]
  cases hr : op s with
  | done v t => rfl
  | raised e t => rfl
  | waiting ph t =>
    rw [hr] at hk
    show resumeAcked ph (t.more w) = resumeCommand ph (t.more w)
    rw [resumeCommand_which hk, funext (fun _ => funext hlast), Run.within_id]

theorem sendAcked_keeps (which : WhichByte) (x : Byte) (s : State) : Keeps which (sendAcked which x s) :=
  ackLoop_keeps which _ _

theorem sendCommand_portioned (code : Byte) (s : State) : Portioned (sendCommand code) resumeCommand s :=
  (sendAcked_portioned .command code s).last (sendAcked_keeps _ _ s) (fun _ => rfl)

theorem afterAcked_portioned (which : WhichByte) (s : State) : Portioned (afterAcked which) resumeCommand s := by
  cases which with
  | command => exact fun _ => rfl
  | parameter => exact fun _ => rfl
  | commandThen param => exact (sendAcked_portioned .parameter param s).last (sendAcked_keeps _ _ s) (fun _ => rfl)

theorem sendCommandP_portioned (code param : Byte) (s : State) : Portioned (sendCommandP code param) resumeCommand s :=
  (sendAcked_portioned (.commandThen param) code s).within (sendAcked_keeps _ _ s) (fun _ t _ => afterAcked_portioned _ t)
    (fun _ _ _ h => resumeCommand_which h _)

theorem resumeCommand_portioned (p : CommandPhase) (s : State) : Portioned (resumeCommand p) resumeCommand s :=
  (resumeAcked_portioned p s).within (resumeAcked_keeps p s) (fun _ t _ => afterAcked_portioned _ t)
    (fun _ _ _ h => resumeCommand_which h _)

/-! RECV3 -/

theorem recvBytes_portioned : ∀ (n : Nat) (s : State), n ≤ 3 → Portioned (recvBytes n) resumeRecv3 s
  | 0, _, _ => fun _ => rfl
  | n + 1, s, hn => by
    have hi : 2 - (recvIndex n).val = n := by simp [recvIndex, Fin.ofNat]; omega
    refine (recvByte_portioned s).then (fun r t => ?_) (fun ph t => ?_)
    · exact fun w => recvBytes_portioned n (storeByte (recvIndex n) r t) (by omega) w
    · rw [resumeRecv3, hi]

theorem recv3_portioned (s : State) : Portioned recv3 resumeRecv3 s :=
  fun w => recvBytes_portioned 3 { s with rxcnt := 0 } (by omega) w

theorem resumeRecv3_portioned (p : Recv3Phase) (s : State) : Portioned (resumeRecv3 p) resumeRecv3 s := by
  refine (resumeRecvByte_portioned p.byte s).then (fun r t => ?_) (fun _ _ => rfl)
  exact fun w => recvBytes_portioned (2 - p.index.val) (storeByte p.index r t) (by omega) w

/-! Device Session -/

theorem resetDone_portioned (s : State) : Portioned resetDone resumeSession s := fun _ => rfl

theorem resetEnable_portioned (s : State) : Portioned resetEnable resumeSession s :=
  (sendCommand_portioned _ s).then (fun _ t => resetDone_portioned t) (fun _ _ => rfl)

theorem resetRemote_portioned (s : State) : Portioned resetRemote resumeSession s :=
  (sendCommand_portioned _ s).then (fun _ t => resetEnable_portioned t) (fun _ _ => rfl)

theorem resetIdentity_portioned (r : Byte) (s : State) : Portioned (resetIdentity r) resumeSession s := by
  intro w
  unfold resetIdentity
  split
  · exact resetRemote_portioned s w
  · rfl

theorem resetSelfTest_portioned (r : Byte) (s : State) : Portioned (resetSelfTest r) resumeSession s := by
  intro w
  unfold resetSelfTest
  split
  · exact (recvByte_portioned s).then (res' := resumeSession) resetIdentity_portioned (fun _ _ => rfl) w
  · rfl

theorem resetReply_portioned (s : State) : Portioned resetReply resumeSession s :=
  (recvByte_portioned s).then resetSelfTest_portioned (fun _ _ => rfl)

theorem resetDevice_portioned (s : State) : Portioned resetDevice resumeSession s :=
  (sendCommand_portioned _ s).then (fun _ t => resetReply_portioned t) (fun _ _ => rfl)

theorem enStream_portioned (s : State) : Portioned enStream resumeSession s :=
  (sendCommand_portioned _ s).then (fun _ _ => fun _ => rfl) (fun _ _ => rfl)

theorem disStream_portioned (s : State) : Portioned disStream resumeSession s :=
  (sendCommand_portioned _ s).then (fun _ _ => fun _ => rfl) (fun _ _ => rfl)

theorem setScaling_portioned (flag : Bool) (s : State) : Portioned (setScaling flag) resumeSession s :=
  (sendCommand_portioned _ s).then (fun _ _ => fun _ => rfl) (fun _ _ => rfl)

theorem setRes_portioned (r : Byte) (s : State) : Portioned (setRes r) resumeSession s :=
  (sendCommandP_portioned _ _ s).then (fun _ _ => fun _ => rfl) (fun _ _ => rfl)

theorem setRate_portioned (r : Byte) (s : State) : Portioned (setRate r) resumeSession s :=
  (sendCommandP_portioned _ _ s).then (fun _ _ => fun _ => rfl) (fun _ _ => rfl)

theorem getDone_portioned (s : State) : Portioned getDone resumeSession s := fun _ => rfl

theorem getRecord_portioned (s : State) : Portioned getRecord resumeSession s :=
  (recv3_portioned s).then (fun _ t => getDone_portioned t) (fun _ _ => rfl)

theorem getSettings_portioned (s : State) : Portioned getSettings resumeSession s :=
  (sendCommand_portioned _ s).then (fun _ t => getRecord_portioned t) (fun _ _ => rfl)

theorem streamDone_portioned (s : State) : Portioned streamDone resumeSession s := fun _ => rfl

theorem streamRecord_portioned (s : State) : Portioned streamRecord resumeSession s :=
  (recv3_portioned s).then (fun _ t => streamDone_portioned t) (fun _ _ => rfl)

theorem readStream_portioned (s : State) : Portioned readStream resumeSession s := by
  refine (pinRead_portioned .clk s).then (fun c t => ?_) (fun _ _ => rfl)
  intro w
  unfold streamDecide
  split
  · rfl
  · exact streamRecord_portioned t w

/-- READDATA in remote mode, before the restoring of `SESSION`: it goes on as `resumeSession` does without it. -/
def resumeReading (s0 : Session) (p : SessionPhase) (s : State) : Run SessionPhase Unit :=
  match p with
  | .readSend _ c => (resumeCommand c s).within (.readSend s0) fun _ s => readRecord s0 s
  | .readRecv _ r => (resumeRecv3 r s).within (.readRecv s0) fun _ s => readDone s0 s
  | _ => resumeSession p s

theorem readRecord_portioned (s0 : Session) (s : State) : Portioned (readRecord s0) (resumeReading s0) s :=
  (recv3_portioned s).then (fun _ _ => fun _ => rfl) (fun _ _ => rfl)

/-- The places of a READDATA in remote mode. -/
def Reading (s0 : Session) (r : Run SessionPhase Unit) : Prop :=
  r.Meets (fun _ _ => True) (fun _ _ => True) (fun ph _ => (∃ c, ph = .readSend s0 c) ∨ ∃ c, ph = .readRecv s0 c)

theorem readRecord_reading (s0 : Session) (s : State) : Reading s0 (readRecord s0 s) :=
  Run.Meets.within (D := fun _ _ => True) (E := fun _ _ => True) (W := fun _ _ => True) (by cases recv3 s <;> exact trivial)
    (fun _ _ _ => trivial) (fun _ _ _ => trivial) (fun ph _ _ => .inr ⟨ph, rfl⟩)

theorem Portioned.restoring {op : State → Run SessionPhase Unit} {s0 : Session} {s : State}
    (h : Portioned op (resumeReading s0) s) (hr : Reading s0 (op s)) :
    Portioned (fun s => (op s).onRaise (restoreSession s0)) resumeSession s := by
  intro w
  show (op (s.more w)).onRaise (restoreSession s0) = ((op s).onRaise (restoreSession s0)).more resumeSession w
  rw [h w]
  cases ho : op s with
  | done v t => rfl
  | raised e t => rfl
  | waiting ph t =>
    rw [ho] at hr
    obtain ⟨c, rfl⟩ | ⟨c, rfl⟩ := hr
    · rfl
    · rfl

theorem reading_send {r : Run CommandPhase Unit} (s0 : Session) :
    Reading s0 (r.within (.readSend s0) fun _ t => readRecord s0 t) :=
  Run.Meets.within (D := fun _ _ => True) (E := fun _ _ => True) (W := fun _ _ => True) (by cases r <;> exact trivial)
    (fun _ t _ => readRecord_reading s0 t) (fun _ _ _ => trivial) (fun ph _ _ => .inl ⟨ph, rfl⟩)

theorem reading_recv {r : Run Recv3Phase Unit} (s0 : Session) :
    Reading s0 (r.within (.readRecv s0) fun _ t => readDone s0 t) :=
  Run.Meets.within (D := fun _ _ => True) (E := fun _ _ => True) (W := fun _ _ => True) (by cases r <;> exact trivial)
    (fun _ _ _ => trivial) (fun _ _ _ => trivial) (fun ph _ _ => .inr ⟨ph, rfl⟩)

theorem enterReading_more (s : State) (w : List Levels) : enterReading (s.more w) = (enterReading s).more w := by
  by_cases h : s.session = .remoteIdle <;> simp [enterReading, State.more, h]

theorem readRemote_portioned (s : State) : Portioned readRemote resumeSession s := by
  intro w
  have h : Portioned (fun t => (sendCommand CommandCode.readData.code t).within (.readSend s.session) fun _ t =>
      readRecord s.session t) (resumeReading s.session) (enterReading s) :=
    (sendCommand_portioned _ _).then (fun _ t => readRecord_portioned _ t) (fun _ _ => rfl)
  have := h.restoring (reading_send _) w
  rw [readRemote, enterReading_more]
  exact this

theorem readData_portioned (s : State) : Portioned readData resumeSession s := by
  intro w
  have hm : (s.more w).mode = s.mode := rfl
  unfold readData
  rw [hm]
  cases s.mode with
  | remote => exact readRemote_portioned s w
  | streaming => exact readStream_portioned s w

theorem resumeSession_portioned (p : SessionPhase) (s : State) : Portioned (resumeSession p) resumeSession s := by
  cases p with
  | resetSend c => exact (resumeCommand_portioned c s).then (fun _ t => resetReply_portioned t) (fun _ _ => rfl)
  | resetSelfTest b => exact (resumeRecvByte_portioned b s).then resetSelfTest_portioned (fun _ _ => rfl)
  | resetIdentity b => exact (resumeRecvByte_portioned b s).then resetIdentity_portioned (fun _ _ => rfl)
  | resetRemote c => exact (resumeCommand_portioned c s).then (fun _ t => resetEnable_portioned t) (fun _ _ => rfl)
  | resetEnable c => exact (resumeCommand_portioned c s).then (fun _ t => resetDone_portioned t) (fun _ _ => rfl)
  | enStream c => exact (resumeCommand_portioned c s).then (fun _ _ => fun _ => rfl) (fun _ _ => rfl)
  | disStream c => exact (resumeCommand_portioned c s).then (fun _ _ => fun _ => rfl) (fun _ _ => rfl)
  | setScaling c => exact (resumeCommand_portioned c s).then (fun _ _ => fun _ => rfl) (fun _ _ => rfl)
  | setRes c => exact (resumeCommand_portioned c s).then (fun _ _ => fun _ => rfl) (fun _ _ => rfl)
  | setRate c => exact (resumeCommand_portioned c s).then (fun _ _ => fun _ => rfl) (fun _ _ => rfl)
  | getSend c => exact (resumeCommand_portioned c s).then (fun _ t => getRecord_portioned t) (fun _ _ => rfl)
  | getRecv r => exact (resumeRecv3_portioned r s).then (fun _ t => getDone_portioned t) (fun _ _ => rfl)
  | readSend s0 c =>
    have h : Portioned (fun s => (resumeCommand c s).within (.readSend s0) fun _ t => readRecord s0 t) (resumeReading s0) s :=
      (resumeCommand_portioned c s).then (fun _ t => readRecord_portioned s0 t) (fun _ _ => rfl)
    exact h.restoring (reading_send s0)
  | readRecv s0 r =>
    have h : Portioned (fun s => (resumeRecv3 r s).within (.readRecv s0) fun _ t => readDone s0 t) (resumeReading s0) s :=
      (resumeRecv3_portioned r s).then (fun _ _ => fun _ => rfl) (fun _ _ => rfl)
    exact h.restoring (reading_recv s0)
  | streamPoll => exact readStream_portioned s
  | streamRecv r => exact (resumeRecv3_portioned r s).then (fun _ t => streamDone_portioned t) (fun _ _ => rfl)

end Sys2Proof.Machine
end

