-- ==== Sys2Proof/Laws/Session.lean ====
section
/-! SUPPORT. Device Session: RECV3 and the session operations on answers that let them return. -/

namespace Sys2Proof.Machine

/-- RECV3 receives the record (R131). -/
theorem recv3_done {r : Record} {t : Bool} {w rest : List Levels} {s : State} (hw : RecordAnswers s.params r t w)
    (hs : s.wire = w ++ rest) :
    ∃ u, recv3 s = .done () u ∧ Emits s u w.length (recvOutputs ++ recvOutputs ++ recvOutputs) ∧
      u = s.afterRecord u r t rest := by
  obtain ⟨w0, w1, w2, t0, t1, rfl, h0, h1, h2⟩ := hw
  obtain ⟨a, ha, hea, haeq⟩ := recvByte_done (s := { s with rxcnt := 0 }) (rest := w1 ++ (w2 ++ rest)) h0 (by simpa using hs)
  obtain ⟨b, hb, heb, hbeq⟩ := recvByte_done (s := storeByte 0 r.b0 a) (rest := w2 ++ rest) (w := w1) (v := r.b1) (t := t1)
    (by simp only [storeByte]; rw [haeq]; exact h1) (by simp only [storeByte]; rw [haeq]; rfl)
  obtain ⟨c, hc, hec, hceq⟩ := recvByte_done (s := storeByte 1 r.b1 b) (rest := rest) (w := w2) (v := r.b2) (t := t)
    (by simp only [storeByte]; rw [hbeq]; simp only [storeByte]; rw [haeq]; exact h2)
    (by simp only [storeByte]; rw [hbeq]; rfl)
  refine ⟨storeByte 2 r.b2 c, ?_, ?_, ?_⟩
  · rw [recv3]
    show recvBytes 3 _ = _
    rw [recvBytes, ha, Run.within_done, show recvIndex 2 = 0 from rfl, recvBytes, hb, Run.within_done,
      show recvIndex 1 = 1 from rfl, recvBytes, hc, Run.within_done, show recvIndex 0 = 2 from rfl, recvBytes]
  · refine ((hea.congr (s' := s) (t' := storeByte 0 r.b0 a) rfl rfl).trans ((heb.congr (t' := storeByte 1 r.b1 b) rfl rfl).trans
      (hec.congr (t' := storeByte 2 r.b2 c) rfl rfl))).congr_out ?_ ?_
    · simp
    · simp
  · simp only [storeByte]
    rw [hceq]
    simp only [storeByte]
    rw [hbeq]
    simp only [storeByte]
    rw [haeq]
    simp [State.afterRecord, State.afterRecv, Memory.withRecord]

/-- The last byte and its stop bit apart, a decoder reads the record that RECV3 stored. -/
theorem recordOf_afterRecord {s u : State} {r : Record} {t : Bool} {rest : List Levels} (h : Memory.wf s.rxbuf = true) :
    recordOf (s.afterRecord u r t rest) = r := by
  obtain ⟨h0, h1, h2⟩ := Memory.read_withRecord r h
  simp only [recordOf, State.afterRecord, if_true, h0, h1, h2]

end Sys2Proof.Machine
end

