-- ==== Sys2Proof/Laws/Exec.lean ====
section
/-! SUPPORT. `exec` in three shapes: what is requested on the port, what the device sends, and FRAME_TX; and what the first
and the going on of an operation leave. -/

namespace Sys2Proof.Machine

/-- What an accepted request runs, on the state with `BUSY` set. -/
def portOp : Instr → State → State
  | .sendBit b, s => conclude (sendBit b s) .sendBit noResult
  | .recvBit, s => conclude (recvBit s) .recvBit resultBit
  | .sendByte v, s => conclude (sendByte v s) .sendByte noResult
  | .recvByte, s => conclude (recvByte s) .recvByte resultByte
  | .sendCmd code, s => conclude (sendCommand code s) .command noResult
  | .sendCmdP code param, s => conclude (sendCommandP code param s) .command noResult
  | .reset, s => conclude (resetDevice s) .session noResult
  | .enStream, s => conclude (enStream s) .session noResult
  | .disStream, s => conclude (disStream s) .session noResult
  | .setScaling flag, s => conclude (setScaling flag s) .session noResult
  | .setRes r, s => conclude (setRes r s) .session noResult
  | .setRate r, s => conclude (setRate r s) .session noResult
  | .getSettings, s => conclude (getSettings s) .session noResult
  | .readData, s => conclude (readData s) .session noResult
  | .decStatus, s => (decStatus s).succeed
  | .decMotion, s => (decMotion s).succeed
  | .cmdDisableScaling, s => conclude (sendCommand CommandCode.disableScaling.code s) .command noResult
  | .cmdEnableScaling, s => conclude (sendCommand CommandCode.enableScaling.code s) .command noResult
  | .cmdSetResolution param, s => conclude (sendCommandP CommandCode.setResolution.code param s) .command noResult
  | .cmdStatusRequest, s => conclude (sendCommand CommandCode.statusRequest.code s) .command noResult
  | .cmdSetStreamMode, s => conclude (sendCommand CommandCode.setStreamMode.code s) .command noResult
  | .cmdReadData, s => conclude (sendCommand CommandCode.readData.code s) .command noResult
  | .cmdReset, s => conclude (sendCommand CommandCode.reset.code s) .command noResult
  | .cmdSetRemoteMode, s => conclude (sendCommand CommandCode.setRemoteMode.code s) .command noResult
  | .cmdSetSampleRate param, s => conclude (sendCommandP CommandCode.setSampleRate.code param s) .command noResult
  | .cmdEnableDataReporting, s => conclude (sendCommand CommandCode.enableDataReporting.code s) .command noResult
  | .cmdDisableDataReporting, s => conclude (sendCommand CommandCode.disableDataReporting.code s) .command noResult
  | .respIsMouse, s => s
  | .respSelfTestPassed, s => s
  | .respAck, s => s
  | .respError, s => s
  | .respResend, s => s
  | .frameTx _ _ _, s => s
  | .frameRx _ _ _, s => s
  | .status _ _ _, s => s
  | .motion _ _ _, s => s

theorem exec_onPort {i : Instr} (h : i.onPort = true) (s : State) : exec i s = request (portOp i) s := by
  cases i <;> first | rfl | cases h

theorem exec_idle {i : Instr} (h : i.onPort = true) {s : State} (hb : s.busy = false) :
    exec i s = .next (portOp i s.accept) := (exec_onPort h s).trans (request_idle hb)

theorem exec_busy {i : Instr} (h : i.onPort = true) {s : State} (hb : s.busy = true) : exec i s = .next s :=
  (exec_onPort h s).trans (request_busy hb)

/-- The levels that carry what the device sends. -/
def deviceLevels : Instr → List Levels
  | .respIsMouse => goodFrame ResponseCode.isMouse.code
  | .respSelfTestPassed => goodFrame ResponseCode.selfTestPassed.code
  | .respAck => goodFrame ResponseCode.ack.code
  | .respError => goodFrame ResponseCode.error.code
  | .respResend => goodFrame ResponseCode.resend.code
  | .frameRx v p t => frameRxLevels v p t
  | .status b0 b1 b2 => goodFrame b0 ++ goodFrame b1 ++ goodFrame b2
  | .motion b0 b1 b2 => goodFrame b0 ++ goodFrame b1 ++ goodFrame b2
  | _ => []

theorem exec_fromDevice {i : Instr} (h : i.fromDevice = true) (s : State) :
    exec i s = .next (deliver (deviceLevels i) s) := by
  cases i <;> first | rfl | cases h

/-! How an operation on the port stands -/

/-- A property of the state an operation on the port leaves, in its three cases. -/
theorem conclude_of {φ α : Type} {r : Run φ α} {wrap : φ → Phase} {out : α → State → State} {D : α → State → Prop}
    {E : ErrKind → State → Prop} {W : φ → State → Prop} {P : State → Prop} (h : r.Meets D E W)
    (hd : ∀ v t, D v t → P (out v t).succeed) (he : ∀ k t, E k t → P (t.fail k)) (hw : ∀ ph t, W ph t → P (t.hold (wrap ph))) :
    P (conclude r wrap out) := by
  cases r with
  | done v t => exact hd v t h
  | raised k t => exact he k t h
  | waiting ph t => exact hw ph t h

theorem Grows.accept {s t : State} (h : Grows s.accept t) : Grows s t := h.congr rfl rfl rfl rfl rfl rfl rfl rfl

theorem Grows.succeed {s t : State} (h : Grows s t) : Grows s t.succeed := h.congr rfl rfl rfl rfl rfl rfl rfl rfl

theorem Grows.fail {s t : State} (h : Grows s t) (k : ErrKind) : Grows s (t.fail k) := h.congr rfl rfl rfl rfl rfl rfl rfl rfl

theorem Grows.hold {s t : State} (h : Grows s t) (ph : Phase) : Grows s (t.hold ph) := h.congr rfl rfl rfl rfl rfl rfl rfl rfl

/-- What an operation on the port keeps, in whichever way it stands: a register it does not write, nor its end does. -/
theorem conclude_stays {φ α : Type} {r : Run φ α} {wrap : φ → Phase} {out : α → State → State} {F : State → Prop}
    {K : ErrKind → Prop} {P : State → Prop} (h : r.Stays F K) (hd : ∀ v t, F t → P (out v t).succeed)
    (he : ∀ k t, F t → P (t.fail k)) (hw : ∀ ph t, F t → P (t.hold ph)) : P (conclude r wrap out) :=
  conclude_of h hd (fun k t he' => he k t he'.1) (fun ph t hw' => hw (wrap ph) t hw')

theorem grows_conclude {φ α : Type} {r : Run φ α} {wrap : φ → Phase} {out : α → State → State} {F : State → Prop}
    {K : ErrKind → Prop} {s : State} (h : r.Stays F K) (hF : ∀ t, F t → Grows s t)
    (hout : ∀ v t, Grows s t → Grows s (out v t)) : Grows s (conclude r wrap out) :=
  conclude_stays h (fun v t ht => (hout v t (hF t ht)).succeed) (fun k t ht => (hF t ht).fail k)
    (fun ph t ht => (hF t ht).hold ph)

theorem Grows.resultBit {s t : State} (b : Bool) (h : Grows s t) : Grows s (resultBit b t) :=
  h.congr rfl rfl rfl rfl rfl rfl rfl rfl

theorem Grows.resultByte {s t : State} (v : Byte) (h : Grows s t) : Grows s (resultByte v t) :=
  h.congr rfl rfl rfl rfl rfl rfl rfl rfl

/-- A Device Session operation as a `Stays`, without what it says of `SESSION`. -/
theorem SessionMeets.stays {A : Bool → Session → Session} {B : Session → Session} {s : State} {r : Run SessionPhase Unit}
    (h : SessionMeets A B s r) : r.Stays (SessionLeaves s) (SessionKind s.params) := by
  cases r with
  | done v t => exact h.1
  | raised k t => exact ⟨h.1, h.2.1⟩
  | waiting ph t => exact h.1

theorem readData_stays (s : State) : (readData s).Stays (SessionLeaves s) (SessionKind s.params) := by
  unfold readData
  cases s.mode with
  | remote =>
    have hp : (enterReading s).params = s.params := (enterReading_leaves s).params
    exact (readRemote_meets s).stays.mono (fun _ ht => (enterReading_leaves s).trans ht) (fun _ hk => hp ▸ hk)
  | streaming => exact (readStream_meets s).stays

end Sys2Proof.Machine
end

