-- ==== Sys2Proof/Laws/Steps.lean ====
section
/-! SUPPORT. The shapes of a step, how `resume` goes on from each phase, that without an answer nothing happens, and that
the result registers are written at the end of an operation only. -/

namespace Sys2Proof.Machine

/-! Going on from each phase -/

theorem resume_idle {s : State} (h : s.phase = .idle) : resume s = s := by unfold resume; rw [h]

theorem resume_sendBit {p : SendBitPhase} {s : State} (h : s.phase = .sendBit p) :
    resume s = conclude (resumeSendBit p s.goOn) .sendBit noResult := by unfold resume; rw [h]

theorem resume_recvBit {p : RecvBitPhase} {s : State} (h : s.phase = .recvBit p) :
    resume s = conclude (resumeRecvBit p s.goOn) .recvBit resultBit := by unfold resume; rw [h]

theorem resume_sendByte {p : SendBytePhase} {s : State} (h : s.phase = .sendByte p) :
    resume s = conclude (resumeSendByte p s.goOn) .sendByte noResult := by unfold resume; rw [h]

theorem resume_recvByte {p : RecvBytePhase} {s : State} (h : s.phase = .recvByte p) :
    resume s = conclude (resumeRecvByte p s.goOn) .recvByte resultByte := by unfold resume; rw [h]

theorem resume_command {p : CommandPhase} {s : State} (h : s.phase = .command p) :
    resume s = conclude (resumeCommand p s.goOn) .command noResult := by unfold resume; rw [h]

theorem resume_session {p : SessionPhase} {s : State} (h : s.phase = .session p) :
    resume s = conclude (resumeSession p s.goOn) .session noResult := by unfold resume; rw [h]

/-! The shapes of a step -/

/-- What holds of each thing an instruction can do holds of it: an accepted request, an operation that goes on with more
answers, FRAME_TX at an idle block, and nothing at all. -/
theorem exec_induction {P : State → State → Prop} (same : ∀ s, P s s)
    (port : ∀ i s, i.onPort = true → s.busy = false → P s (portOp i s.accept))
    (more : ∀ s w, s.busy = true → P s (resume { s with wire := s.wire ++ w }))
    (sent : ∀ s v w, s.busy = false → P s (portOp (.sendByte v) { s with wire := s.wire ++ w }.accept))
    {i : Instr} {s t : State} (h : exec i s = .next t) : P s t := by
  have hdel : ∀ ls, P s (deliver ls s) := fun ls => by
    unfold deliver
    split
    · exact more s _ ‹_›
    · exact same s
  by_cases hp : i.onPort = true
  · cases hb : s.busy
    · rw [exec_idle hp hb] at h
      injection h with h
      exact h ▸ port i s hp hb
    · rw [exec_busy hp hb] at h
      injection h with h
      exact h ▸ same s
  · by_cases hd : i.fromDevice = true
    · rw [exec_fromDevice hd] at h
      injection h with h
      exact h ▸ hdel _
    · cases i <;> first | exact absurd rfl hp | exact absurd rfl hd | skip
      rename_i v p a
      change execFrameTx v p a s = _ at h
      unfold execFrameTx at h
      split at h
      · injection h with h
        exact h ▸ same s
      · split at h
        · split at h <;> injection h with h
          · exact h ▸ hdel _
          · exact h ▸ same s
        · rename_i hb
          have hb' : s.busy = false := by simpa using hb
          have e : execSendByte v { s with wire := s.wire ++ frameTxLevels a } =
              .next (portOp (.sendByte v) { s with wire := s.wire ++ frameTxLevels a }.accept) :=
            exec_idle (i := .sendByte v) rfl hb'
          rw [e] at h
          injection h with h
          exact h ▸ sent s v _ hb'

/-- A word outside the table does what some instruction does, or brings levels to the operation in progress, or nothing
(R72, R73, R106). -/
theorem execOutsideTable_cases (e : DecodeError) (s : State) :
    (∃ i, execOutsideTable e s = exec i s) ∨ (∃ ls, execOutsideTable e s = .next (deliver ls s)) ∨ execOutsideTable e s = .next s := by
  cases e with
  | unknownCommand c => exact .inl ⟨.sendCmd c, rfl⟩
  | unknownParameterCommand c p => exact .inl ⟨.sendCmdP c p, rfl⟩
  | unknownResponse v => exact .inr (.inl ⟨goodFrame v, rfl⟩)
  | receivedStartBit v p t => exact .inr (.inl ⟨misframedLevels v p t, rfl⟩)
  | sentStartBit => exact .inr (.inr rfl)
  | sentStopBit => exact .inr (.inr rfl)
  | sentParityBit => exact .inr (.inr rfl)

/-- What holds of each thing a step can do holds of a step: an accepted request, an operation that goes on with the answers
that are there, with more of them or with a free one, FRAME_TX at an idle block, and nothing at all. `P` may not depend on
what is still to be presented. -/
theorem step_induction {P : State → State → Prop} (same : ∀ s, P s s)
    (port : ∀ i s, i.onPort = true → s.busy = false → P s (portOp i s.accept))
    (more : ∀ s w, s.busy = true → P s (resume { s with wire := s.wire ++ w }))
    (free : ∀ s l d, s.busy = true → P s (resume { s with wire := [l], draws := d }))
    (sent : ∀ s v w, s.busy = false → P s (portOp (.sendByte v) { s with wire := s.wire ++ w }.accept))
    (inbox : ∀ s t l, P { s with inbox := l } t → P s t) {s t : State} (h : step s = .next t) : P s t := by
  unfold step State.nextItem at h
  cases hi : s.inbox with
  | nil =>
    rw [hi] at h
    simp only at h
    split at h
    · rename_i hb
      split at h
      · cases h
      · injection h with h
        subst h
        unfold State.answered
        split
        · exact free s _ _ hb
        · have := more s [] hb
          rwa [List.append_nil] at this
    · injection h with h
      exact h ▸ same s
  | cons it rest =>
    rw [hi] at h
    simp only at h
    refine inbox s t rest ?_
    split at h
    · exact exec_induction same port more sent h
    · rename_i e _
      obtain ⟨i, hi⟩ | ⟨ls, hd⟩ | hn := execOutsideTable_cases e { s with inbox := rest }
      · exact exec_induction same port more sent (hi ▸ h)
      · rw [hd] at h
        injection h with h
        rw [← h]
        unfold deliver
        split
        · exact more _ _ ‹_›
        · exact same _
      · rw [hn] at h
        injection h with h
        exact h ▸ same _

/-! Without an answer an operation stays where it waits (R25) -/

theorem waitMore_starved {level : Bool} {s : State} (hw : s.wire = []) : waitMore level s = .waiting () s := by
  unfold waitMore
  rw [hw]
  rfl

theorem resumeSendBit_starved {s : State} (hw : s.wire = []) (p : SendBitPhase) : resumeSendBit p s = .waiting p s := by
  cases p <;> (simp only [resumeSendBit, waitMore_starved hw]; rfl)

theorem resumeRecvBit_starved {s : State} (hw : s.wire = []) (p : RecvBitPhase) : resumeRecvBit p s = .waiting p s := by
  cases p with
  | waitLow => simp only [resumeRecvBit, waitMore_starved hw]; rfl
  | sample => simp only [resumeRecvBit, recvBitSample, pinRead]; rw [hw]; rfl
  | waitHigh => simp only [resumeRecvBit, waitMore_starved hw]; rfl

theorem resumeSendByte_starved {s : State} (hw : s.wire = []) (p : SendBytePhase) : resumeSendByte p s = .waiting p s := by
  cases p with
  | cell bit => simp only [resumeSendByte, resumeSendBit_starved hw]; rfl
  | ack bit => simp only [resumeSendByte, resumeRecvBit_starved hw]; rfl

theorem resumeRecvByte_starved {s : State} (hw : s.wire = []) (p : RecvBytePhase) : resumeRecvByte p s = .waiting p s := by
  cases p <;> (simp only [resumeRecvByte, resumeRecvBit_starved hw]; rfl)

theorem resumeCommand_starved {s : State} (hw : s.wire = []) (p : CommandPhase) : resumeCommand p s = .waiting p s := by
  obtain ⟨which, ack⟩ := p
  cases ack with
  | send b => simp only [resumeCommand, resumeAcked, resumeSendByte_starved hw]; rfl
  | recvAck b => simp only [resumeCommand, resumeAcked, resumeRecvByte_starved hw]; rfl

theorem resumeRecv3_starved {s : State} (hw : s.wire = []) (p : Recv3Phase) : resumeRecv3 p s = .waiting p s := by
  simp only [resumeRecv3, resumeRecvByte_starved hw]; rfl

theorem resumeSession_starved {s : State} (hw : s.wire = []) (p : SessionPhase) : resumeSession p s = .waiting p s := by
  cases p <;> simp only [resumeSession, resumeCommand_starved hw, resumeRecvByte_starved hw, resumeRecv3_starved hw,
    Run.within_waiting, Run.onRaise_waiting]
  unfold readStream pinRead
  rw [hw]
  rfl

theorem recvByte_starved {s : State} (hw : s.wire = []) :
    recvByte s = .waiting (.cell .waitLow) { recvOpen s with waitcnt := 0 } := by
  have h : (recvOpen s).wire = [] := hw
  simp only [recvByte, recvBit, waitClk, waitMore]
  rw [h]
  rfl

/-! An operation on the port may have its answers in portions -/

/-- The portions of a sub-operation are those of the operation on the port (R25). -/
theorem conclude_portion {φ α : Type} {op : State → Run φ α} {res : φ → State → Run φ α} {wrap : φ → Phase}
    {out : α → State → State} {s : State} {F : State → Prop} {K : ErrKind → Prop} (h : Portioned op res s)
    (hs : (op s).Stays F K) (hF : ∀ t, F t → t.phase = .idle) (ho : ∀ v t w, out v (t.more w) = (out v t).more w)
    (hr : ∀ ph (t : State), t.phase = wrap ph → resume t = conclude (res ph t.goOn) wrap out) (w : List Levels) :
    conclude (op (s.more w)) wrap out = resume ((conclude (op s) wrap out).more w) := by
  rw [h w]
  cases hc : op s with
  | done v t =>
    show (out v (t.more w)).succeed = resume ((out v t).succeed.more w)
    rw [ho]
    rfl
  | raised k t => rfl
  | waiting ph t =>
    rw [hc] at hs
    have hi := hF t hs
    show conclude (res ph (t.more w)) wrap out = resume ((t.hold (wrap ph)).more w)
    rw [hr ph ((t.hold (wrap ph)).more w) rfl]
    have hg : ((t.hold (wrap ph)).more w).goOn = t.more w := by
      show { t.more w with phase := .idle } = t.more w
      rw [← hi]
      rfl
    rw [hg]

/-! The result registers of a Device Session operation -/

/-- Unless it has returned, a Device Session operation has written no result register (R172, R52). -/
def ResultsKept (s : State) (r : Run SessionPhase Unit) : Prop :=
  r.Meets (fun _ _ => True) (fun _ t => t.st = s.st ∧ t.mv = s.mv) (fun _ t => t.st = s.st ∧ t.mv = s.mv)

theorem ResultsKept.after {s t : State} {r : Run SessionPhase Unit} (h : ResultsKept t r) (hst : t.st = s.st)
    (hmv : t.mv = s.mv) : ResultsKept s r := by
  cases r with
  | done v u => trivial
  | raised v u => exact ⟨h.1.trans hst, h.2.trans hmv⟩
  | waiting v u => exact ⟨h.1.trans hst, h.2.trans hmv⟩

theorem ResultsKept.ofCommand {s : State} {r : Run CommandPhase Unit} {K : ErrKind → Prop} {wrap : CommandPhase → SessionPhase}
    {k : Unit → State → Run SessionPhase Unit} (h : r.Stays (CommandLeaves s) K) (hk : ∀ t, ResultsKept t (k () t)) :
    ResultsKept s (r.within wrap k) :=
  Run.Meets.within h (fun _ t ht => (hk t).after (by rw [ht.1]) (by rw [ht.1]))
    (fun _ t ht => ⟨by rw [ht.1.1], by rw [ht.1.1]⟩) (fun _ t ht => ⟨by rw [ht.1], by rw [ht.1]⟩)

theorem ResultsKept.ofRecvByte {s : State} {r : Run RecvBytePhase Byte} {K : ErrKind → Prop}
    {wrap : RecvBytePhase → SessionPhase} {k : Byte → State → Run SessionPhase Unit} (h : r.Stays (RecvByteLeaves s) K)
    (hk : ∀ v t, ResultsKept t (k v t)) : ResultsKept s (r.within wrap k) :=
  Run.Meets.within h (fun v t ht => (hk v t).after (by rw [ht.1]) (by rw [ht.1]))
    (fun _ t ht => ⟨by rw [ht.1.1], by rw [ht.1.1]⟩) (fun _ t ht => ⟨by rw [ht.1], by rw [ht.1]⟩)

theorem ResultsKept.ofRecord {s : State} {r : Run Recv3Phase Unit}
    (h : r.Meets (fun _ t => BufferLeaves s t ∧ t.rxcnt = 3) (fun k t => BufferLeaves s t ∧ RecvByteKind s.params k)
      (fun _ t => BufferLeaves s t)) {wrap : Recv3Phase → SessionPhase} {k : Unit → State → Run SessionPhase Unit}
    (hk : ∀ t, ResultsKept t (k () t)) : ResultsKept s (r.within wrap k) :=
  Run.Meets.within h (fun _ t ht => (hk t).after (by rw [ht.1.1]) (by rw [ht.1.1]))
    (fun _ t ht => ⟨by rw [ht.1.1], by rw [ht.1.1]⟩) (fun _ t ht => ⟨by rw [ht.1], by rw [ht.1]⟩)

theorem ResultsKept.done (s t : State) : ResultsKept s (.done () t) := trivial

theorem ResultsKept.stop (s : State) (k : ErrKind) : ResultsKept s (.raised k s) := ⟨rfl, rfl⟩

theorem ResultsKept.onRaise {s : State} {r : Run SessionPhase Unit} (h : ResultsKept s r) (s0 : Session) :
    ResultsKept s (r.onRaise (restoreSession s0)) := by
  cases r <;> exact h

theorem resetIdentity_resultsKept (r : Byte) (s : State) : ResultsKept s (resetIdentity r s) := by
  unfold resetIdentity
  split
  · exact .ofCommand (sendCommand_stays _ _) fun _ => .ofCommand (sendCommand_stays _ _) fun _ => .done _ _
  · exact .stop _ _

theorem resetSelfTest_resultsKept (r : Byte) (s : State) : ResultsKept s (resetSelfTest r s) := by
  unfold resetSelfTest
  split
  · exact .ofRecvByte (recvByte_stays _) resetIdentity_resultsKept
  · exact .stop _ _

theorem resetDevice_resultsKept (s : State) : ResultsKept s (resetDevice s) :=
  .ofCommand (sendCommand_stays _ _) fun _ => .ofRecvByte (recvByte_stays _) resetSelfTest_resultsKept

theorem getSettings_resultsKept (s : State) : ResultsKept s (getSettings s) :=
  .ofCommand (sendCommand_stays _ _) fun _ => .ofRecord (recv3_buffer _) fun _ => .done _ _

theorem readDone_resultsKept (s0 : Session) (s : State) : ResultsKept s (readDone s0 s) := trivial

theorem readStream_resultsKept (s : State) : ResultsKept s (readStream s) := by
  unfold readStream pinRead
  cases hs : s.wire with
  | nil => exact ⟨rfl, rfl⟩
  | cons l rest =>
    show ResultsKept s (streamDecide (l.at .clk) (s.took .clk l rest))
    unfold streamDecide
    split
    · exact ⟨rfl, rfl⟩
    · exact ResultsKept.after (t := s.took .clk l rest) (.ofRecord (recv3_buffer _) fun _ => .done _ _) rfl rfl

theorem readRemote_resultsKept (s : State) : ResultsKept s (readRemote s) := by
  refine ResultsKept.onRaise (ResultsKept.after (t := enterReading s) (.ofCommand (sendCommand_stays _ _) fun _ =>
    .ofRecord (recv3_buffer _) (readDone_resultsKept s.session)) ?_ ?_) _
  all_goals unfold enterReading; split <;> rfl

theorem readData_resultsKept (s : State) : ResultsKept s (readData s) := by
  unfold readData
  split
  · exact readStream_resultsKept s
  · exact readRemote_resultsKept s

theorem resumeSession_resultsKept (p : SessionPhase) (s : State) : ResultsKept s (resumeSession p s) := by
  cases p with
  | resetSend c =>
    exact .ofCommand (resumeCommand_stays c s) fun _ => .ofRecvByte (recvByte_stays _) resetSelfTest_resultsKept
  | resetSelfTest b => exact .ofRecvByte (resumeRecvByte_stays b s) resetSelfTest_resultsKept
  | resetIdentity b => exact .ofRecvByte (resumeRecvByte_stays b s) resetIdentity_resultsKept
  | resetRemote c =>
    exact .ofCommand (resumeCommand_stays c s) fun _ => .ofCommand (sendCommand_stays _ _) fun _ => .done _ _
  | resetEnable c => exact .ofCommand (resumeCommand_stays c s) fun _ => .done _ _
  | enStream c => exact .ofCommand (resumeCommand_stays c s) fun _ => .done _ _
  | disStream c => exact .ofCommand (resumeCommand_stays c s) fun _ => .done _ _
  | setScaling c => exact .ofCommand (resumeCommand_stays c s) fun _ => .done _ _
  | setRes c => exact .ofCommand (resumeCommand_stays c s) fun _ => .done _ _
  | setRate c => exact .ofCommand (resumeCommand_stays c s) fun _ => .done _ _
  | getSend c => exact .ofCommand (resumeCommand_stays c s) fun _ => .ofRecord (recv3_buffer _) fun _ => .done _ _
  | getRecv r => exact .ofRecord (resumeRecv3_meets r s) fun _ => .done _ _
  | readSend s0 c =>
    exact .onRaise (.ofCommand (resumeCommand_stays c s) fun _ => .ofRecord (recv3_buffer _) (readDone_resultsKept s0)) _
  | readRecv s0 r => exact .onRaise (.ofRecord (resumeRecv3_meets r s) (readDone_resultsKept s0)) _
  | streamPoll => exact readStream_resultsKept s
  | streamRecv r => exact .ofRecord (resumeRecv3_meets r s) fun _ => .done _ _

end Sys2Proof.Machine
end

