-- ==== Sys2Proof/Laws/Deliveries.lean ====
section
/-! SUPPORT. What the device sends with the least clocking, to an operation that waits with its answers used up. -/

namespace Sys2Proof.Machine

theorem deliver_eq {s : State} {ls : List Levels} (hb : s.busy = true) (hw : s.wire = [])
    (hp : s.phase ≠ .session .streamPoll) : deliver ls s = resume { s with wire := ls } := by
  have h : pollLead s = [] := by
    unfold pollLead
    split
    · exact absurd ‹_› hp
    · rfl
  unfold deliver
  rw [if_pos hb, h, hw]
  rfl

theorem deliver_command {s : State} {p : CommandPhase} {ls : List Levels} (hb : s.busy = true) (hp : s.phase = .command p)
    (hw : s.wire = []) :
    deliver ls s = conclude (resumeCommand p ({ s with wire := ls } : State).goOn) .command noResult := by
  rw [deliver_eq hb hw (by rw [hp]; simp)]
  exact resume_command (s := { s with wire := ls }) hp

theorem deliver_session {s : State} {p : SessionPhase} {ls : List Levels} (hb : s.busy = true) (hp : s.phase = .session p)
    (hps : p ≠ .streamPoll) (hw : s.wire = []) :
    deliver ls s = conclude (resumeSession p ({ s with wire := ls } : State).goOn) .session noResult := by
  rw [deliver_eq hb hw (by rw [hp]; simpa using hps)]
  exact resume_session (s := { s with wire := ls }) hp

/-- A SENDACKED that waits for its acknowledge byte receives `r` and compares it (R120). -/
theorem resumeCommand_byte {which : WhichByte} {r : Byte} {s : State} (hb : s.bitcnt = 0) (hs : s.wire = goodFrame r) :
    ∃ u, (∃ fuel, resumeCommand { which := which, ack := .recvAck (.cell .waitLow) } s =
        (ackCompare (ackLoop fuel which) r u).within id fun _ s => afterAcked which s) ∧
      Emits s u 33 [] ∧
      u = { s with rxr := r, par := oddParity r, bitcnt := 10, rxbit := true, wire := [], trace := u.trace, waitcnt := 0 } := by
  obtain ⟨u, hu, heu, hueq⟩ := resumeRecvByte_least (v := r) (rest := []) hb (by rw [hs]; simp)
  refine ⟨u, ⟨ackFuel s, ?_⟩, heu, hueq⟩
  rw [resumeCommand, resumeAcked]
  simp only [hu, Run.within_done]

/-- One byte of a record with the least clocking (R131). -/
theorem recvBytes_least {n : Nat} {v : Byte} {rest : List Levels} {s : State} (hs : s.wire = goodFrame v ++ rest) :
    ∃ u, recvBytes (n + 1) s = recvBytes n (storeByte (recvIndex n) v u) ∧ Emits s u 33 recvOutputs ∧
      u = { s.afterRecv u v true rest with waitcnt := 0 } := by
  obtain ⟨u, hu, heu, hueq⟩ := recvByte_least hs
  exact ⟨u, by rw [recvBytes, hu, Run.within_done], heu, hueq⟩

/-- A RECV3 that waits at its first start bit receives a record (R131). -/
theorem resumeRecv3_least {r : Record} {s : State} {rest : List Levels} (hb : s.bitcnt = 0)
    (hs : s.wire = goodFrame r.b0 ++ (goodFrame r.b1 ++ (goodFrame r.b2 ++ rest))) :
    ∃ u, resumeRecv3 { index := 0, byte := .cell .waitLow } s = .done () u ∧ Emits s u 99 (recvOutputs ++ recvOutputs) ∧
      u = { s.afterRecord u r true rest with waitcnt := 0 } := by
  obtain ⟨a, ha, hea, haeq⟩ := resumeRecvByte_least hb hs
  obtain ⟨b, hb', heb, hbeq⟩ := recvBytes_least (n := 1) (v := r.b1) (rest := goodFrame r.b2 ++ rest)
    (s := storeByte 0 r.b0 a) (by rw [haeq]; rfl)
  obtain ⟨c, hc, hec, hceq⟩ := recvBytes_least (n := 0) (v := r.b2) (rest := rest) (s := storeByte 1 r.b1 b)
    (by rw [hbeq]; rfl)
  refine ⟨storeByte 2 r.b2 c, ?_, ?_, ?_⟩
  · rw [resumeRecv3, ha, Run.within_done]
    refine Eq.trans (b := recvBytes 1 (storeByte 1 r.b1 b)) hb' (Eq.trans hc rfl)
  · exact ((hea.congr (t' := storeByte 0 r.b0 a) rfl rfl).trans ((heb.congr (t' := storeByte 1 r.b1 b) rfl rfl).trans
      (hec.congr (t' := storeByte 2 r.b2 c) rfl rfl))).congr_out rfl rfl
  · simp only [storeByte]
    rw [hceq]
    simp only [storeByte]
    rw [hbeq]
    simp only [storeByte]
    rw [haeq]
    simp [State.afterRecord, State.afterRecv, Memory.withRecord]

/-- RECV3 with the least clocking (R131). -/
theorem recv3_least {r : Record} {s : State} {rest : List Levels}
    (hs : s.wire = goodFrame r.b0 ++ (goodFrame r.b1 ++ (goodFrame r.b2 ++ rest))) :
    ∃ u, recv3 s = .done () u ∧ Emits s u 99 (recvOutputs ++ recvOutputs ++ recvOutputs) ∧
      u = { s.afterRecord u r true rest with waitcnt := 0 } := by
  obtain ⟨a, ha, hea, haeq⟩ := recvBytes_least (n := 2) (v := r.b0) (s := { s with rxcnt := 0 }) hs
  obtain ⟨b, hb', heb, hbeq⟩ := recvBytes_least (n := 1) (v := r.b1) (rest := goodFrame r.b2 ++ rest)
    (s := storeByte 0 r.b0 a) (by rw [haeq]; rfl)
  obtain ⟨c, hc, hec, hceq⟩ := recvBytes_least (n := 0) (v := r.b2) (rest := rest) (s := storeByte 1 r.b1 b)
    (by rw [hbeq]; rfl)
  refine ⟨storeByte 2 r.b2 c, ?_, ?_, ?_⟩
  · refine Eq.trans (b := recvBytes 2 (storeByte 0 r.b0 a)) ha ?_
    exact Eq.trans (b := recvBytes 1 (storeByte 1 r.b1 b)) hb' (Eq.trans hc rfl)
  · exact ((hea.congr (s' := s) (t' := storeByte 0 r.b0 a) rfl rfl).trans ((heb.congr (t' := storeByte 1 r.b1 b) rfl rfl).trans
      (hec.congr (t' := storeByte 2 r.b2 c) rfl rfl))).congr_out rfl rfl
  · simp only [storeByte]
    rw [hceq]
    simp only [storeByte]
    rw [hbeq]
    simp only [storeByte]
    rw [haeq]
    simp [State.afterRecord, State.afterRecv, Memory.withRecord]

/-! A frame taken from a command or a Device Session operation -/

theorem AckPhase.sending?_eq {a : AckPhase} {b : SendBytePhase} (h : a.sending? = some b) : a = .send b := by
  cases a with
  | send c => exact congrArg AckPhase.send (Option.some.inj h)
  | recvAck c => cases h

/-- The frame of a handshake is taken and not acknowledged (R103, R125). -/
theorem resumeCommand_nak {v : Byte} {s : State} (hb : s.bitcnt = 0) (ht : s.txr = v) (hpar : s.par = !(v.getLsbD 0)) (hs : s.wire = frameTxLevels true) :
    ∃ t, (∀ p : CommandPhase, p.ack.sending? = some (.cell (.waitLow (v.getLsbD 0))) → resumeCommand p s = .raised .nak t) ∧
      Emits s t 23 ((sendOutputs v).drop 4) ∧
      t = { s with par := oddParity v, bitcnt := 10, ackbit := true, rxbit := true, dataDrv := .inFloat, wire := []
                   trace := t.trace, waitcnt := 0 } := by
  obtain ⟨t, hr, he, hq⟩ := resumeSendByte_frame (a := true) (rest := []) hb ht hpar (by rw [hs]; simp)
  refine ⟨t, fun p hp => ?_, he, hq⟩
  rw [resumeCommand, resumeAcked, AckPhase.sending?_eq hp]
  simp only [hr, if_true, Run.within_raised]

/-- The frame of a handshake is taken and acknowledged: the acknowledge byte is awaited (R103, R120). -/
theorem resumeCommand_taken {v : Byte} {s : State} (hb : s.bitcnt = 0) (ht : s.txr = v) (hpar : s.par = !(v.getLsbD 0)) (hs : s.wire = frameTxLevels false) :
    ∃ t, (∀ p : CommandPhase, p.ack.sending? = some (.cell (.waitLow (v.getLsbD 0))) → resumeCommand p s = .waiting p.awaitingByte t) ∧
      Emits s t 23 ((sendOutputs v).drop 4 ++ recvOutputs) ∧
      t = { s with par := oddParity v, bitcnt := 0, ackbit := false, rxbit := false, clkDrv := .inFloat, dataDrv := .inFloat
                   wire := [], trace := t.trace, waitcnt := 0 } := by
  obtain ⟨t, hr, he, hq⟩ := resumeSendByte_frame (a := false) (rest := []) hb ht hpar (by rw [hs]; simp)
  refine ⟨{ recvOpen t with waitcnt := 0 }, fun p hp => ?_, ?_, ?_⟩
  · have hst := recvByte_starved (s := t) (by rw [hq])
    rw [resumeCommand, resumeAcked, AckPhase.sending?_eq hp]
    simp only [hr, Bool.false_eq_true, if_false, Run.within_done, ackReceive, hst, Run.within_waiting]
    rfl
  · exact (he.trans (⟨[.set .data .inFloat, .set .clk .inFloat], rfl, rfl, rfl⟩ :
      Emits t { recvOpen t with waitcnt := 0 } 0 recvOutputs)).congr_out rfl rfl
  · simp only [recvOpen, pinSet]
    rw [hq]

/-- A raise in the frame of a Device Session operation ends it; a remote READDATA restores `SESSION` (R140, R172). -/
theorem resumeSession_sendRaised {p : SessionPhase} {b : SendBytePhase} {s t : State} {k : ErrKind} (hp : p.sending? = some b)
    (h : ∀ c : CommandPhase, c.ack.sending? = some b → resumeCommand c s = .raised k t) (hs : t.session = s.session) :
    resumeSession p s = .raised k { t with session := p.sessionAfter false s.session } := by
  have e : { t with session := s.session } = t := by rw [← hs]
  cases p <;> first
    | cases hp
    | simp [resumeSession, h _ hp, SessionPhase.sessionAfter, restoreSession, e]

/-- A wait after the frame of a Device Session operation is one of the operation's. -/
theorem resumeSession_sendWaits {p : SessionPhase} {b : SendBytePhase} {s t : State} (hp : p.sending? = some b)
    (h : ∀ c : CommandPhase, c.ack.sending? = some b → resumeCommand c s = .waiting c.awaitingByte t) :
    resumeSession p s = .waiting p.awaitingByte t := by
  cases p <;> first
    | cases hp
    | simp [resumeSession, h _ hp, SessionPhase.awaitingByte]

end Sys2Proof.Machine
end

