-- ==== Sys2Proof/Laws/Writes.lean ====
section
/-! SUPPORT. What the Device Session operations write, more closely than `SessionLeaves` says: the settings operations what a
command writes, RESET, ENSTREAM and DISSTREAM no result register and nothing of the packet buffer, GETSETTINGS and READDATA
the bytes of the buffer below `RXCNT`; and which failures there are. -/

namespace Sys2Proof.Machine

theorem setScaling_stays (flag : Bool) (s : State) :
    (setScaling flag s).Stays (CommandLeaves s) (CommandKind s.params) :=
  (sendCommand_stays _ s).within (fun _ h => h) (fun _ h => h) (fun _ _ h => h)

theorem setRes_stays (r : Byte) (s : State) : (setRes r s).Stays (CommandLeaves s) (CommandKind s.params) :=
  (sendCommandP_stays _ _ s).within (fun _ h => h) (fun _ h => h) (fun _ _ h => h)

theorem setRate_stays (r : Byte) (s : State) : (setRate r s).Stays (CommandLeaves s) (CommandKind s.params) :=
  (sendCommandP_stays _ _ s).within (fun _ h => h) (fun _ h => h) (fun _ _ h => h)

/-! RESET, ENSTREAM, DISSTREAM -/

/-- What a command, a plain receipt and a write of `SESSION` may write (R132 to R134). -/
def ModeLeaves (s t : State) : Prop :=
  t = { s with session := t.session, cmdr := t.cmdr, ackr := t.ackr, retry := t.retry, txr := t.txr, rxr := t.rxr, par := t.par
               bitcnt := t.bitcnt, ackbit := t.ackbit, rxbit := t.rxbit, clkDrv := t.clkDrv, dataDrv := t.dataDrv
               waitcnt := t.waitcnt, wire := t.wire, trace := t.trace }

theorem ModeLeaves.trans {s t u : State} (h : ModeLeaves s t) (g : ModeLeaves t u) : ModeLeaves s u :=
  Eq.trans g (by rw [h])

theorem CommandLeaves.mode {s t : State} (h : CommandLeaves s t) : ModeLeaves s t := h.1.trans (by rw [h.1])

theorem RecvByteLeaves.mode {s t : State} (h : RecvByteLeaves s t) : ModeLeaves s t := h.1.trans (by rw [h.1])

/-- A run that keeps within `ModeLeaves`. -/
def KeepsResults (s : State) (r : Run SessionPhase Unit) : Prop := r.Stays (ModeLeaves s) fun _ => True

theorem KeepsResults.ofCommand {s : State} {r : Run CommandPhase Unit} {K : ErrKind → Prop} {wrap : CommandPhase → SessionPhase}
    {k : Unit → State → Run SessionPhase Unit} (h : r.Stays (CommandLeaves s) K) (hk : ∀ t, KeepsResults t (k () t)) :
    KeepsResults s (r.within wrap k) :=
  h.within (fun _ h => h.mode) (fun _ _ => trivial) (fun _ t ht => (hk t).mono (fun _ hu => ht.mode.trans hu) (fun _ h => h))

theorem KeepsResults.ofRecvByte {s : State} {r : Run RecvBytePhase Byte} {K : ErrKind → Prop}
    {wrap : RecvBytePhase → SessionPhase} {k : Byte → State → Run SessionPhase Unit} (h : r.Stays (RecvByteLeaves s) K)
    (hk : ∀ v t, KeepsResults t (k v t)) : KeepsResults s (r.within wrap k) :=
  h.within (fun _ h => h.mode) (fun _ _ => trivial) (fun v t ht => (hk v t).mono (fun _ hu => ht.mode.trans hu) (fun _ h => h))

theorem KeepsResults.session (s : State) (x : Session) : KeepsResults s (.done () { s with session := x }) :=
  show ModeLeaves s _ from rfl

theorem KeepsResults.stop (s : State) (k : ErrKind) : KeepsResults s (.raised k s) := ⟨rfl, trivial⟩

theorem resetIdentity_keeps (r : Byte) (s : State) : KeepsResults s (resetIdentity r s) := by
  unfold resetIdentity
  split
  · exact .ofCommand (sendCommand_stays _ _) fun _ => .ofCommand (sendCommand_stays _ _) fun t => .session t _
  · exact .stop _ _

theorem resetSelfTest_keeps (r : Byte) (s : State) : KeepsResults s (resetSelfTest r s) := by
  unfold resetSelfTest
  split
  · exact .ofRecvByte (recvByte_stays _) resetIdentity_keeps
  · exact .stop _ _

theorem resetDevice_keeps (s : State) : KeepsResults s (resetDevice s) :=
  .ofCommand (sendCommand_stays _ _) fun _ => .ofRecvByte (recvByte_stays _) resetSelfTest_keeps

theorem enStream_keeps (s : State) : KeepsResults s (enStream s) :=
  .ofCommand (sendCommand_stays _ _) fun t => .session t _

theorem disStream_keeps (s : State) : KeepsResults s (disStream s) :=
  .ofCommand (sendCommand_stays _ _) fun t => .session t _

/-! GETSETTINGS and READDATA -/

/-- RECV3 has not begun, or the bytes stored are those below `RXCNT` (R131). -/
def BufferBelow (s t : State) : Prop :=
  (t.rxbuf = s.rxbuf ∧ t.rxcnt = s.rxcnt) ∨ ∀ a, t.rxcnt.toNat ≤ a → Memory.read t.rxbuf a = Memory.read s.rxbuf a

/-- What GETSETTINGS and READDATA may write, no free value being drawn (R138 to R141). -/
def AnyLeaves (s t : State) : Prop :=
  t = { s with st := t.st, mv := t.mv, session := t.session, rxbuf := t.rxbuf, rxcnt := t.rxcnt, cmdr := t.cmdr, ackr := t.ackr
               retry := t.retry, txr := t.txr, rxr := t.rxr, par := t.par, bitcnt := t.bitcnt, ackbit := t.ackbit
               rxbit := t.rxbit, clkDrv := t.clkDrv, dataDrv := t.dataDrv, waitcnt := t.waitcnt, wire := t.wire
               trace := t.trace }

/-- The same, with the packet buffer and with what else the operation keeps. -/
structure RecordWrites (X : State → State → Prop) (s t : State) : Prop where
  leaves : AnyLeaves s t
  buffer : BufferBelow s t
  keeps : X s t

theorem CommandLeaves.recordWrites {X : State → State → Prop} {s t : State} (h : CommandLeaves s t) (hx : X s t) :
    RecordWrites X s t := ⟨h.1.trans (by rw [h.1]), .inl ⟨by rw [h.1], by rw [h.1]⟩, hx⟩

/-- RECV3 and what follows it, from a state in which the buffer is still as it was in `s`. -/
theorem recv3_recordWrites {s t : State} {P : State → Prop} {wrap : Recv3Phase → SessionPhase}
    {k : Unit → State → Run SessionPhase Unit} (ht : AnyLeaves s t) (hb : t.rxbuf = s.rxbuf)
    (h1 : ∀ u, AnyLeaves s u → BufferBelow s u → u.st = t.st → u.mv = t.mv → u.session = t.session → P u)
    (h2 : ∀ u, AnyLeaves s u → BufferBelow s u → u.st = t.st → u.mv = t.mv → u.session = t.session → u.rxcnt = 3 →
      (k () u).Stays P fun _ => True) : ((recv3 t).within wrap k).Stays P fun _ => True := by
  have key : ∀ u, RecordLeaves { t with rxcnt := 0 } u →
      AnyLeaves s u ∧ BufferBelow s u ∧ u.st = t.st ∧ u.mv = t.mv ∧ u.session = t.session := by
    intro u hu
    refine ⟨hu.1.trans ?_, .inr fun a ha => (hu.2.2.2.1 a ha).trans (by show Memory.read t.rxbuf a = _; rw [hb]),
      by rw [hu.1], by rw [hu.1], by rw [hu.1]⟩
    rw [hu.1, show t = _ from ht]
  refine Run.Meets.within (recv3_meets t) (fun _ u hu => ?_) (fun _ u hu => ?_) (fun _ u hu => ?_)
  · obtain ⟨a, b, c, d, e⟩ := key u hu.1
    exact h2 u a b c d e hu.2
  · obtain ⟨a, b, c, d, e⟩ := key u hu.1
    exact ⟨h1 u a b c d e, trivial⟩
  · obtain ⟨a, b, c, d, e⟩ := key u hu
    exact h1 u a b c d e

theorem getSettings_recordWrites (s : State) :
    (getSettings s).Stays (RecordWrites (fun s t => t.mv = s.mv ∧ t.session = s.session) s) fun _ => True := by
  refine (sendCommand_stays _ s).within (fun t ht => ht.recordWrites ⟨by rw [ht.1], by rw [ht.1]⟩) (fun _ _ => trivial)
    fun _ t ht => ?_
  have hl : AnyLeaves s t := (ht.recordWrites (X := fun _ _ => True) trivial).leaves
  have hb : t.rxbuf = s.rxbuf := by rw [ht.1]
  have hm : t.mv = s.mv := by rw [ht.1]
  have hs : t.session = s.session := by rw [ht.1]
  refine recv3_recordWrites hl hb (fun u a b _ d e => ⟨a, b, d.trans hm, e.trans hs⟩) fun u a b _ d e f => ?_
  show RecordWrites _ s (decStatus u)
  refine ⟨?_, b, d.trans hm, e.trans hs⟩
  show decStatus u = _
  unfold decStatus recordDraws
  rw [if_pos f, show u = _ from a]

theorem readStream_recordWrites (s : State) :
    (readStream s).Stays (RecordWrites (fun s t => t.st = s.st) s) fun _ => True := by
  unfold readStream pinRead
  cases hw : s.wire with
  | nil => exact (⟨rfl, .inl ⟨rfl, rfl⟩, rfl⟩ : RecordWrites (fun s t => t.st = s.st) s s)
  | cons l rest =>
    show (streamDecide _ (s.took .clk l rest)).Stays _ _
    unfold streamDecide
    split
    · exact (⟨⟨rfl, .inl ⟨rfl, rfl⟩, rfl⟩, trivial⟩ :
        RecordWrites (fun s t => t.st = s.st) s (s.took .clk l rest) ∧ True)
    · refine recv3_recordWrites (t := s.took .clk l rest) rfl rfl (fun u a b c _ _ => ⟨a, b, c⟩) fun u a b c _ _ f => ?_
      show RecordWrites _ s (decMotion u)
      refine ⟨?_, b, c⟩
      show decMotion u = _
      unfold decMotion recordDraws
      rw [if_pos f, show u = _ from a]

theorem RecordWrites.onRaise {s : State} {r : Run SessionPhase Unit} (s0 : Session)
    (h : r.Stays (RecordWrites (fun s t => t.st = s.st) s) fun _ => True) :
    (r.onRaise (restoreSession s0)).Stays (RecordWrites (fun s t => t.st = s.st) s) fun _ => True := by
  cases r with
  | done v u => exact h
  | raised k u =>
    refine ⟨⟨?_, h.1.buffer, h.1.keeps⟩, trivial⟩
    show restoreSession s0 u = _
    unfold restoreSession
    rw [show u = _ from h.1.leaves]
  | waiting ph u => exact h

theorem readRemote_recordWrites (s : State) :
    (readRemote s).Stays (RecordWrites (fun s t => t.st = s.st) s) fun _ => True := by
  have he : AnyLeaves s (enterReading s) ∧ (enterReading s).rxbuf = s.rxbuf ∧ (enterReading s).rxcnt = s.rxcnt ∧
      (enterReading s).st = s.st := by
    unfold enterReading
    split <;> exact ⟨rfl, rfl, rfl, rfl⟩
  have hl : ∀ t, CommandLeaves (enterReading s) t → AnyLeaves s t := fun t ht =>
    ht.1.trans (by rw [ht.1, show enterReading s = _ from he.1])
  refine RecordWrites.onRaise _ ((sendCommand_stays _ (enterReading s)).within (fun t ht => ⟨hl t ht, .inl ⟨?_, ?_⟩, ?_⟩)
    (fun _ _ => trivial) fun _ t ht => ?_)
  · rw [ht.1]; exact he.2.1
  · rw [ht.1]; exact he.2.2.1
  · rw [ht.1]; exact he.2.2.2
  · have hb : t.rxbuf = s.rxbuf := by rw [ht.1]; exact he.2.1
    have hst : t.st = s.st := by rw [ht.1]; exact he.2.2.2
    refine recv3_recordWrites (hl t ht) hb (fun u a b c _ _ => ⟨a, b, c.trans hst⟩) fun u a b c _ _ f => ?_
    show RecordWrites _ s (restoreSession _ (decMotion u))
    refine ⟨?_, b, c.trans hst⟩
    show restoreSession _ (decMotion u) = _
    unfold restoreSession decMotion recordDraws
    rw [if_pos f, show u = _ from a]

theorem readData_recordWrites (s : State) :
    (readData s).Stays (RecordWrites (fun s t => t.st = s.st) s) fun _ => True := by
  unfold readData
  split
  · exact readStream_recordWrites s
  · exact readRemote_recordWrites s

/-! A Device Session operation that goes on -/

/-- RECV3 stores at `RXCNT` and above (R131). -/
theorem recvBytes_above : ∀ (n : Nat) (s : State), n ≤ 3 → s.rxcnt.toNat = 3 - n →
    (recvBytes n s).Stays (fun t => ∀ a, a < s.rxcnt.toNat → Memory.read t.rxbuf a = Memory.read s.rxbuf a) fun _ => True
  | 0, _, _, _ => fun _ _ => rfl
  | n + 1, s, hn, hc => by
    have hi : (recvIndex n).val = 2 - n := by simp [recvIndex, Fin.ofNat]; omega
    refine (recvByte_stays s).within (fun t ht _ _ => by rw [ht.1]) (fun _ _ => trivial) fun r t ht => ?_
    have hbuf : t.rxbuf = s.rxbuf := by rw [ht.1]
    refine (recvBytes_above n (storeByte (recvIndex n) r t) (by omega)
      (by simp only [storeByte, BitVec.toNat_ofNat, hi]; omega)).mono (fun u hu a ha => ?_) (fun _ h => h)
    rw [hu a (by simp only [storeByte, BitVec.toNat_ofNat, hi]; omega)]
    show Memory.read (Memory.write t.rxbuf (recvIndex n).val r) a = _
    rw [Memory.read_write_other (by omega), hbuf]

/-- A RECV3 that goes on, whose next byte has address `n`, stores at `n` and above and below `RXCNT`. -/
def BufferFrom (n : Nat) (s t : State) : Prop :=
  (t.rxbuf = s.rxbuf ∧ t.rxcnt = s.rxcnt) ∨ ∀ a, a < n ∨ t.rxcnt.toNat ≤ a → Memory.read t.rxbuf a = Memory.read s.rxbuf a

theorem BufferBelow.fromZero {s t : State} (h : BufferBelow s t) : BufferFrom 0 s t :=
  h.imp_right fun g a ha => g a (ha.resolve_left (Nat.not_lt_zero a))

/-- What a RECV3 that goes on writes of the state that matters after it (R131). -/
def RecordFrom (n : Nat) (s t : State) : Prop := BufferFrom n s t ∧ t.st = s.st ∧ t.mv = s.mv

theorem resumeRecv3_from (p : Recv3Phase) (s : State) :
    (resumeRecv3 p s).Stays (RecordFrom p.index.val s) fun _ => True := by
  refine (resumeRecvByte_stays p.byte s).within (fun t ht => ⟨.inl ⟨by rw [ht.1], by rw [ht.1]⟩, by rw [ht.1], by rw [ht.1]⟩)
    (fun _ _ => trivial) fun r t ht => ?_
  have hlt := p.index.isLt
  have hbuf : t.rxbuf = s.rxbuf := by rw [ht.1]
  have hc : (storeByte p.index r t).rxcnt.toNat = p.index.val + 1 := by simp only [storeByte, BitVec.toNat_ofNat]; omega
  have high := recvBytes_meets (2 - p.index.val) (storeByte p.index r t) (by omega) (by rw [hc]; omega)
  have low := recvBytes_above (2 - p.index.val) (storeByte p.index r t) (by omega) (by rw [hc]; omega)
  have key : ∀ u, RecordLeaves (storeByte p.index r t) u →
      (∀ a, a < (storeByte p.index r t).rxcnt.toNat → Memory.read u.rxbuf a = Memory.read (storeByte p.index r t).rxbuf a) →
      RecordFrom p.index.val s u := by
    intro u hu hl
    have hstore : ∀ a, a ≠ p.index.val → Memory.read (storeByte p.index r t).rxbuf a = Memory.read s.rxbuf a := fun a ha => by
      show Memory.read (Memory.write t.rxbuf p.index.val r) a = _
      rw [Memory.read_write_other (Ne.symm ha), hbuf]
    have hle : p.index.val + 1 ≤ u.rxcnt.toNat := hc ▸ hu.2.2.1
    refine ⟨.inr fun a ha => ?_, ?_, ?_⟩
    · rcases ha with ha | ha
      · rw [hl a (by omega), hstore a (by omega)]
      · rw [hu.2.2.2.1 a ha, hstore a (by omega)]
    · rw [hu.1]
      show t.st = _
      rw [ht.1]
    · rw [hu.1]
      show t.mv = _
      rw [ht.1]
  cases hr : recvBytes (2 - p.index.val) (storeByte p.index r t) with
  | done v u => rw [hr] at high low; exact key u high.1 low
  | raised k u => rw [hr] at high low; exact ⟨key u high.1 low.1, trivial⟩
  | waiting ph u => rw [hr] at high low; exact key u high low

/-- What a Device Session operation that goes on in phase `q` may write of the packet buffer and the result registers
(R131 to R141). -/
structure SessionWrites (q : SessionPhase) (s t : State) : Prop where
  noRecord : q.nextStored = none → t.rxbuf = s.rxbuf ∧ t.rxcnt = s.rxcnt ∧ t.mv = s.mv
  record : ∀ n, q.nextStored = some n → BufferFrom n s t
  status : q.writesStatus = false → t.st = s.st
  motion : q.writesStatus = true → t.mv = s.mv

theorem KeepsResults.writes {q : SessionPhase} (hn : q.nextStored = none) {s : State} {r : Run SessionPhase Unit}
    (h : KeepsResults s r) : r.Stays (SessionWrites q s) fun _ => True :=
  h.mono (fun t ht => ⟨fun _ => ⟨by rw [show t = _ from ht], by rw [show t = _ from ht], by rw [show t = _ from ht]⟩,
    fun n h => by rw [hn] at h; (cases h), fun _ => by rw [show t = _ from ht], fun _ => by rw [show t = _ from ht]⟩) (fun _ h => h)

/-- RECV3 and the decoder after it, from a state whose buffer and result registers are still those of `s`. -/
theorem recv3_writes {q : SessionPhase} (hn : q.nextStored = some 0) {s t : State} {wrap : Recv3Phase → SessionPhase}
    {k : Unit → State → Run SessionPhase Unit} (hb : t.rxbuf = s.rxbuf) (hst : t.st = s.st) (hmv : t.mv = s.mv)
    (hk : ∀ u, RecordFrom 0 s u → (k () u).Stays (SessionWrites q s) fun _ => True) :
    ((recv3 t).within wrap k).Stays (SessionWrites q s) fun _ => True := by
  have key : ∀ u, RecordLeaves { t with rxcnt := 0 } u → RecordFrom 0 s u := fun u hu =>
    ⟨.inr fun a ha => (hu.2.2.2.1 a (ha.resolve_left (Nat.not_lt_zero a))).trans
      (by show Memory.read t.rxbuf a = _; rw [hb]), by rw [hu.1]; exact hst, by rw [hu.1]; exact hmv⟩
  have fin : ∀ u, RecordFrom 0 s u → SessionWrites q s u := fun u hu =>
    ⟨fun h => by rw [hn] at h; (cases h), fun n h => by rw [hn] at h; (cases h); exact hu.1, fun _ => hu.2.1, fun _ => hu.2.2⟩
  exact Run.Meets.within (recv3_meets t) (fun _ u hu => hk u (key u hu.1)) (fun _ u hu => ⟨fin u (key u hu.1), trivial⟩)
    (fun _ u hu => fin u (key u hu))

/-- A RECV3 that goes on, and the decoder after it. -/
theorem resumeRecv3_writes {q : SessionPhase} {p : Recv3Phase} (hn : q.nextStored = some p.index.val) {s : State}
    {wrap : Recv3Phase → SessionPhase} {k : Unit → State → Run SessionPhase Unit}
    (hk : ∀ u, RecordFrom p.index.val s u → (k () u).Stays (SessionWrites q s) fun _ => True) :
    ((resumeRecv3 p s).within wrap k).Stays (SessionWrites q s) fun _ => True := by
  refine (resumeRecv3_from p s).within (fun u hu => ?_) (fun _ h => h) (fun _ u hu => hk u hu)
  exact ⟨fun h => by rw [hn] at h; (cases h), fun n h => by rw [hn] at h; (cases h); exact hu.1, fun _ => hu.2.1, fun _ => hu.2.2⟩

/-- The end of GETSETTINGS writes `ST_` only (R138). -/
theorem getDone_writes {q : SessionPhase} {n : Nat} (hn : q.nextStored = some n) (hw : q.writesStatus = true) {s t : State}
    (h : RecordFrom n s t) : (getDone t).Stays (SessionWrites q s) fun _ => True :=
  show SessionWrites q s _ from
    ⟨fun g => by rw [hn] at g; (cases g), fun m g => by rw [hn] at g; (cases g); exact h.1, fun g => by rw [hw] at g; (cases g), fun _ => h.2.2⟩

/-- The end of READDATA writes `MV_` and `SESSION` only (R140, R141). -/
theorem motionDone_writes {q : SessionPhase} {n : Nat} (hn : q.nextStored = some n) (hw : q.writesStatus = false) {s t : State}
    (x : Session) (h : RecordFrom n s t) : SessionWrites q s { decMotion t with session := x } :=
  ⟨fun g => by rw [hn] at g; (cases g), fun m g => by rw [hn] at g; (cases g); exact h.1, fun _ => h.2.1,
    fun g => by rw [hw] at g; (cases g)⟩

theorem SessionWrites.onRaise {q : SessionPhase} {s : State} {r : Run SessionPhase Unit} (s0 : Session)
    (h : r.Stays (SessionWrites q s) fun _ => True) : (r.onRaise (restoreSession s0)).Stays (SessionWrites q s) fun _ => True := by
  cases r with
  | done v u => exact h
  | raised k u => exact ⟨⟨h.1.noRecord, h.1.record, h.1.status, h.1.motion⟩, trivial⟩
  | waiting ph u => exact h

/-- A command that goes on, and then RECV3. -/
theorem resumeCommand_writes {q : SessionPhase} (hn : q.nextStored = some 0) {c : CommandPhase} {s : State}
    {wrap : CommandPhase → SessionPhase} {k : Unit → State → Run SessionPhase Unit}
    (hk : ∀ t, CommandLeaves s t → (k () t).Stays (SessionWrites q s) fun _ => True) :
    ((resumeCommand c s).within wrap k).Stays (SessionWrites q s) fun _ => True :=
  (resumeCommand_stays c s).within (fun t ht => ⟨fun h => by rw [hn] at h; (cases h), fun _ _ => .inl ⟨by rw [ht.1], by rw [ht.1]⟩,
    fun _ => by rw [ht.1], fun _ => by rw [ht.1]⟩) (fun _ _ => trivial) fun _ t ht => hk t ht

theorem resumeSession_writes (q : SessionPhase) (s : State) :
    (resumeSession q s).Stays (SessionWrites q s) fun _ => True := by
  cases q with
  | resetSend c =>
    exact KeepsResults.writes rfl (.ofCommand (resumeCommand_stays c s) fun _ => .ofRecvByte (recvByte_stays _) resetSelfTest_keeps)
  | resetSelfTest b => exact KeepsResults.writes rfl (.ofRecvByte (resumeRecvByte_stays b s) resetSelfTest_keeps)
  | resetIdentity b => exact KeepsResults.writes rfl (.ofRecvByte (resumeRecvByte_stays b s) resetIdentity_keeps)
  | resetRemote c =>
    exact KeepsResults.writes rfl (.ofCommand (resumeCommand_stays c s) fun _ =>
      .ofCommand (sendCommand_stays _ _) fun t => .session t _)
  | resetEnable c => exact KeepsResults.writes rfl (.ofCommand (resumeCommand_stays c s) fun t => .session t _)
  | enStream c => exact KeepsResults.writes rfl (.ofCommand (resumeCommand_stays c s) fun t => .session t _)
  | disStream c => exact KeepsResults.writes rfl (.ofCommand (resumeCommand_stays c s) fun t => .session t _)
  | setScaling c => exact KeepsResults.writes rfl (.ofCommand (resumeCommand_stays c s) fun t => .session t t.session)
  | setRes c => exact KeepsResults.writes rfl (.ofCommand (resumeCommand_stays c s) fun t => .session t t.session)
  | setRate c => exact KeepsResults.writes rfl (.ofCommand (resumeCommand_stays c s) fun t => .session t t.session)
  | getSend c =>
    exact resumeCommand_writes rfl fun t ht => recv3_writes rfl (by rw [ht.1]) (by rw [ht.1]) (by rw [ht.1]) fun _ hu =>
      getDone_writes rfl rfl hu
  | getRecv r => exact resumeRecv3_writes rfl fun _ hu => getDone_writes rfl rfl hu
  | readSend s0 c =>
    exact SessionWrites.onRaise s0 (resumeCommand_writes rfl fun t ht =>
      recv3_writes rfl (by rw [ht.1]) (by rw [ht.1]) (by rw [ht.1]) fun _ hu => motionDone_writes rfl rfl s0 hu)
  | readRecv s0 r => exact SessionWrites.onRaise s0 (resumeRecv3_writes rfl fun _ hu => motionDone_writes rfl rfl s0 hu)
  | streamPoll =>
    refine (readStream_recordWrites s).mono (fun t ht => ⟨nofun, fun n h => ?_, fun _ => ht.keeps, nofun⟩) (fun _ h => h)
    cases h
    exact ht.buffer.fromZero
  | streamRecv r => exact resumeRecv3_writes rfl fun u hu => motionDone_writes rfl rfl u.session hu

/-! Failures (R170) -/

/-- `k` is a failure, and fits the parameters it needs (R170). -/
def KindFits (p : Params) (k : ErrKind) : Prop :=
  k ≠ .none ∧ (k = .timeout → p.waitLimit ≠ none) ∧ (k = .retryExhausted → p.resendLimit ≠ none)
    ∧ (k = .parity → p.checkParity = true)

theorem WaitKind.fits {p : Params} {k : ErrKind} (h : WaitKind p k) : KindFits p k := by
  obtain ⟨rfl, h⟩ := h
  simp [KindFits, h]

theorem SendByteKind.fits {p : Params} {k : ErrKind} (h : SendByteKind p k) : KindFits p k := by
  rcases h with rfl | h
  · simp [KindFits]
  · exact h.fits

theorem RecvByteKind.fits {p : Params} {k : ErrKind} (h : RecvByteKind p k) : KindFits p k := by
  rcases h with rfl | ⟨rfl, h⟩ | h
  · simp [KindFits]
  · simp [KindFits, h]
  · exact h.fits

theorem CommandKind.fits {p : Params} {k : ErrKind} (h : CommandKind p k) : KindFits p k := by
  rcases h with rfl | ⟨rfl, h⟩ | h | h
  · simp [KindFits]
  · simp [KindFits, h]
  · exact h.fits
  · exact h.fits

theorem SessionKind.fits {p : Params} {k : ErrKind} (h : SessionKind p k) : KindFits p k := by
  rcases h with rfl | h
  · simp [KindFits]
  · exact h.fits

end Sys2Proof.Machine
end

