-- ==== Sys2Proof/Laws/Invariant.lean ====
section
/-! SUPPORT. Lemmas on `State.Inv`: how the end of an operation leaves it, for the operations that do not touch `SESSION` and
for those of the Device Session. -/

namespace Sys2Proof.Machine

/-- What `State.Inv` needs to know of an operation in the middle that does not touch `SESSION`. -/
structure KeepsInv (s t : State) : Prop where
  params : t.params = s.params
  busy : t.busy = s.busy
  ok : t.ok = s.ok
  err : t.err = s.err
  buffer : Memory.wf s.rxbuf = true → Memory.wf t.rxbuf = true
  session : t.session = s.session

theorem CommandLeaves.keepsInv {s t : State} (h : CommandLeaves s t) : KeepsInv s t := by
  obtain ⟨h, -⟩ := h
  constructor <;> (rw [h]; try exact id)

/-- `State.Inv` of a state whose `PHASE` has been taken up (`State.goOn`) or not yet laid down (`State.accept`). -/
structure RunningInv (s : State) : Prop where
  pins : s.params.wf
  buffer : Memory.wf s.rxbuf = true
  err_of_ok : s.ok = true → s.err = .none
  err_kind : s.errOk
  busy : s.busy = true

/-- The end of an operation that is no Device Session operation. -/
theorem inv_conclude {φ α : Type} {r : Run φ α} {wrap : φ → Phase} {out : α → State → State} {s : State} {K : ErrKind → Prop}
    (hi : RunningInv s) (hr : s.session ≠ .remoteReading) (h : r.Stays (KeepsInv s) K) (hK : ∀ k, K k → KindFits s.params k)
    (hout : ∀ v t, KeepsInv s t → KeepsInv s (out v t)) (hw : ∀ ph, wrap ph ≠ .idle ∧ (wrap ph).readingFrom = none) :
    (conclude r wrap out).Inv := by
  obtain ⟨h1, h2, h4, h5, h6⟩ := hi
  cases r with
  | done v t =>
    have m := hout v t h
    exact {
      busy_iff := by simp
      err_of_ok := by simp
      err_kind := by simp [State.errOk]
      reading := by simp [State.readingOk, Phase.readingFrom, m.session, hr]
      buffer := m.buffer h2
      pins := by rw [conclude_done, State.succeed_params, m.params]; exact h1 }
  | raised k t =>
    have m := h.1
    have hk := hK k h.2
    exact {
      busy_iff := by simp
      err_of_ok := by simp
      err_kind := by
        obtain ⟨-, a, b, c⟩ := hk
        simp only [State.errOk, conclude_raised, State.fail_err, State.fail_params, m.params]
        exact ⟨a, b, c⟩
      reading := by simp [State.readingOk, Phase.readingFrom, m.session, hr]
      buffer := m.buffer h2
      pins := by rw [conclude_raised, State.fail_params, m.params]; exact h1 }
  | waiting ph t =>
    have m : KeepsInv s t := h
    exact {
      busy_iff := by simp [m.busy, h6, (hw ph).1]
      err_of_ok := by simpa [m.ok, m.err] using h4
      err_kind := by simpa [State.errOk, m.err, m.params] using h5
      reading := by simp [State.readingOk, (hw ph).2, m.session, hr]
      buffer := m.buffer h2
      pins := by rw [conclude_waiting, State.hold_params, m.params]; exact h1 }

/-- The end of a Device Session operation. -/
theorem inv_conclude_session {A : Bool → Session → Session} {B : Session → Session} {r : Run SessionPhase Unit} {s : State}
    (hi : RunningInv s) (h : SessionMeets A B s r) (hA : A true s.session ≠ .remoteReading)
    (hB : B s.session ≠ .remoteReading)
    (hw : ∀ ph, ph.sessionAfter = A → ({ s with phase := .session ph } : State).readingOk) :
    (conclude r .session noResult).Inv := by
  obtain ⟨h1, h2, h4, h5, h6⟩ := hi
  cases r with
  | done v t =>
    obtain ⟨⟨e, -, w⟩, se⟩ := h
    have hp : t.params = s.params := by rw [e]
    exact {
      busy_iff := by simp
      err_of_ok := by simp
      err_kind := by simp [State.errOk]
      reading := by simp [State.readingOk, Phase.readingFrom, noResult, se, hA]
      buffer := w h2
      pins := by rw [conclude_done, State.succeed_params, noResult, hp]; exact h1 }
  | raised k t =>
    obtain ⟨⟨e, -, w⟩, hk, se⟩ := h
    have hp : t.params = s.params := by rw [e]
    exact {
      busy_iff := by simp
      err_of_ok := by simp
      err_kind := by
        obtain ⟨-, a, b, c⟩ := hk.fits
        simp only [State.errOk, conclude_raised, State.fail_err, State.fail_params, hp]
        exact ⟨a, b, c⟩
      reading := by simp [State.readingOk, Phase.readingFrom, se, hB]
      buffer := w h2
      pins := by rw [conclude_raised, State.fail_params, hp]; exact h1 }
  | waiting ph t =>
    obtain ⟨⟨e, -, w⟩, se, af⟩ := h
    have hp : t.params = s.params := by rw [e]
    have hb : t.busy = s.busy := by rw [e]
    have ho : t.ok = s.ok := by rw [e]
    have he : t.err = s.err := by rw [e]
    exact {
      busy_iff := by simp [hb, h6]
      err_of_ok := by simpa [ho, he] using h4
      err_kind := by simpa [State.errOk, he, hp] using h5
      reading := by
        have := hw ph af
        simp only [State.readingOk, conclude_waiting, State.hold_phase, State.hold_session, se] at this ⊢
        exact this
      buffer := w h2
      pins := by rw [conclude_waiting, State.hold_params, hp]; exact h1 }

/-- A phase that leaves in `SESSION` what another leaves fits `SESSION` where the other does. -/
theorem readingOk_congr {ph q : SessionPhase} {s t : State} (h : ph.sessionAfter = q.sessionAfter)
    (hs : t.session = s.session) (hq : ({ s with phase := .session q } : State).readingOk) :
    ({ t with phase := .session ph } : State).readingOk := by
  have := readingFrom_congr h
  simp only [State.readingOk, this, hs] at hq ⊢
  exact hq

/-- The phases of operations other than a remote READDATA fit every value of `SESSION` but `REMOTE_READING`. -/
theorem readingOk_other {A : Bool → Session → Session} (hA : A = afterNone ∨ A = afterReset ∨ A = afterEnStream) (s : State)
    (hs : s.session ≠ .remoteReading) (ph : SessionPhase) (h : ph.sessionAfter = A) :
    ({ s with phase := .session ph } : State).readingOk := by
  have := readingFrom_of_sessionAfter ph
  rw [h] at this
  have hn : (Phase.session ph).readingFrom = none := by
    rw [this]
    rcases hA with rfl | rfl | rfl <;> simp [afterNone, afterReset, afterEnStream]
  simp only [State.readingOk, hn]
  exact hs

/-- An idle block that meets the invariant has an empty `PHASE`, and `SESSION` is not `REMOTE_READING` (R25, R130). -/
theorem State.Inv.idle {s : State} (hi : s.Inv) (hb : s.busy = false) : s.phase = .idle ∧ s.session ≠ .remoteReading := by
  have hp : s.phase = .idle := by
    by_contra h
    simp [hi.busy_iff.2 h] at hb
  have hr := hi.reading
  exact ⟨hp, by simpa [State.readingOk, hp, Phase.readingFrom] using hr⟩

theorem State.Inv.accept {s : State} (hi : s.Inv) : RunningInv s.accept :=
  ⟨hi.pins, hi.buffer, hi.err_of_ok, hi.err_kind, rfl⟩

theorem State.Inv.goOn {s : State} (hi : s.Inv) (hb : s.busy = true) : RunningInv s.goOn :=
  ⟨hi.pins, hi.buffer, hi.err_of_ok, hi.err_kind, hb⟩

/-- The invariant reads neither the answers at hand nor what is still to be presented. -/
theorem State.Inv.of_input {s : State} (hi : s.Inv) (w : List Levels) (l : List Item) (d : Nat) :
    ({ s with wire := w, inbox := l, draws := d } : State).Inv :=
  ⟨hi.busy_iff, hi.err_of_ok, hi.err_kind, hi.reading, hi.buffer, hi.pins⟩

end Sys2Proof.Machine
end

