-- ==== Sys2Proof/Laws/PerInstr.lean ====
section
/-! SUPPORT. What holds of every instruction as syntax, one lemma per constructor. -/

namespace Sys2Proof.Laws

/-- An instruction is encoded as a word for the request port exactly when it is an operation (R66, R67). -/
def EncodeShape.Statement (i : Instr) : Prop := (encode i).isRequest = i.isOperation

theorem EncodeShape.sendBit (b : Bool) : EncodeShape.Statement (.sendBit b) := rfl

theorem EncodeShape.recvBit : EncodeShape.Statement .recvBit := rfl

theorem EncodeShape.sendByte (v : Byte) : EncodeShape.Statement (.sendByte v) := rfl

theorem EncodeShape.recvByte : EncodeShape.Statement .recvByte := rfl

theorem EncodeShape.sendCmd (code : Byte) : EncodeShape.Statement (.sendCmd code) := rfl

theorem EncodeShape.sendCmdP (code param : Byte) : EncodeShape.Statement (.sendCmdP code param) := rfl

theorem EncodeShape.reset : EncodeShape.Statement .reset := rfl

theorem EncodeShape.enStream : EncodeShape.Statement .enStream := rfl

theorem EncodeShape.disStream : EncodeShape.Statement .disStream := rfl

theorem EncodeShape.setScaling (flag : Bool) : EncodeShape.Statement (.setScaling flag) := rfl

theorem EncodeShape.setRes (r : Byte) : EncodeShape.Statement (.setRes r) := rfl

theorem EncodeShape.setRate (r : Byte) : EncodeShape.Statement (.setRate r) := rfl

theorem EncodeShape.getSettings : EncodeShape.Statement .getSettings := rfl

theorem EncodeShape.readData : EncodeShape.Statement .readData := rfl

theorem EncodeShape.decStatus : EncodeShape.Statement .decStatus := rfl

theorem EncodeShape.decMotion : EncodeShape.Statement .decMotion := rfl

theorem EncodeShape.cmdDisableScaling : EncodeShape.Statement .cmdDisableScaling := rfl

theorem EncodeShape.cmdEnableScaling : EncodeShape.Statement .cmdEnableScaling := rfl

theorem EncodeShape.cmdSetResolution (param : Byte) : EncodeShape.Statement (.cmdSetResolution param) := rfl

theorem EncodeShape.cmdStatusRequest : EncodeShape.Statement .cmdStatusRequest := rfl

theorem EncodeShape.cmdSetStreamMode : EncodeShape.Statement .cmdSetStreamMode := rfl

theorem EncodeShape.cmdReadData : EncodeShape.Statement .cmdReadData := rfl

theorem EncodeShape.cmdReset : EncodeShape.Statement .cmdReset := rfl

theorem EncodeShape.cmdSetRemoteMode : EncodeShape.Statement .cmdSetRemoteMode := rfl

theorem EncodeShape.cmdSetSampleRate (param : Byte) : EncodeShape.Statement (.cmdSetSampleRate param) := rfl

theorem EncodeShape.cmdEnableDataReporting : EncodeShape.Statement .cmdEnableDataReporting := rfl

theorem EncodeShape.cmdDisableDataReporting : EncodeShape.Statement .cmdDisableDataReporting := rfl

theorem EncodeShape.respIsMouse : EncodeShape.Statement .respIsMouse := rfl

theorem EncodeShape.respSelfTestPassed : EncodeShape.Statement .respSelfTestPassed := rfl

theorem EncodeShape.respAck : EncodeShape.Statement .respAck := rfl

theorem EncodeShape.respError : EncodeShape.Statement .respError := rfl

theorem EncodeShape.respResend : EncodeShape.Statement .respResend := rfl

theorem EncodeShape.frameTx (v : Byte) (p a : Bool) : EncodeShape.Statement (.frameTx v p a) := rfl

theorem EncodeShape.frameRx (v : Byte) (p t : Bool) : EncodeShape.Statement (.frameRx v p t) := rfl

theorem EncodeShape.status (b0 b1 b2 : Byte) : EncodeShape.Statement (.status b0 b1 b2) := rfl

theorem EncodeShape.motion (b0 b1 b2 : Byte) : EncodeShape.Statement (.motion b0 b1 b2) := rfl

end Sys2Proof.Laws
end

