-- ==== Sys2Proof/Laws/Waits.lean ====
section
/-! SUPPORT. A wait of an operation in progress: what its clock samples do passes up to the operation (R90, R172), and the
first event of an operation that goes on is the read its phase names (R25). -/

namespace Sys2Proof.Machine

variable {φ ψ α β : Type}

/-- The state after a wait has read on over all the answers at hand (R90). -/
def State.spun (s : State) : State :=
  { s with wire := [], waitcnt := s.waitcnt + s.wire.length, trace := clockReads s.wire ++ s.trace }

/-- While the clock answers the other level, and the limit is not reached, a wait reads on (R90, R93). -/
theorem waitLoop_silent (L : Bool) : ∀ (w : List Levels) (s : State), s.wire = w → (∀ l ∈ w, l.clk = !L) →
    (∀ n, s.params.waitLimit = some n → s.waitcnt + w.length < n) → waitLoop L w s = .waiting () s.spun
  | [], s, hs, _, _ => by
    cases s; simp_all [waitLoop, State.spun]
  | l :: rest, s, hs, hm, hl => by
    have h1 : l.clk ≠ L := by rw [hm l (by simp)]; cases L <;> simp
    have hex : waitExpired { s.took .clk l rest with waitcnt := s.waitcnt + 1 } = false := by
      unfold waitExpired
      simp only [State.took_params]
      cases h : s.params.waitLimit with
      | none => rfl
      | some n => have := hl n h; simp only [List.length_cons] at this; simp; omega
    rw [waitLoop, if_neg h1, hex]
    simp only [Bool.false_eq_true, if_false]
    rw [waitLoop_silent L rest _ rfl (fun x hx => hm x (by simp [hx])) (fun n hn => by
      have := hl n hn
      simp only [List.length_cons] at this
      show s.waitcnt + 1 + rest.length < n
      omega)]
    simp [State.spun, hs, State.took, Levels.at, Nat.add_comm, Nat.add_left_comm]

/-- The sample that reaches the limit ends a wait (R90). -/
theorem waitMore_expires {L : Bool} {l : Levels} {rest : List Levels} {n : Nat} {s : State} (hw : s.wire = l :: rest)
    (hl : l.clk = !L) (hn : s.params.waitLimit = some n) (hle : n ≤ s.waitcnt + 1) :
    waitMore L s = .raised .timeout { s with wire := rest, waitcnt := s.waitcnt + 1, trace := .read .clk l.clk :: s.trace } := by
  have hne : l.clk ≠ L := by rw [hl]; cases L <;> simp
  have hex : waitExpired { s.took .clk l rest with waitcnt := s.waitcnt + 1 } = true := by simp [waitExpired, hn, hle]
  rw [waitMore, hw, waitLoop, if_neg hne, hex]
  rfl

/-! A wait that stays passes up -/

theorem resumeSendBit_waiting {p : SendBitPhase} {s u : State} (h : waitMore p.waitsFor s = .waiting () u) :
    resumeSendBit p s = .waiting p u := by
  cases p <;> simp only [SendBitPhase.waitsFor] at h <;> simp [resumeSendBit, h]

theorem resumeRecvBit_waiting {p : RecvBitPhase} {L : Bool} {s u : State} (hp : p.waitsFor = some L)
    (h : waitMore L s = .waiting () u) : resumeRecvBit p s = .waiting p u := by
  cases p <;> simp [RecvBitPhase.waitsFor] at hp <;> subst hp <;> simp [resumeRecvBit, h]

theorem resumeSendByte_waiting {p : SendBytePhase} {L : Bool} {s u : State} (hp : p.waitsFor = some L)
    (h : waitMore L s = .waiting () u) : resumeSendByte p s = .waiting p u := by
  cases p with
  | cell b => simp [SendBytePhase.waitsFor] at hp; subst hp; simp [resumeSendByte, resumeSendBit_waiting h]
  | ack b => simp [SendBytePhase.waitsFor] at hp; simp [resumeSendByte, resumeRecvBit_waiting hp h]

theorem resumeRecvByte_waiting {p : RecvBytePhase} {L : Bool} {s u : State} (hp : p.waitsFor = some L)
    (h : waitMore L s = .waiting () u) : resumeRecvByte p s = .waiting p u := by
  cases p <;> simp [RecvBytePhase.waitsFor] at hp <;> simp [resumeRecvByte, resumeRecvBit_waiting hp h]

theorem resumeCommand_waiting {p : CommandPhase} {L : Bool} {s u : State} (hp : p.ack.waitsFor = some L)
    (h : waitMore L s = .waiting () u) : resumeCommand p s = .waiting p u := by
  obtain ⟨which, ack⟩ := p
  cases ack with
  | send b => simp [AckPhase.waitsFor] at hp; simp [resumeCommand, resumeAcked, resumeSendByte_waiting hp h]
  | recvAck b => simp [AckPhase.waitsFor] at hp; simp [resumeCommand, resumeAcked, resumeRecvByte_waiting hp h]

theorem resumeRecv3_waiting {p : Recv3Phase} {L : Bool} {s u : State} (hp : p.byte.waitsFor = some L)
    (h : waitMore L s = .waiting () u) : resumeRecv3 p s = .waiting p u := by
  simp [resumeRecv3, resumeRecvByte_waiting hp h]

theorem resumeSession_waiting {p : SessionPhase} {L : Bool} {s u : State} (hp : p.waitsFor = some L)
    (h : waitMore L s = .waiting () u) : resumeSession p s = .waiting p u := by
  cases p <;> simp [SessionPhase.waitsFor] at hp <;> first
    | simp [resumeSession, resumeCommand_waiting hp h]
    | simp [resumeSession, resumeRecv3_waiting hp h]
    | simp [resumeSession, resumeRecvByte_waiting hp h]

/-! A wait that times out passes up -/

theorem resumeSendBit_timeout {p : SendBitPhase} {s u : State} (h : waitMore p.waitsFor s = .raised .timeout u) :
    resumeSendBit p s = .raised .timeout u := by
  cases p <;> simp only [SendBitPhase.waitsFor] at h <;> simp [resumeSendBit, h]

theorem resumeRecvBit_timeout {p : RecvBitPhase} {L : Bool} {s u : State} (hp : p.waitsFor = some L)
    (h : waitMore L s = .raised .timeout u) : resumeRecvBit p s = .raised .timeout u := by
  cases p <;> simp [RecvBitPhase.waitsFor] at hp <;> subst hp <;> simp [resumeRecvBit, h]

theorem resumeSendByte_timeout {p : SendBytePhase} {L : Bool} {s u : State} (hp : p.waitsFor = some L)
    (h : waitMore L s = .raised .timeout u) : resumeSendByte p s = .raised .timeout u := by
  cases p with
  | cell b => simp [SendBytePhase.waitsFor] at hp; subst hp; simp [resumeSendByte, resumeSendBit_timeout h]
  | ack b => simp [SendBytePhase.waitsFor] at hp; simp [resumeSendByte, resumeRecvBit_timeout hp h]

theorem resumeRecvByte_timeout {p : RecvBytePhase} {L : Bool} {s u : State} (hp : p.waitsFor = some L)
    (h : waitMore L s = .raised .timeout u) : resumeRecvByte p s = .raised .timeout u := by
  cases p <;> simp [RecvBytePhase.waitsFor] at hp <;> simp [resumeRecvByte, resumeRecvBit_timeout hp h]

theorem resumeCommand_timeout {p : CommandPhase} {L : Bool} {s u : State} (hp : p.ack.waitsFor = some L)
    (h : waitMore L s = .raised .timeout u) : resumeCommand p s = .raised .timeout u := by
  obtain ⟨which, ack⟩ := p
  cases ack with
  | send b => simp [AckPhase.waitsFor] at hp; simp [resumeCommand, resumeAcked, resumeSendByte_timeout hp h]
  | recvAck b => simp [AckPhase.waitsFor] at hp; simp [resumeCommand, resumeAcked, resumeRecvByte_timeout hp h]

theorem resumeRecv3_timeout {p : Recv3Phase} {L : Bool} {s u : State} (hp : p.byte.waitsFor = some L)
    (h : waitMore L s = .raised .timeout u) : resumeRecv3 p s = .raised .timeout u := by
  simp [resumeRecv3, resumeRecvByte_timeout hp h]

/-- A remote READDATA restores `SESSION` before the failure propagates (R140). -/
theorem resumeSession_timeout {p : SessionPhase} {L : Bool} {s u : State} (hp : p.waitsFor = some L)
    (h : waitMore L s = .raised .timeout u) (hs : u.session = s.session) :
    resumeSession p s = .raised .timeout { u with session := p.sessionAfter false s.session } := by
  have e : { u with session := s.session } = u := by rw [← hs]
  cases p <;> simp [SessionPhase.waitsFor] at hp <;> first
    | simp [resumeSession, resumeCommand_timeout hp h, SessionPhase.sessionAfter, restoreSession, e]
    | simp [resumeSession, resumeRecv3_timeout hp h, SessionPhase.sessionAfter, restoreSession, e]
    | simp [resumeSession, resumeRecvByte_timeout hp h, SessionPhase.sessionAfter, e]

/-! The first event of an operation that goes on -/

/-- From `s` on, `r` only adds events to the trace. -/
def Adds (s : State) (r : Run φ α) : Prop := r.Stays (Grows s) fun _ => True

theorem Run.Stays.adds {s : State} {r : Run φ α} {F : State → Prop} {K : ErrKind → Prop} (h : r.Stays F K)
    (hF : ∀ t, F t → Grows s t) : Adds s r := h.mono hF fun _ _ => trivial

theorem SessionMeets.adds {A : Bool → Session → Session} {B : Session → Session} {s : State} {r : Run SessionPhase Unit}
    (h : SessionMeets A B s r) : Adds s r := h.stays.adds fun _ ht => ht.2.1

theorem Adds.after {s t : State} {r : Run φ α} (h : Adds t r) (g : Grows s t) : Adds s r := h.adds fun _ ht => g.trans ht

theorem Adds.within {s : State} {r : Run φ α} {wrap : φ → ψ} {k : α → State → Run ψ β} (h : Adds s r)
    (hk : ∀ v t, Adds t (k v t)) : Adds s (r.within wrap k) :=
  Run.Stays.within h (fun _ ht => ht) (fun _ hk => hk) (fun v t ht => (hk v t).after ht)

/-- A state that differs in what no event shows. -/
theorem Grows.same {s t : State} (h1 : t.trace = s.trace) (h2 : t.clkDrv = s.clkDrv) (h3 : t.dataDrv = s.dataDrv)
    (h4 : t.wire = s.wire) : Grows s t := (Grows.refl s).congr rfl rfl rfl rfl h1 h2 h3 h4

theorem done_adds (v : α) {s t : State} (h : Grows s t) : Adds s (.done v t : Run φ α) := h

theorem recvBytes_adds : ∀ (n : Nat) (s : State), Adds s (recvBytes n s)
  | 0, s => Grows.refl s
  | n + 1, s => Adds.within ((recvByte_stays s).adds fun _ h => h.2) fun r t =>
      (recvBytes_adds n (storeByte (recvIndex n) r t)).after (Grows.same rfl rfl rfl rfl)

theorem recv3_adds (s : State) : Adds s (recv3 s) :=
  (recvBytes_adds 3 { s with rxcnt := 0 }).after (Grows.same rfl rfl rfl rfl)

theorem getRecord_adds (s : State) : Adds s (getRecord s) :=
  (recv3_adds s).within fun _ _ => done_adds _ (Grows.same rfl rfl rfl rfl)

theorem readDone_adds (s0 : Session) (_ : Unit) (s : State) : Adds s (readDone s0 s) :=
  done_adds _ (Grows.same rfl rfl rfl rfl)

theorem readRecord_adds (s0 : Session) (s : State) : Adds s (readRecord s0 s) :=
  (recv3_adds s).within (readDone_adds s0)

theorem streamRecord_adds (s : State) : Adds s (streamRecord s) :=
  (recv3_adds s).within fun _ _ => done_adds _ (Grows.same rfl rfl rfl rfl)

/-- However `r` stands, the first event it has added is `e`. -/
def FirstEvent (e : Event) (s : State) (r : Run φ α) : Prop :=
  r.Stays (fun t => ∃ es, t.trace = es ++ e :: s.trace) fun _ => True

theorem FirstEvent.of {e : Event} {s t : State} {r : Run φ α} (h : Adds t r) (ht : t.trace = e :: s.trace) :
    FirstEvent e s r :=
  h.mono (fun u hu => by
    obtain ⟨es, _, h, _⟩ := hu
    exact ⟨es, by rw [h, ht]⟩) fun _ h => h

theorem FirstEvent.within {e : Event} {s : State} {r : Run φ α} {wrap : φ → ψ} {k : α → State → Run ψ β}
    (h : FirstEvent e s r) (hk : ∀ v t, Adds t (k v t)) : FirstEvent e s (r.within wrap k) :=
  Run.Stays.within h (fun _ h => h) (fun _ h => h) fun v t ht => (hk v t).mono (fun u hu => by
    obtain ⟨es, _, h, _⟩ := hu
    obtain ⟨fs, g⟩ := ht
    exact ⟨es ++ fs, by rw [h, g, List.append_assoc]⟩) fun _ h => h

theorem FirstEvent.onRaise {e : Event} {s : State} {r : Run SessionPhase Unit} (h : FirstEvent e s r) (s0 : Session) :
    FirstEvent e s (r.onRaise (restoreSession s0)) := by
  cases r <;> exact h

/-- The read of line `p` that `l` answers. -/
def Levels.readOf (l : Levels) (p : Line) : Event := .read p (l.at p)

variable {l : Levels} {rest : List Levels} {s : State}

theorem waitMore_first {level : Bool} (hw : s.wire = l :: rest) : FirstEvent (l.readOf .clk) s (waitMore level s) := by
  unfold waitMore
  rw [hw, waitLoop]
  split
  · exact ⟨[], rfl⟩
  · split
    · exact ⟨⟨[], rfl⟩, trivial⟩
    · exact .of (t := { s.took .clk l rest with waitcnt := s.waitcnt + 1 })
        ((waitLoop_stays level rest _ rfl).adds fun _ h => h.2) rfl

theorem resumeSendBit_first {p : SendBitPhase} (hw : s.wire = l :: rest) :
    FirstEvent (l.readOf p.awaits) s (resumeSendBit p s) := by
  cases p with
  | waitLow b => exact (waitMore_first hw).within fun _ t => (sendBitDrive_stays b t).adds fun _ h => h.2
  | waitHigh => exact (waitMore_first hw).within fun _ t => done_adds _ (Grows.refl t)

theorem resumeRecvBit_first {p : RecvBitPhase} (hw : s.wire = l :: rest) :
    FirstEvent (l.readOf p.awaits) s (resumeRecvBit p s) := by
  cases p with
  | waitLow => exact (waitMore_first hw).within fun _ t => (recvBitSample_stays t).adds fun _ h => h.2
  | sample =>
    show FirstEvent _ _ (recvBitSample s)
    unfold recvBitSample pinRead
    rw [hw]
    exact .of (t := { s.took .data l rest with rxbit := l.at .data }) ((recvBitHigh_stays _).adds fun _ h => h.2) rfl
  | waitHigh => exact (waitMore_first hw).within fun _ t => done_adds _ (Grows.refl t)

theorem resumeSendByte_first {p : SendBytePhase} (hw : s.wire = l :: rest) :
    FirstEvent (l.readOf p.awaits) s (resumeSendByte p s) := by
  cases p with
  | cell bit =>
    exact (resumeSendBit_first hw).within fun _ t =>
      (sendCells_stays _ (nextCell t)).adds fun _ h => ((nextCell_leaves t).trans h).2
  | ack bit => exact (resumeRecvBit_first hw).within fun a t => (ackDecide_stays a t).adds fun _ h => h.2

theorem resumeRecvByte_first {p : RecvBytePhase} (hw : s.wire = l :: rest) :
    FirstEvent (l.readOf p.awaits) s (resumeRecvByte p s) := by
  cases p with
  | cell bit => exact (resumeRecvBit_first hw).within fun b t => (recvAfterCell_stays b t).adds fun _ h => h.2
  | stop p bit => exact (resumeRecvBit_first hw).within fun b t => (recvFinish_stays p b t).adds fun _ h => h.2

theorem resumeCommand_first {p : CommandPhase} (hw : s.wire = l :: rest) :
    FirstEvent (l.readOf p.ack.awaits) s (resumeCommand p s) := by
  obtain ⟨which, ack⟩ := p
  refine FirstEvent.within ?_ fun _ t => (afterAcked_stays _ t).adds fun _ h => h.2
  cases ack with
  | send b =>
    exact (resumeSendByte_first hw).within fun _ t => (ackReceive_stays (ackLoop_stays _ _) t).adds fun _ h => h.2
  | recvAck b =>
    exact (resumeRecvByte_first hw).within fun r t => (ackCompare_stays (ackLoop_stays _ _) r t).adds fun _ h => h.2

theorem resumeRecv3_first {p : Recv3Phase} (hw : s.wire = l :: rest) :
    FirstEvent (l.readOf p.byte.awaits) s (resumeRecv3 p s) :=
  (resumeRecvByte_first hw).within fun r t =>
    (recvBytes_adds _ (storeByte p.index r t)).after (Grows.same rfl rfl rfl rfl)

theorem resumeSession_first {p : SessionPhase} (hw : s.wire = l :: rest) :
    FirstEvent (l.readOf p.awaits) s (resumeSession p s) := by
  cases p with
  | resetSend c => exact (resumeCommand_first hw).within fun _ t => (resetReply_meets t).adds
  | resetSelfTest b => exact (resumeRecvByte_first hw).within fun r t => (resetSelfTest_meets r t).adds
  | resetIdentity b => exact (resumeRecvByte_first hw).within fun r t => (resetIdentity_meets r t).adds
  | resetRemote c => exact (resumeCommand_first hw).within fun _ t => (resetEnable_meets t).adds
  | resetEnable c => exact (resumeCommand_first hw).within fun _ t => (resetDone_meets t).adds
  | enStream c => exact (resumeCommand_first hw).within fun _ t => (enStreamDone_meets t).adds
  | disStream c => exact (resumeCommand_first hw).within fun _ t => (disStreamDone_meets t).adds
  | setScaling c => exact (resumeCommand_first hw).within fun _ t => (SessionMeets.nothing t).adds
  | setRes c => exact (resumeCommand_first hw).within fun _ t => (SessionMeets.nothing t).adds
  | setRate c => exact (resumeCommand_first hw).within fun _ t => (SessionMeets.nothing t).adds
  | getSend c => exact (resumeCommand_first hw).within fun _ t => getRecord_adds t
  | getRecv r => exact (resumeRecv3_first hw).within fun _ _ => done_adds _ (Grows.same rfl rfl rfl rfl)
  | readSend s0 c => exact ((resumeCommand_first hw).within fun _ t => readRecord_adds s0 t).onRaise s0
  | readRecv s0 r =>
    exact ((resumeRecv3_first hw).within (readDone_adds s0)).onRaise s0
  | streamPoll =>
    show FirstEvent _ _ (readStream s)
    unfold readStream pinRead
    rw [hw]
    show FirstEvent _ _ (streamDecide _ (s.took .clk l rest))
    unfold streamDecide
    split
    · exact ⟨⟨[], rfl⟩, trivial⟩
    · exact .of (t := s.took .clk l rest) (streamRecord_adds _) rfl
  | streamRecv r => exact (resumeRecv3_first hw).within fun _ _ => done_adds _ (Grows.same rfl rfl rfl rfl)

end Sys2Proof.Machine
end

