-- ==== Sys2Proof/Tests/Slice0.lean ====
section
/-! SUPPORT. Tests. The words are written out from the tables of 30_encoding.md and the expected results are those of
95_test_vectors.md (`V-…` names its vectors) or of the rule named. The witnesses at the end meet, for each obligation that
has hypotheses, all of them together. -/

namespace Sys2Proof.Tests

open Sys2Proof Sys2Proof.Machine

set_option maxRecDepth 4000

/-! Helpers -/

/-- An idle block with answers `w` at hand. -/
def dev (w : List Levels) (ses : Session := .uninit) (p : Params := Params.reference) : State :=
  { State.construct p with wire := w, session := ses }

/-- A block in phase `ph` with answers `w` at hand. -/
def running (ph : Phase) (w : List Levels := []) (p : Params := Params.reference) : State :=
  { State.construct p with wire := w, busy := true, phase := ph }

/-- An idle block with the three bytes in its buffer. -/
def filled (b0 b1 b2 : Byte) (p : Params := Params.reference) : State :=
  { State.construct p with rxbuf := Memory.withRecord [] ⟨b0, b1, b2⟩, rxcnt := 3 }

/-- The state one instruction leads to. -/
def after (i : Instr) (s : State) : State :=
  match exec i s with
  | .next t => t
  | .fault _ => s
  | .refused _ => s

/-- The parameters at the other end of their ranges: one sample in a wait, no resend, both checks, no overflow outputs. -/
def strict : Params :=
  { Params.reference with waitLimit := some 1, resendLimit := some 0, checkParity := true, checkStop := true, exposeOverflow := false }

/-- How an operation ended: `OK`, `ERR`, `RETRY`, `SESSION`, and the count of events. -/
def ending (s : State) : Bool × ErrKind × Nat × Session × Nat := (s.ok, s.err, s.retry, s.session, s.trace.length)

/-- A clock sample. -/
def clk (level : Bool) : Levels := { clk := level, data := true }

/-! WellFormed: the one check, and what it lets pass -/

theorem test_wf_refuses_a_wrong_parity_bit : Instr.wf (.frameTx 0x00 false false) = false := by decide

theorem test_wf_refuses_a_wrong_parity_bit_of_f4 : Instr.wf (.frameTx 0xF4 true false) = false := by decide

theorem test_wf_admits_the_parity_bits_of_v_par :
    Instr.wf (.frameTx 0x00 true false) && Instr.wf (.frameTx 0xF4 false true) && Instr.wf (.frameTx 0xFF true false)
      && Instr.wf (.frameRx 0x00 false false) = true := by decide

/-! Decode: a word of every row. REQ as the 20 bits OPSEL, A, B; a frame as its bits, first bit on the wire leftmost -/

theorem test_decode_sendbit : decode (.req 0x00100) = .ok (.sendBit true) := by decide

theorem test_decode_sendbit_ignores_other_bits : decode (.req 0x0FEFF) = .ok (.sendBit false) := by decide

theorem test_decode_recvbit : decode (.req 0x10000) = .ok .recvBit := by decide

theorem test_decode_sendbyte : decode (.req 0x2F400) = .ok (.sendByte 0xF4) := by decide

theorem test_decode_recvbyte : decode (.req 0x30000) = .ok .recvByte := by decide

theorem test_decode_sendcmd : decode (.req 0x4EA00) = .ok (.sendCmd 0xEA) := by decide

theorem test_decode_sendcmdp : decode (.req 0x5F364) = .ok (.sendCmdP 0xF3 0x64) := by decide

theorem test_decode_reset : decode (.req 0x60000) = .ok .reset := by decide

theorem test_decode_enstream : decode (.req 0x70000) = .ok .enStream := by decide

theorem test_decode_disstream : decode (.req 0x80000) = .ok .disStream := by decide

/-- V-SCL-3, V-SCL-4. -/
theorem test_decode_setscaling :
    decode (.req 0x9FE00) = .ok (.setScaling false) ∧ decode (.req 0x90300) = .ok (.setScaling true) := by
  decide

theorem test_decode_setres : decode (.req 0xA0200) = .ok (.setRes 0x02) := by decide

theorem test_decode_setrate : decode (.req 0xB6400) = .ok (.setRate 0x64) := by decide

theorem test_decode_getsettings : decode (.req 0xC0000) = .ok .getSettings := by decide

theorem test_decode_readdata : decode (.req 0xD0000) = .ok .readData := by decide

theorem test_decode_decstatus : decode (.req 0xE0000) = .ok .decStatus := by decide

theorem test_decode_decmotion : decode (.req 0xF0000) = .ok .decMotion := by decide

theorem test_decode_commands :
    decode (.cmd1 0xE6) = .ok .cmdDisableScaling ∧ decode (.cmd1 0xE7) = .ok .cmdEnableScaling ∧
    decode (.cmd1 0xE9) = .ok .cmdStatusRequest ∧ decode (.cmd1 0xEA) = .ok .cmdSetStreamMode ∧
    decode (.cmd1 0xEB) = .ok .cmdReadData ∧ decode (.cmd1 0xFF) = .ok .cmdReset ∧
    decode (.cmd1 0xF0) = .ok .cmdSetRemoteMode ∧ decode (.cmd1 0xF4) = .ok .cmdEnableDataReporting ∧
    decode (.cmd1 0xF5) = .ok .cmdDisableDataReporting := by decide

theorem test_decode_parameter_commands :
    decode (.cmd2 0xE8 0x02) = .ok (.cmdSetResolution 0x02) ∧ decode (.cmd2 0xF3 0x64) = .ok (.cmdSetSampleRate 0x64) := by
  decide

theorem test_decode_responses :
    decode (.resp 0x00) = .ok .respIsMouse ∧ decode (.resp 0xAA) = .ok .respSelfTestPassed ∧
    decode (.resp 0xFA) = .ok .respAck ∧ decode (.resp 0xFC) = .ok .respError ∧
    decode (.resp 0xFE) = .ok .respResend := by decide

/-- V-FTX, 0xF4: `0 00101111 0 1`, and the acknowledge bit 0. -/
theorem test_decode_frametx : decode (.frameTx 0b000101111010) = .ok (.frameTx 0xF4 false false) := by decide

/-- V-FTX, 0xFA: `0 01011111 1 1`; V-RB-3 and V-RB-4 with the other parity and stop bits. -/
theorem test_decode_framerx :
    decode (.frameRx 0b00101111111) = .ok (.frameRx 0xFA true true) ∧
    decode (.frameRx 0b00101111101) = .ok (.frameRx 0xFA false true) ∧
    decode (.frameRx 0b00101111110) = .ok (.frameRx 0xFA true false) := by decide

theorem test_decode_packets :
    decode (.status 0x10 0x02 0x64) = .ok (.status 0x10 0x02 0x64) ∧
    decode (.motion 0x29 0x05 0xFB) = .ok (.motion 0x29 0x05 0xFB) := by decide

theorem test_decode_rejects_by_name :
    decode (.cmd1 0xE8) = .error (.unknownCommand 0xE8) ∧ decode (.cmd2 0xF5 0x00) = .error (.unknownParameterCommand 0xF5 0x00) ∧
    decode (.resp 0x01) = .error (.unknownResponse 0x01) ∧ decode (.frameTx 0b100101111010) = .error .sentStartBit ∧
    decode (.frameTx 0b000101111000) = .error .sentStopBit ∧ decode (.frameTx 0b000101111110) = .error .sentParityBit ∧
    decode (.frameRx 0b10101111101) = .error (.receivedStartBit 0xFA false true) := by decide

/-- A row's word given by its width alone. -/
theorem test_decode_table_words :
    decodeTableWord 24 0x5F364 = some (.sendCmdP 0xF3 0x64) ∧ decodeTableWord 8 0xE8 = some (.cmdSetResolution 0) ∧
    decodeTableWord 8 0xFE = some .respResend ∧ decodeTableWord 16 0b100000000000 = none ∧
    decodeTableWord 16 0b000101111010 = some (.frameTx 0xF4 false false) := by decide

/-- A presented table word is what the next step runs (here SENDBIT 1 waits for the clock). -/
theorem test_step_runs_the_presented_word :
    step (State.reset.withFetchWord 24 0x00100) = .next (running (.sendBit (.waitLow true))) := by rfl

/-! Bit Transport -/

/-- V-BIT-3. -/
theorem test_sendbit_spinning :
    (after (.sendBit true) (dev [clk true, clk true, clk false, clk false, clk false, clk true])).events =
      [.read .clk true, .read .clk true, .read .clk false, .set .data .outHigh, .read .clk false, .read .clk false, .read .clk true] := by
  decide

/-- V-BIT-8. -/
theorem test_sendbit_timeout :
    let t := after (.sendBit true) (dev [clk false, clk false, clk false] .uninit { Params.reference with waitLimit := some 2 })
    (ending t, t.dataDrv) = ((false, .timeout, 0, .uninit, 4), .outHigh) := by decide

/-- V-BIT-5. -/
theorem test_recvbit_spinning :
    let t := after .recvBit (dev [clk true, clk false, ⟨false, false⟩, clk false, clk true])
    (ending t, t.rxbit, t.result) = ((true, .none, 0, .uninit, 5), false, 0x00) := by decide

/-- V-BIT-7: the limit, and none. -/
theorem test_recvbit_stuck_clock :
    ending (after .recvBit (dev [clk true, clk true, clk true] .uninit { Params.reference with waitLimit := some 3 })) =
      (false, .timeout, 0, .uninit, 3) ∧
    (after .recvBit (dev [clk true, clk true, clk true])).busy = true := by decide

/-! Byte Framer -/

/-- V-SB-1. -/
theorem test_sendbyte_accepted :
    let t := after (.sendByte 0xF4) (dev (frameTxLevels false))
    (ending t, t.par, t.ackbit, t.clkDrv, t.dataDrv) = ((true, .none, 0, .uninit, 38), false, false, .inPullup, .inFloat) := by
  decide

/-- V-SB-2, and the start condition of V-SB-1. -/
theorem test_sendbyte_nak :
    let t := after (.sendByte 0xF4) (dev (frameTxLevels true))
    (ending t, t.events.take 7) = ((false, .nak, 0, .uninit, 38),
      [.set .clk .outLow, .delay 100, .set .data .outLow, .set .clk .inPullup, .read .clk false, .set .data .outLow, .read .clk true]) := by
  decide

/-- V-RB-1, with the two `PinSet`s first. -/
theorem test_recvbyte :
    let t := after .recvByte (dev (goodFrame 0xFA))
    (ending t, t.result, t.par, t.events.take 3) = ((true, .none, 0, .uninit, 35), 0xFA, true,
      [.set .clk .inFloat, .set .data .inFloat, .read .clk false]) := by decide

/-- V-RB-2, V-RB-3, V-RB-4 with the checks enabled. -/
theorem test_recvbyte_failures :
    ending (after .recvByte (dev (receiveCell true))) = (false, .framing, 0, .uninit, 5) ∧
    ending (after .recvByte (dev (frameRxLevels 0xFA false true) .uninit { Params.reference with checkParity := true })) =
      (false, .parity, 0, .uninit, 35) ∧
    ending (after .recvByte (dev (frameRxLevels 0xFA true false) .uninit { Params.reference with checkStop := true })) =
      (false, .framing, 0, .uninit, 35) := by decide

/-! Command Protocol and the command bytes -/

/-- V-CMD-2. -/
theorem test_sendcmd_resend :
    let t := after (.sendCmd 0xF4) (dev (ackedLevels 1))
    (ending t, t.cmdr, t.ackr) = ((true, .none, 1, .uninit, 146), 0xF4, 0xFA) := by decide

/-- V-CMD-15. -/
theorem test_sendcmd_exhausted :
    ending (after (.sendCmd 0xEA) (dev (resendLevels 3) .uninit { Params.reference with resendLimit := some 2 })) =
      (false, .retryExhausted, 3, .uninit, 219) := by decide

/-- V-CMD-11. -/
theorem test_sendcmdp_resent_command :
    let t := after (.sendCmdP 0xF3 0x64) (dev (ackedLevels 1 ++ ackedLevels 0))
    (ending t, t.txr) = ((true, .none, 0, .uninit, 219), 0x64) := by decide

/-- V-CMD-12. -/
theorem test_sendcmdp_parameter_not_sent :
    let t := after (.sendCmdP 0xE8 0x02) (dev (exchangeLevels 0xFC))
    (ending t, t.txr) = ((false, .protocol, 0, .uninit, 73), 0xE8) := by decide

/-- The code each command byte puts in `CMDR` (R68), and that no command byte writes `SESSION` (R142). -/
theorem test_command_bytes_send_their_codes :
    ([.cmdDisableScaling, .cmdEnableScaling, .cmdSetResolution 2, .cmdStatusRequest, .cmdSetStreamMode, .cmdReadData, .cmdReset,
      .cmdSetRemoteMode, .cmdSetSampleRate 0x64, .cmdEnableDataReporting, .cmdDisableDataReporting].map fun i =>
        ((after i (dev (exchangeLevels 0xFA))).txr, (after i (dev (exchangeLevels 0xFA))).session)) =
      [(0xE6, .uninit), (0xE7, .uninit), (2, .uninit), (0xE9, .uninit), (0xEA, .uninit), (0xEB, .uninit), (0xFF, .uninit),
       (0xF0, .uninit), (0x64, .uninit), (0xF4, .uninit), (0xF5, .uninit)] := by decide

/-! Device Session -/

/-- V-RST-1. -/
theorem test_reset :
    ending (after .reset (dev (ackedLevels 0 ++ goodFrame 0xAA ++ goodFrame 0x00 ++ ackedLevels 0 ++ ackedLevels 0))) =
      (true, .none, 0, .remoteIdle, 289) := by decide

/-- V-RST-5. -/
theorem test_reset_fails_at_the_end :
    ending (after .reset (dev (ackedLevels 0 ++ goodFrame 0xAA ++ goodFrame 0x00 ++ ackedLevels 0 ++ exchangeLevels 0x00) .streaming)) =
      (false, .protocol, 0, .streaming, 289) := by decide

/-- V-ENS-1. -/
theorem test_enstream : ending (after .enStream (dev (ackedLevels 0) .remoteIdle)) = (true, .none, 0, .streaming, 73) := by
  decide

/-- V-ENS-2. -/
theorem test_enstream_error :
    ending (after .enStream (dev (exchangeLevels 0xFC) .remoteIdle)) = (false, .protocol, 0, .remoteIdle, 73) := by decide

/-- V-DIS-1. -/
theorem test_disstream : ending (after .disStream (dev (ackedLevels 0) .streaming)) = (true, .none, 0, .remoteIdle, 73) := by
  decide

/-- V-DIS-2. -/
theorem test_disstream_nak : ending (after .disStream (dev (frameTxLevels true) .streaming)) = (false, .nak, 0, .streaming, 38) := by
  decide

/-- V-SCL-1, V-SCL-2. -/
theorem test_setscaling :
    (after (.setScaling true) (dev (ackedLevels 0))).cmdr = 0xE7 ∧ (after (.setScaling false) (dev (ackedLevels 0))).cmdr = 0xE6 := by
  decide

/-- V-RES-1. -/
theorem test_setres :
    let t := after (.setRes 0x02) (dev (ackedLevels 0 ++ ackedLevels 0) .remoteIdle)
    (ending t, t.cmdr) = ((true, .none, 0, .remoteIdle, 146), 0x02) := by decide

/-- V-RAT-2. -/
theorem test_setrate :
    let t := after (.setRate 0x64) (dev (ackedLevels 0 ++ ackedLevels 1) .streaming)
    (ending t, t.cmdr) = ((true, .none, 1, .streaming, 219), 0x64) := by decide

/-- V-GET-1. -/
theorem test_getsettings :
    let t := after .getSettings (dev (ackedLevels 0 ++ recordLevels ⟨0x10, 0x02, 0x64⟩) .remoteIdle)
    (ending t, t.settings) = ((true, .none, 0, .remoteIdle, 178), ⟨true, 0x02, 0x64⟩) := by decide

/-- V-GET-4. -/
theorem test_getsettings_fails_in_the_record :
    let t := after .getSettings (dev (ackedLevels 0 ++ goodFrame 0x10 ++ receiveCell true) .remoteIdle)
    (ending t, t.rxcnt, Memory.read t.rxbuf 0) = ((false, .framing, 0, .remoteIdle, 113), 1, 0x10) := by decide

/-- V-RD-2. -/
theorem test_readdata_remote :
    let t := after .readData (dev (ackedLevels 0 ++ recordLevels ⟨0x18, 0x10, 0x00⟩) .remoteIdle)
    (ending t, t.mv.dx.toInt, t.mv.dy.toInt) = ((true, .none, 0, .remoteIdle, 178), -240, 0) := by decide

/-- V-RD-4, V-RD-3. -/
theorem test_readdata_streaming :
    (let t := after .readData (dev (clk false :: recordLevels ⟨0x29, 0x05, 0xFB⟩) .streaming)
     (ending t, t.mv.left, t.mv.dx.toInt, t.mv.dy.toInt) = ((true, .none, 0, .streaming, 106), true, 5, -5)) ∧
    ending (after .readData (dev [clk true] .streaming)) = (false, .noData, 0, .streaming, 1) := by decide

/-! Packet Decoder -/

/-- V-ST, row `60 03 C8`. -/
theorem test_decstatus :
    (after .decStatus (filled 0x60 0x03 0xC8)).st = ⟨false, false, false, false, true, true, 0x03, 0xC8⟩ := by decide

/-- V-ST, row `88 00 0A`. -/
theorem test_decstatus_unused_bits :
    (after .decStatus (filled 0x88 0x00 0x0A)).st = ⟨false, false, false, false, false, false, 0x00, 0x0A⟩ := by decide

/-- V-MOT, row `48 FF 00`. -/
theorem test_decmotion_overflow :
    let t := after .decMotion (filled 0x48 0xFF 0x00)
    (t.mv.dx.toInt, t.mv.dy.toInt, t.mv.xovf, t.mv.yovf) = (255, 0, true, false) := by decide

/-- V-MOT, row `38 80 80`, and V-DISP's bit pattern. -/
theorem test_decmotion_signs :
    let t := after .decMotion (filled 0x38 0x80 0x80)
    (t.mv.dx.toInt, t.mv.dx, t.mv.dy.toInt) = (-128, 0b110000000, -128) := by decide

/-! What passes on the wire -/

/-- R120, V-CMD-1 at its last byte. -/
theorem test_ack_ends_the_command :
    let t := after .respAck (running (.command ⟨.command, .recvAck (.cell .waitLow)⟩))
    (t.busy, t.ok, t.ackr) = (false, true, 0xFA) := by decide

/-- R124, V-CMD-4. -/
theorem test_error_fails_the_command :
    let t := after .respError (running (.command ⟨.command, .recvAck (.cell .waitLow)⟩))
    (t.busy, t.ok, t.err) = (false, false, .protocol) := by decide

/-- R120, R123: a retransmission is under way. -/
theorem test_resend_retransmits :
    let t := after .respResend { running (.command ⟨.command, .recvAck (.cell .waitLow)⟩) with cmdr := 0xF4 }
    (t.busy, t.retry, t.txr, t.phase) = (true, 1, 0xF4, .command ⟨.command, .send (.cell (.waitLow false))⟩) := by decide

/-- R132: 0xAA is the first plain byte, 0x00 the second. -/
theorem test_reset_reply_bytes :
    (after .respSelfTestPassed (running (.session (.resetSelfTest (.cell .waitLow))))).phase = .session (.resetIdentity (.cell .waitLow)) ∧
    (after .respIsMouse (running (.session (.resetIdentity (.cell .waitLow))))).cmdr = 0xF0 ∧
    (after .respIsMouse (running (.session (.resetSelfTest (.cell .waitLow))))).err = .protocol := by decide

/-- R105, V-RB-3. -/
theorem test_framerx_with_wrong_parity :
    let t := after (.frameRx 0xFA false true) (running (.recvByte (.cell .waitLow)))
    (t.ok, t.result, t.par) = (true, 0xFA, true) := by decide

/-- R61, V-SB-2: a frame the device refuses. -/
theorem test_frametx_refused : ending (after (.frameTx 0xF4 false true) (dev [])) = (false, .nak, 0, .uninit, 38) := by decide

/-- R120, R125: the frame that a command offers is taken, and refused. -/
theorem test_frametx_offered_by_a_command :
    let s := after (.sendCmd 0xF4) (dev [])
    (s.frameOffered, (after (.frameTx 0xF4 false false) s).phase, (after (.frameTx 0xF4 false true) s).err) =
      (some 0xF4, .command ⟨.command, .recvAck (.cell .waitLow)⟩, .nak) := by decide

/-- V-GET-2. -/
theorem test_status_record :
    (after (.status 0x60 0x02 0x64) (running (.session (.getRecv ⟨0, .cell .waitLow⟩)))).st =
      ⟨false, false, false, false, true, true, 0x02, 0x64⟩ := by decide

/-- V-RD-9, the pending poll being answered low. -/
theorem test_motion_record :
    let t := after (.motion 0xC8 0xFF 0xFF) { running (.session .streamPoll) with session := .streaming }
    (t.ok, t.mv.dx.toInt, t.mv.dy.toInt, t.mv.xovf) = (true, 255, 255, true) := by decide

/-! Words outside the table -/

/-- The state one step leads to when `it` is presented. -/
def afterItem (it : Item) (s : State) : State :=
  match step (s.present it) with
  | .next t => t
  | .fault _ => s
  | .refused _ => s

/-- R73, R126, V-CMD-19: a code outside R68 is sent unchecked, and so is 0xEA with a parameter (U9). -/
theorem test_unknown_commands_are_sent :
    ending (afterItem (.cmd1 0x12) (dev (ackedLevels 0))) = (true, .none, 0, .uninit, 73) ∧
    ending (afterItem (.cmd2 0xEA 0x02) (dev (ackedLevels 0 ++ ackedLevels 0))) = (true, .none, 0, .uninit, 146) := by decide

/-- R72, R124, V-CMD-5: a byte outside R71 fails a command that waits for its acknowledge byte. -/
theorem test_unknown_response_fails_the_command :
    let t := afterItem (.resp 0x01) (running (.command ⟨.command, .recvAck (.cell .waitLow)⟩))
    (t.busy, t.ok, t.err, t.ackr) = (false, false, .protocol, 0x01) := by decide

/-- R106, R49: a start bit of 1 fails after one cell, and the ten others stay on the wire. -/
theorem test_framerx_with_start_bit_one :
    let t := afterItem (.frameRx 0b10101111111) (running (.recvByte (.cell .waitLow)))
    (t.busy, t.ok, t.err, t.trace.length, t.wire.length) = (false, false, .framing, 3, 30) := by decide

/-- R61: a frame with stop bit 0 is never sent. -/
theorem test_frametx_with_stop_bit_zero : afterItem (.frameTx 0b000101111000) State.reset = State.reset := by decide

/-! Memory -/

theorem test_memory_reset_is_canonical : Memory.wf State.reset.rxbuf = true := by decide

theorem test_memory_write_keeps_one_form :
    Memory.write (Memory.write [] 2 0x64) 0 0x60 = [(0, 0x60), (2, 0x64)] ∧ Memory.write [(0, 0x60), (2, 0x64)] 2 0x00 = [(0, 0x60)] := by
  decide

/-! Witnesses: for each obligation with hypotheses, operands and a state that meet all of them, clause by clause -/

/-- A limit of two resends admits two. -/
theorem limit_two : ∀ n, ({ Params.reference with resendLimit := some 2 } : Params).resendLimit = some n → 2 ≤ n := by
  intro n h; cases h; decide

/-- A wait that spins once less than its limit lets it (R90). -/
theorem spinning_wait (level : Bool) : WaitAnswers (some 2) level [clk (!level), clk level] :=
  ⟨[clk (!level)], clk level, rfl, ⟨by simp [clk], fun n h _ => by cases h; exact Nat.lt_add_one 1⟩, rfl⟩

/-- An idle block meets the invariant in every `SESSION` value it may be idle in. -/
theorem dev_inv (w : List Levels) (ses : Session) (h : ses ≠ .remoteReading) : (dev w ses).Inv :=
  ⟨by simp [dev, State.construct], fun _ => rfl, by simp [State.errOk, dev, State.construct],
    by simpa [State.readingOk, dev, State.construct, Phase.readingFrom] using h, rfl, (by decide : Params.reference.wf)⟩

theorem witness_StepRunsTheDecodedInstruction :
    (∃ (s : State) (it : Item) (rest : List Item) (i : Instr), s.inbox = it :: rest ∧ decode it = .ok i) ∧
    (∀ c, ∃ (s : State) (rest : List Item), s.inbox = .cmd1 c :: rest) ∧
    (∀ c p, ∃ (s : State) (rest : List Item), s.inbox = .cmd2 c p :: rest) ∧
    (∀ v, ∃ (s : State) (rest : List Item), s.inbox = .resp v :: rest) ∧
    (∀ w, ∃ (s : State) (rest : List Item), s.inbox = .frameRx w :: rest) ∧
    (∃ (s : State) (w : BitVec 12) (rest : List Item), s.inbox = .frameTx w :: rest ∧ ∀ i, decode (.frameTx w) ≠ .ok i) :=
  ⟨⟨State.reset.present (.req 0x00100), _, _, .sendBit true, rfl, rfl⟩, fun c => ⟨State.reset.present (.cmd1 c), _, rfl⟩,
   fun c p => ⟨State.reset.present (.cmd2 c p), _, rfl⟩, fun v => ⟨State.reset.present (.resp v), _, rfl⟩,
   fun w => ⟨State.reset.present (.frameRx w), _, rfl⟩,
   ⟨State.reset.present (.frameTx 0b000101111000), _, _, rfl, fun _ h =>
     nomatch (show (Except.error .sentStopBit : Except DecodeError Instr) = .ok _ from h)⟩⟩

theorem witness_StepWithNothingPresented :
    (∃ s : State, s.inbox = [] ∧ s.busy = false) ∧
    (∃ s : State, s.inbox = [] ∧ s.busy = true ∧ s.phase ≠ .idle ∧ s.wire = []) ∧
    (∃ (s : State) (l : Levels) (ls : List Levels), s.inbox = [] ∧ s.busy = true ∧ s.phase ≠ .idle ∧ s.wire = l :: ls) ∧
    (∃ s : State, s.inbox = [] ∧ s.busy = true ∧ s.phase = .idle) :=
  ⟨⟨State.reset, rfl, rfl⟩, ⟨running (.recvBit .waitLow), rfl, rfl, by decide, rfl⟩,
   ⟨running (.recvBit .waitLow) [clk true], _, _, rfl, rfl, by decide, rfl⟩, ⟨running .idle, rfl, rfl, rfl⟩⟩

theorem witness_DecodeOfEncode : ∃ i : Instr, i.wf = true := ⟨.frameTx 0xFF true true, by decide⟩

theorem witness_EncodeOfDecode : ∃ (it : Item) (i : Instr), decode it = .ok i ∧ it.isRequest = false :=
  ⟨.frameTx 0b000101111010, .frameTx 0xF4 false false, rfl, rfl⟩

theorem witness_ConstructionMeetsInv : ∃ p : Params, p.wf ∧ p.waitLimit = some 1 := ⟨strict, by decide, rfl⟩

theorem witness_InvKeptByEveryStep : ∃ s t : State, s.Inv ∧ step s = .next t :=
  ⟨_, _, (dev_inv [] .remoteIdle (by decide)).of_input [] [.req 0xD0000] 0, rfl⟩

theorem witness_NeverBackToUninit : ∃ s t : State, s.Inv ∧ s.session ≠ .uninit ∧ step s = .next t :=
  ⟨_, _, (dev_inv [] .streaming (by decide)).of_input [] [.req 0x60000] 0, by decide, rfl⟩

theorem witness_DrivesFollowThePinSets : ∃ s t : State, step s = .next t ∧ t.clkDrv ≠ s.clkDrv :=
  ⟨State.reset.present (.req 0x2F400), _, rfl, by decide⟩

theorem witness_AnswersAreTakenInOrder :
    ∃ (i : Instr) (s t : State), i.onPort = true ∧ exec i s = .next t ∧ t.wire ≠ s.wire :=
  ⟨.recvBit, dev (receiveCell true), _, rfl, rfl, by decide⟩

theorem witness_PhaseNamesTheNextRead :
    (∃ s : State, s.phase ≠ .idle ∧ s.wire = []) ∧ (∃ (s : State) (l : Levels) (ls : List Levels), s.phase ≠ .idle ∧ s.wire = l :: ls) :=
  ⟨⟨running (.recvBit .sample), by decide, rfl⟩, ⟨running (.recvBit .sample) [clk true], _, _, by decide, rfl⟩⟩

theorem witness_SilentClockHangs :
    (∃ (s : State) (L : Bool), s.busy = true ∧ s.phase.waitsFor = some L ∧ (∀ l ∈ s.wire, l.clk = !L) ∧ s.wire.length = 2 ∧
      (∀ n, s.params.waitLimit = some n → s.waitcnt + s.wire.length < n) ∧ s.params.waitLimit = none) ∧
    (∃ (s : State) (L : Bool), s.busy = true ∧ s.phase.waitsFor = some L ∧ (∀ l ∈ s.wire, l.clk = !L) ∧ s.wire.length = 2 ∧
      (∀ n, s.params.waitLimit = some n → s.waitcnt + s.wire.length < n) ∧ s.params.waitLimit = some 3) :=
  ⟨⟨running (.recvBit .waitLow) [clk true, clk true], false, rfl, rfl, by decide, rfl, nofun, rfl⟩,
   ⟨running (.recvBit .waitLow) [clk true, clk true] { Params.reference with waitLimit := some 3 }, false, rfl, rfl, by decide, rfl,
    fun n h => by cases h; decide, rfl⟩⟩

theorem witness_WaitExpires :
    ∃ (s : State) (L : Bool) (l : Levels) (rest : List Levels) (n : Nat), s.phase.waitsFor = some L ∧ s.wire = l :: rest ∧
      l.clk = !L ∧ s.params.waitLimit = some n ∧ n = s.waitcnt + 1 :=
  ⟨{ running (.sendBit .waitHigh) [clk false] { Params.reference with waitLimit := some 3 } with waitcnt := 2 }, true, _, _, 3,
    rfl, rfl, rfl, rfl, rfl⟩

theorem witness_SendBitResult :
    (∃ (s : State) (low high rest : List Levels), s.busy = false ∧ WaitAnswers s.params.waitLimit false low ∧
      WaitAnswers s.params.waitLimit true high ∧ s.wire = low ++ (high ++ rest) ∧ s.params.waitLimit = some 2 ∧ low.length = 2) ∧
    (∃ (s : State) (low high rest : List Levels), s.busy = false ∧ WaitAnswers s.params.waitLimit false low ∧
      WaitAnswers s.params.waitLimit true high ∧ s.wire = low ++ (high ++ rest) ∧ s.params.waitLimit = none) :=
  ⟨⟨dev ([clk true, clk false] ++ ([clk false, clk true] ++ [])) .uninit { Params.reference with waitLimit := some 2 }, _, _, _, rfl,
      spinning_wait false, spinning_wait true, rfl, rfl, rfl⟩,
   ⟨dev ([clk false] ++ ([clk true] ++ [])), _, _, _, rfl, waitAnswers_one _ rfl, waitAnswers_one _ rfl, rfl, rfl⟩⟩

theorem witness_RecvBitResult :
    ∃ (s : State) (low high rest : List Levels) (sample : Levels), s.busy = false ∧ WaitAnswers s.params.waitLimit false low ∧
      WaitAnswers s.params.waitLimit true high ∧ s.wire = low ++ (sample :: (high ++ rest)) :=
  ⟨dev ([clk true, clk false] ++ (clk true :: ([clk false, clk true] ++ []))) .uninit { Params.reference with waitLimit := some 2 },
    _, _, _, _, rfl, spinning_wait false, spinning_wait true, rfl⟩

theorem witness_BitOperationsLeave :
    (∃ s t : State, exec (.sendBit true) s = .next t ∧ t.busy = false) ∧ (∃ s t : State, exec .recvBit s = .next t ∧ t.busy = false) :=
  ⟨⟨dev driveCell, _, rfl, rfl⟩, ⟨dev (receiveCell true), _, rfl, rfl⟩⟩

theorem witness_SendByteResult :
    ∀ a, ∃ (s : State) (w rest : List Levels), s.busy = false ∧ TxAnswers s.params.waitLimit a w ∧ s.wire = w ++ rest :=
  fun a => ⟨dev (frameTxLevels a ++ []), _, _, rfl, frameTxLevels_answers _ a, rfl⟩

theorem witness_RecvByteResult :
    ∀ p t, ∀ params ∈ [Params.reference, strict], ∃ (s : State) (w rest : List Levels), s.params = params ∧ s.busy = false ∧
      RxAnswers s.params.waitLimit 0xFA p t w ∧ s.wire = w ++ rest :=
  fun p t params _ => ⟨dev (frameRxLevels 0xFA p t ++ []) .uninit params, _, _, rfl, rfl, frameRxLevels_answers _ _ p t, rfl⟩

theorem witness_RecvByteStartBitFailure :
    ∃ (s : State) (w rest : List Levels), s.busy = false ∧ SampleAnswers s.params.waitLimit true w ∧ s.wire = w ++ rest :=
  ⟨dev (receiveCell true ++ [clk true]), _, _, rfl, receiveCell_answers _ true, rfl⟩

theorem witness_LoopBack :
    ∃ (s t r : State) (bits : List Bool) (w rest x more : List Levels), s.busy = false ∧ TxAnswers s.params.waitLimit false w ∧
      s.wire = w ++ rest ∧ exec (.sendByte 0xF4) s = .next t ∧
      Emits s t w.length ([.set .clk .outLow, .delay Config.inhibitUs, .set .data .outLow, .set .clk .inPullup]
        ++ bits.map (fun b => .set .data (driveOf b)) ++ [.set .data .inFloat]) ∧
      r.busy = false ∧ SampleCells r.params.waitLimit (false :: bits) x ∧ r.wire = x ++ more :=
  ⟨dev (frameTxLevels false ++ []), after (.sendByte 0xF4) (dev (frameTxLevels false)),
    dev (((false :: drivenBits 0xF4).map receiveCell).flatten ++ []) .uninit strict, drivenBits 0xF4, _, _, _, _, rfl,
    frameTxLevels_answers _ false, rfl, rfl, ⟨_, (List.append_nil _).symm, by decide, by decide⟩, rfl, receiveCells_answers _ _, rfl⟩

theorem witness_ByteOperationsLeave :
    (∃ s t : State, exec (.sendByte 0xF4) s = .next t ∧ t.busy = false) ∧ (∃ s t : State, exec .recvByte s = .next t ∧ t.busy = false) :=
  ⟨⟨dev (frameTxLevels false), _, rfl, rfl⟩, ⟨dev (goodFrame 0xFA), _, rfl, rfl⟩⟩

theorem witness_AcknowledgeByteDecides :
    ∀ r ∈ [(0xFA : Byte), 0xFC, 0x00], ∃ (s : State) (resends last rest : List Levels), s.busy = false ∧
      ResendAnswers s.params 2 resends ∧ ExchangeAnswers s.params r true last ∧ r ≠ 0xFE ∧
      (∀ n, s.params.resendLimit = some n → 2 ≤ n) ∧ s.wire = (resends ++ last) ++ rest ∧ s.params.resendLimit = some 2 :=
  fun r hr => ⟨dev ((resendLevels 2 ++ exchangeLevels r) ++ []) .uninit { Params.reference with resendLimit := some 2 }, _, _, _, rfl,
    resendLevels_answers _ 2, exchangeLevels_answers _ r, by revert r; decide, limit_two, rfl, rfl⟩

theorem witness_CommandsComplete :
    ∀ p ∈ [(Instr.sendCmd 0x12, (0x12 : Byte)), (.cmdDisableScaling, 0xE6), (.cmdEnableScaling, 0xE7), (.cmdStatusRequest, 0xE9),
        (.cmdSetStreamMode, 0xEA), (.cmdReadData, 0xEB), (.cmdReset, 0xFF), (.cmdSetRemoteMode, 0xF0),
        (.cmdEnableDataReporting, 0xF4), (.cmdDisableDataReporting, 0xF5)],
      ∃ (s : State) (w rest : List Levels),
        (p.1 = .sendCmd p.2 ∨ p ∈ [(Instr.cmdDisableScaling, (0xE6 : Byte)), (.cmdEnableScaling, 0xE7), (.cmdStatusRequest, 0xE9),
          (.cmdSetStreamMode, 0xEA), (.cmdReadData, 0xEB), (.cmdReset, 0xFF), (.cmdSetRemoteMode, 0xF0),
          (.cmdEnableDataReporting, 0xF4), (.cmdDisableDataReporting, 0xF5)]) ∧
        s.busy = false ∧ AckedAnswers s.params 2 true w ∧ s.wire = w ++ rest := by
  intro p hp
  refine ⟨dev (ackedLevels 2 ++ []) .uninit { Params.reference with resendLimit := some 2 }, _, _, ?_, rfl,
    ackedLevels_answers _ limit_two, rfl⟩
  revert p
  decide

theorem witness_ParameterCommandsComplete :
    ∀ q ∈ [(Instr.sendCmdP 0xF3 0x64, (0xF3 : Byte)), (.cmdSetResolution 0x64, 0xE8), (.cmdSetSampleRate 0x64, 0xF3)],
      ∃ (s : State) (w w' rest : List Levels),
        (q.1 = .sendCmdP q.2 0x64 ∨ (q.1 = .cmdSetResolution 0x64 ∧ q.2 = 0xE8) ∨ (q.1 = .cmdSetSampleRate 0x64 ∧ q.2 = 0xF3)) ∧
        s.busy = false ∧ AckedAnswers s.params 2 true w ∧ AckedAnswers s.params 0 true w' ∧ s.wire = w ++ (w' ++ rest) := by
  intro q hq
  refine ⟨dev (ackedLevels 2 ++ (ackedLevels 0 ++ [])) .uninit { Params.reference with resendLimit := some 2 }, _, _, _, ?_, rfl,
    ackedLevels_answers _ limit_two, ackedLevels_answers _ fun n _ => Nat.zero_le n, rfl⟩
  revert q
  decide

theorem witness_ParameterOnlyAfterTheAcknowledge :
    (∀ w ∈ [frameTxLevels true, frameTxLevels false ++ receiveCell true, exchangeLevels 0xFC], ∃ s u : State, s.wire = w ∧
      s.busy = false ∧ exec (.sendCmd 0xF3) s = .next u ∧ u.busy = false ∧ u.ok = false) ∧
    (∃ (s u : State) (q : CommandPhase), s.busy = false ∧ exec (.sendCmd 0xF3) s = .next u ∧ u.phase = .command q) ∧
    (∃ s u : State, s.busy = false ∧ exec (.sendCmd 0xF3) s = .next u ∧ u.busy = false ∧ u.ok = true) ∧
    (∃ (s : State) (resends last rest : List Levels), s.busy = false ∧ ResendAnswers s.params 0 resends ∧
      ExchangeAnswers s.params 0xFC true last ∧ (∀ n, s.params.resendLimit = some n → 0 ≤ n) ∧ s.wire = (resends ++ last) ++ rest) ∧
    (∃ (s : State) (w resends last rest : List Levels), s.busy = false ∧ AckedAnswers s.params 0 true w ∧
      ResendAnswers s.params 2 resends ∧ ExchangeAnswers s.params 0xFC true last ∧
      (∀ n, s.params.resendLimit = some n → 2 ≤ n) ∧ s.wire = w ++ ((resends ++ last) ++ rest)) :=
  ⟨fun w hw => by
      simp only [List.mem_cons, List.not_mem_nil, or_false] at hw
      rcases hw with rfl | rfl | rfl <;> exact ⟨dev _, _, rfl, rfl, rfl, rfl, rfl⟩,
   ⟨dev [], _, _, rfl, rfl, rfl⟩, ⟨dev (ackedLevels 0), _, rfl, rfl, rfl, rfl⟩,
   ⟨dev ((resendLevels 0 ++ exchangeLevels 0xFC) ++ []) .uninit strict, _, _, _, rfl, resendLevels_answers _ 0,
      exchangeLevels_answers _ _, fun n _ => Nat.zero_le n, rfl⟩,
   ⟨dev (ackedLevels 0 ++ ((resendLevels 2 ++ exchangeLevels 0xFC) ++ [])) .uninit { Params.reference with resendLimit := some 2 },
      _, _, _, _, rfl, ackedLevels_answers _ fun n _ => Nat.zero_le n, resendLevels_answers _ 2, exchangeLevels_answers _ _, limit_two, rfl⟩⟩

theorem witness_NakEndsTheCommand :
    ∃ (s : State) (resends last rest : List Levels), s.busy = false ∧ ResendAnswers s.params 2 resends ∧
      TxAnswers s.params.waitLimit true last ∧ (∀ n, s.params.resendLimit = some n → 2 ≤ n) ∧ s.wire = (resends ++ last) ++ rest :=
  ⟨dev ((resendLevels 2 ++ frameTxLevels true) ++ [clk true]) .uninit { Params.reference with resendLimit := some 2 }, _, _, _, rfl,
    resendLevels_answers _ 2, frameTxLevels_answers _ true, limit_two, rfl⟩

theorem witness_ResendLimitEndsTheCommand :
    ∀ n ∈ [0, 2], ∃ (s : State) (w rest : List Levels), s.busy = false ∧ s.params.resendLimit = some n ∧
      ResendAnswers s.params (n + 1) w ∧ s.wire = w ++ rest :=
  fun n _ => ⟨dev (resendLevels (n + 1) ++ []) .uninit { Params.reference with resendLimit := some n }, _, _, rfl, rfl,
    resendLevels_answers _ _, rfl⟩

theorem witness_EndlessResend :
    ∀ k, ∃ (s : State) (w : List Levels), s.busy = false ∧ s.params.resendLimit = none ∧ ResendAnswers s.params k w ∧ s.wire = w :=
  fun k => ⟨dev (resendLevels k), _, rfl, rfl, resendLevels_answers _ k, rfl⟩

theorem witness_CommandOperationsLeave :
    ∀ i ∈ [Instr.sendCmd 0x12, .sendCmdP 0xF3 0x64, .setScaling true, .setRes 2, .setRate 100, .cmdReset, .cmdSetSampleRate 100],
      ∃ s t : State, i.commandOnly = true ∧ exec i s = .next t ∧ t.busy = false := by
  intro i hi
  fin_cases hi <;> exact ⟨dev (exchangeLevels 0xFC), _, rfl, rfl, rfl⟩

theorem witness_PseudoOperationsExpand : ∃ s : State, s.busy = false := ⟨State.reset, rfl⟩

theorem witness_ResetCompletes :
    ∃ (s : State) (w1 w2 w3 w4 w5 rest : List Levels), s.busy = false ∧ s.session = .streaming ∧ AckedAnswers s.params 0 true w1 ∧
      ByteAnswers s.params 0xAA true w2 ∧ ByteAnswers s.params 0x00 true w3 ∧ AckedAnswers s.params 0 true w4 ∧
      AckedAnswers s.params 0 true w5 ∧ s.wire = w1 ++ (w2 ++ (w3 ++ (w4 ++ (w5 ++ rest)))) :=
  ⟨dev (ackedLevels 0 ++ (goodFrame 0xAA ++ (goodFrame 0x00 ++ (ackedLevels 0 ++ (ackedLevels 0 ++ []))))) .streaming strict,
    _, _, _, _, _, _, rfl, rfl, ackedLevels_answers _ fun n _ => Nat.zero_le n, goodFrame_answers _ _, goodFrame_answers _ _,
    ackedLevels_answers _ fun n _ => Nat.zero_le n, ackedLevels_answers _ fun n _ => Nat.zero_le n, rfl⟩

theorem witness_ResetWrongByteFails :
    (∃ (s : State) (w1 w2 rest : List Levels), s.busy = false ∧ AckedAnswers s.params 0 true w1 ∧
      ByteAnswers s.params 0xFC true w2 ∧ s.wire = w1 ++ (w2 ++ rest)) ∧
    (∃ (s : State) (w1 w2 w3 rest : List Levels), s.busy = false ∧ AckedAnswers s.params 0 true w1 ∧
      ByteAnswers s.params 0xAA true w2 ∧ ByteAnswers s.params 0x03 true w3 ∧ s.wire = w1 ++ (w2 ++ (w3 ++ rest))) :=
  ⟨⟨dev (ackedLevels 0 ++ (goodFrame 0xFC ++ [])), _, _, _, rfl, ackedLevels_answers _ fun n _ => Nat.zero_le n, goodFrame_answers _ _, rfl⟩,
   ⟨dev (ackedLevels 0 ++ (goodFrame 0xAA ++ (goodFrame 0x03 ++ []))), _, _, _, _, rfl, ackedLevels_answers _ fun n _ => Nat.zero_le n,
      goodFrame_answers _ _, goodFrame_answers _ _, rfl⟩⟩

theorem witness_StreamModeOperationsComplete :
    ∃ (s : State) (w rest : List Levels), s.busy = false ∧ AckedAnswers s.params 2 true w ∧ s.wire = w ++ rest :=
  ⟨dev (ackedLevels 2 ++ []) .remoteIdle { Params.reference with resendLimit := some 2 }, _, _, rfl, ackedLevels_answers _ limit_two, rfl⟩

theorem witness_SettingsComplete :
    (∃ (s : State) (w rest : List Levels), s.busy = false ∧ AckedAnswers s.params 2 true w ∧ s.wire = w ++ rest) ∧
    (∃ (s : State) (w w' rest : List Levels), s.busy = false ∧ AckedAnswers s.params 0 true w ∧ AckedAnswers s.params 2 true w' ∧
      s.wire = w ++ (w' ++ rest)) :=
  ⟨⟨dev (ackedLevels 2 ++ []) .uninit { Params.reference with resendLimit := some 2 }, _, _, rfl, ackedLevels_answers _ limit_two, rfl⟩,
   ⟨dev (ackedLevels 0 ++ (ackedLevels 2 ++ [])) .streaming { Params.reference with resendLimit := some 2 }, _, _, _, rfl,
      ackedLevels_answers _ fun n _ => Nat.zero_le n, ackedLevels_answers _ limit_two, rfl⟩⟩

theorem witness_GetSettingsCompletes :
    ∃ (s : State) (r : Record) (w w' rest : List Levels), s.busy = false ∧ Memory.wf s.rxbuf = true ∧ AckedAnswers s.params 0 true w ∧
      RecordAnswers s.params r true w' ∧ s.wire = w ++ (w' ++ rest) :=
  ⟨dev (ackedLevels 0 ++ (recordLevels ⟨0x10, 0x02, 0x64⟩ ++ [])) .remoteIdle strict, _, _, _, _, rfl, rfl,
    ackedLevels_answers _ fun n _ => Nat.zero_le n, recordLevels_answers _ _, rfl⟩

theorem witness_ReadDataRemoteCompletes :
    ∀ ses ∈ [Session.uninit, .remoteIdle], ∃ (s : State) (r : Record) (w w' rest : List Levels), s.session = ses ∧ s.busy = false ∧
      Memory.wf s.rxbuf = true ∧ s.session ≠ .streaming ∧ AckedAnswers s.params 0 true w ∧ RecordAnswers s.params r true w' ∧
      s.wire = w ++ (w' ++ rest) :=
  fun ses hs => ⟨dev (ackedLevels 0 ++ (recordLevels ⟨0x18, 0x10, 0x00⟩ ++ [])) ses strict, _, _, _, _, rfl, rfl, rfl,
    by revert ses; decide, ackedLevels_answers _ fun n _ => Nat.zero_le n, recordLevels_answers _ _, rfl⟩

theorem witness_ReadDataStreamCompletes :
    ∃ (s : State) (r : Record) (poll : Levels) (w rest : List Levels), s.busy = false ∧ Memory.wf s.rxbuf = true ∧
      s.session = .streaming ∧ poll.clk = false ∧ RecordAnswers s.params r true w ∧ s.wire = poll :: (w ++ rest) :=
  ⟨dev (clk false :: (recordLevels ⟨0x29, 0x05, 0xFB⟩ ++ [])) .streaming, _, _, _, _, rfl, rfl, rfl, rfl, recordLevels_answers _ _, rfl⟩

theorem witness_ReadDataNoData :
    ∃ (s : State) (poll : Levels) (rest : List Levels), s.busy = false ∧ s.session = .streaming ∧ poll.clk = true ∧ s.wire = poll :: rest :=
  ⟨dev [clk true] .streaming, _, _, rfl, rfl, rfl, rfl⟩

theorem witness_SessionTransitionTable :
    (∃ s t : State, s.busy = false ∧ s.session ≠ .remoteReading ∧ exec .enStream s = .next t ∧ t.busy = false ∧ t.ok = true) ∧
    (∃ s t : State, s.busy = false ∧ s.session ≠ .remoteReading ∧ exec .disStream s = .next t ∧ t.busy = false ∧ t.ok = false) ∧
    (∃ s t : State, s.busy = false ∧ s.session = .remoteIdle ∧ exec .readData s = .next t ∧ t.busy = true) :=
  ⟨⟨dev (ackedLevels 0), _, rfl, by decide, rfl, rfl, rfl⟩, ⟨dev (frameTxLevels true) .streaming, _, rfl, by decide, rfl, rfl, rfl⟩,
   ⟨dev [] .remoteIdle, _, rfl, rfl, rfl, rfl⟩⟩

theorem witness_FailureKeepsTheResults :
    ∃ (i : Instr) (s t : State), i.isOperation = true ∧ s.busy = false ∧ exec i s = .next t ∧ t.busy = false ∧ t.ok = false :=
  ⟨.readData, dev (exchangeLevels 0xFC) .remoteIdle, _, rfl, rfl, rfl, rfl, rfl⟩

theorem witness_SessionOperationsLeave :
    ∀ i ∈ [Instr.reset, .enStream, .disStream], ∃ s t : State, exec i s = .next t ∧ t.busy = false := by
  intro i hi
  fin_cases hi <;> exact ⟨dev (exchangeLevels 0xFC), _, rfl, rfl⟩

theorem witness_RecordOperationsLeave :
    (∃ s t : State, exec .getSettings s = .next t ∧ t.rxcnt = 1) ∧ (∃ s t : State, exec .readData s = .next t ∧ t.rxcnt = 3) :=
  ⟨⟨dev (ackedLevels 0 ++ goodFrame 0x10 ++ receiveCell true), _, rfl, rfl⟩,
   ⟨dev (ackedLevels 0 ++ recordLevels ⟨0x18, 0x10, 0x00⟩), _, rfl, rfl⟩⟩

theorem witness_DecodersComplete :
    ∀ params ∈ [Params.reference, strict], ∃ (s : State) (b0 b1 b2 : Byte), s.params = params ∧ s.busy = false ∧ s.rxcnt = 3 ∧
      b0 = Memory.read s.rxbuf 0 ∧ b1 = Memory.read s.rxbuf 1 ∧ b2 = Memory.read s.rxbuf 2 ∧ b0 = 0x38 ∧ b1 = 0x80 ∧ b2 = 0 :=
  fun params _ => ⟨filled 0x38 0x80 0 params, _, _, _, rfl, rfl, rfl, rfl, rfl, rfl, rfl, rfl, rfl⟩

theorem witness_DecodersOnAnUnfilledBuffer :
    ∀ n ∈ [(0 : BitVec 2), 2], ∃ s : State, s.rxcnt = n ∧ s.busy = false ∧ s.rxcnt ≠ 3 :=
  fun n hn => ⟨{ State.reset with rxcnt := n }, rfl, rfl, by revert n; decide⟩

theorem witness_UnusedAndOverflowBits :
    ∀ expose, ∃ p : Params, p.layout = Layout.reference ∧ p.exposeOverflow = expose ∧
      (0x88 : Byte) &&& 0x77 = 0 ∧ (0x08 : Byte) &&& 0xF7 = 0 ∧ (0xC0 : Byte) &&& 0x3F = 0 :=
  fun expose => ⟨{ Params.reference with exposeOverflow := expose }, rfl, rfl, by decide, by decide, by decide⟩

/-- The ends of the range and its middle: -256, -1, 0, 255. -/
theorem witness_DisplacementLaw :
    ∀ d ∈ [-256, -1, 0, (255 : Int)], -256 ≤ d ∧ d ≤ 255 ∧ ∃ (s : Bool) (m : Byte), displacement s m = d := by
  intro d hd
  fin_cases hd
  · exact ⟨by decide, by decide, true, 0, rfl⟩
  · exact ⟨by decide, by decide, true, 0xFF, rfl⟩
  · exact ⟨by decide, by decide, false, 0, rfl⟩
  · exact ⟨by decide, by decide, false, 0xFF, rfl⟩

theorem witness_RequestsWhileBusyAreIgnored : ∃ (i : Instr) (s : State), i.onPort = true ∧ s.busy = true :=
  ⟨.reset, running (.recvBit .waitLow), rfl, rfl⟩

theorem witness_IdleBlockLosesWhatTheDeviceSends : ∃ (i : Instr) (s : State), i.fromDevice = true ∧ s.busy = false :=
  ⟨.motion 8 0 0, State.reset, rfl, rfl⟩

theorem witness_FrameRxIsReceived :
    (∀ params ∈ [Params.reference, strict], ∃ s : State, s.params = params ∧ s.busy = true ∧ s.phase = .recvByte (.cell .waitLow) ∧
      s.bitcnt = 0 ∧ s.wire = []) ∧
    (∃ (s : State) (w : BitVec 11) (rest : List Item), s.inbox = .frameRx w :: rest ∧ w.getLsbD 10 = true ∧ s.busy = false) ∧
    (∃ (s : State) (w : BitVec 11) (rest : List Item), s.inbox = .frameRx w :: rest ∧ w.getLsbD 10 = true ∧ s.busy = true ∧
      s.phase = .recvByte (.cell .waitLow) ∧ s.bitcnt = 0 ∧ s.wire = []) :=
  ⟨fun params _ => ⟨running (.recvByte (.cell .waitLow)) [] params, rfl, rfl, rfl, rfl, rfl⟩,
   ⟨State.reset.present (.frameRx 0b10101111111), _, _, rfl, rfl, rfl⟩,
   ⟨(running (.recvByte (.cell .waitLow))).present (.frameRx 0b10101111111), _, _, rfl, rfl, rfl, rfl, rfl, rfl⟩⟩

/-- A state in which a frame of 0xF5 is offered, its answers used up: after a SENDBYTE, a SENDCMD and a Device Session operation
has begun. -/
theorem witness_FrameTxPasses :
    (∃ s : State, s.busy = false ∧ s.wire = []) ∧
    (∀ i ∈ [Instr.sendByte 0xF5, .sendCmd 0xF5], ∃ s : State, s = after i State.reset ∧ s.busy = true ∧ s.frameOffered = some 0xF5 ∧
      s.phase.sending? = some (.cell (.waitLow ((0xF5 : Byte).getLsbD 0))) ∧ s.bitcnt = 0 ∧ s.txr = 0xF5 ∧
      s.par = !((0xF5 : Byte).getLsbD 0) ∧ s.wire = []) ∧
    (∀ i ∈ [Instr.reset, .setRes 2, .getSettings, .readData], ∃ (s : State) (v : Byte), s = after i State.reset ∧ s.busy = true ∧
      s.frameOffered = some v ∧ s.phase.sending? = some (.cell (.waitLow (v.getLsbD 0))) ∧ s.bitcnt = 0 ∧ s.txr = v ∧
      s.par = !(v.getLsbD 0) ∧ s.wire = [] ∧ s.phase ≠ .sendByte (.cell (.waitLow (v.getLsbD 0)))) ∧
    (∃ (v : Byte) (p : Bool), p ≠ oddParity v) ∧
    (∃ (s : State) (v : Byte), s.busy = true ∧ s.frameOffered ≠ some v) := by
  refine ⟨⟨State.reset, rfl, rfl⟩, fun i hi => ?_, fun i hi => ?_, ⟨0, false, by decide⟩,
    ⟨after (.sendByte 0xF5) State.reset, 0xF4, rfl, by decide⟩⟩
  · fin_cases hi <;> exact ⟨_, rfl, rfl, rfl, rfl, rfl, rfl, rfl, rfl⟩
  · fin_cases hi
    · exact ⟨_, 0xFF, rfl, rfl, rfl, rfl, rfl, rfl, rfl, rfl, by decide⟩
    · exact ⟨_, 0xE8, rfl, rfl, rfl, rfl, rfl, rfl, rfl, rfl, by decide⟩
    · exact ⟨_, 0xE9, rfl, rfl, rfl, rfl, rfl, rfl, rfl, rfl, by decide⟩
    · exact ⟨_, 0xEB, rfl, rfl, rfl, rfl, rfl, rfl, rfl, rfl, by decide⟩

theorem witness_ResponsesToACommand :
    ∀ which ∈ [WhichByte.command, .parameter, .commandThen 0x64], ∃ s : State, s.busy = true ∧
      s.phase = .command { which := which, ack := .recvAck (.cell .waitLow) } ∧ s.bitcnt = 0 ∧ s.wire = [] ∧
      (∀ n, s.params.resendLimit = some n → s.retry + 1 ≤ n) ∧ s.params.resendLimit = some 2 :=
  fun which _ => ⟨{ running (.command ⟨which, .recvAck (.cell .waitLow)⟩) [] { Params.reference with resendLimit := some 2 } with
    retry := 1 }, rfl, rfl, rfl, rfl, limit_two, rfl⟩

theorem witness_ResponsesToAReset :
    (∃ s : State, s.busy = true ∧ s.bitcnt = 0 ∧ s.wire = [] ∧ s.phase = .session (.resetSelfTest (.cell .waitLow))) ∧
    (∃ s : State, s.busy = true ∧ s.bitcnt = 0 ∧ s.wire = [] ∧ s.phase = .session (.resetIdentity (.cell .waitLow))) :=
  ⟨⟨running (.session (.resetSelfTest (.cell .waitLow))), rfl, rfl, rfl, rfl⟩,
   ⟨running (.session (.resetIdentity (.cell .waitLow))), rfl, rfl, rfl, rfl⟩⟩

theorem witness_PacketsAreReceived :
    (∃ s : State, s.busy = true ∧ s.wire = [] ∧ Memory.wf s.rxbuf = true ∧ s.bitcnt = 0 ∧
      s.phase = .session (.getRecv { index := 0, byte := .cell .waitLow })) ∧
    (∃ (s : State) (s0 : Session), s.busy = true ∧ s.wire = [] ∧ Memory.wf s.rxbuf = true ∧ s.bitcnt = 0 ∧
      s.phase = .session (.readRecv s0 { index := 0, byte := .cell .waitLow })) ∧
    (∃ s : State, s.busy = true ∧ s.wire = [] ∧ Memory.wf s.rxbuf = true ∧ s.phase = .session .streamPoll ∧ s.session = .streaming) :=
  ⟨⟨running (.session (.getRecv ⟨0, .cell .waitLow⟩)), rfl, rfl, rfl, rfl, rfl⟩,
   ⟨running (.session (.readRecv .remoteIdle ⟨0, .cell .waitLow⟩)), .remoteIdle, rfl, rfl, rfl, rfl, rfl⟩,
   ⟨{ running (.session .streamPoll) with session := .streaming }, rfl, rfl, rfl, rfl, rfl⟩⟩

theorem witness_DeliveriesLeave :
    (∃ (s t : State) (w : List Levels), s.busy = true ∧ t = resume (s.more w) ∧ w.length = 3) ∧
    (∃ (i : Instr) (s t : State) (q : SessionPhase), i.fromDevice = true ∧ s.busy = true ∧ exec i s = .next t ∧
      s.phase = .session q ∧ q.writesStatus = false ∧ q.nextStored = none) ∧
    (∃ (i : Instr) (s t : State) (q : SessionPhase), i.fromDevice = true ∧ s.busy = true ∧ exec i s = .next t ∧
      s.phase = .session q ∧ q.writesStatus = true ∧ q.nextStored = some 0 ∧ t.busy = false) ∧
    (∃ (i : Instr) (s t : State) (q : SessionPhase), i.fromDevice = true ∧ s.busy = true ∧ exec i s = .next t ∧
      s.phase = .session q ∧ q.writesStatus = false ∧ q.nextStored = some 2 ∧ t.busy = false) ∧
    (∃ (i : Instr) (s t : State), i.fromDevice = true ∧ s.busy = true ∧ exec i s = .next t ∧ (∀ p, s.phase ≠ .session p) ∧
      (∃ p, s.phase = .recvByte p)) ∧
    (∃ (i : Instr) (s t : State), i.fromDevice = true ∧ s.busy = true ∧ exec i s = .next t ∧ (∀ p, s.phase ≠ .session p) ∧
      (∀ p, s.phase ≠ .recvByte p) ∧ (∀ p, s.phase ≠ .recvBit p)) ∧
    (∃ (v : Byte) (p a : Bool) (s t : State), s.busy = true ∧ exec (.frameTx v p a) s = .next t ∧
      (∀ q, s.phase ≠ .session q) ∧ (∀ q, s.phase ≠ .command q)) :=
  ⟨⟨running (.recvByte (.cell .waitLow)), _, receiveCell false, rfl, rfl, rfl⟩,
   ⟨.respIsMouse, running (.session (.resetIdentity (.cell .waitLow))), _, _, rfl, rfl, rfl, rfl, rfl, rfl⟩,
   ⟨.status 0x60 0x02 0x64, running (.session (.getRecv ⟨0, .cell .waitLow⟩)), _, _, rfl, rfl, rfl, rfl, rfl, rfl, rfl⟩,
   ⟨.frameRx 0x05 true true, running (.session (.readRecv .remoteIdle ⟨2, .cell .waitLow⟩)), _, _, rfl, rfl, rfl, rfl, rfl, rfl, rfl⟩,
   ⟨.respAck, running (.recvByte (.cell .waitLow)), _, rfl, rfl, rfl, nofun, _, rfl⟩,
   ⟨.respAck, running (.command ⟨.command, .recvAck (.cell .waitLow)⟩), _, rfl, rfl, rfl, nofun, nofun,
      nofun⟩,
   ⟨0xF5, true, false, running (.sendByte (.cell (.waitLow true))), _, rfl, rfl, nofun, nofun⟩⟩

theorem witness_AnswersMayComeInPortions :
    ∃ (i : Instr) (s t : State), i.onPort = true ∧ s.busy = false ∧ s.phase = .idle ∧ exec i s = .next t ∧ t.busy = true :=
  ⟨.reset, dev (frameTxLevels false ++ receiveCell false), _, rfl, rfl, rfl, rfl, rfl⟩

theorem witness_ResultsAreWrittenAtTheEnd : ∃ s t : State, step s = .next t ∧ t.busy = true :=
  ⟨State.reset.present (.req 0xC0000), _, rfl, rfl⟩

theorem witness_EveryStepAnswersANextState :
    (∃ s : State, s.Inv ∧ s.inbox = []) ∧ (∃ s : State, s.Inv ∧ s.inbox = [.resp 0x01]) :=
  ⟨⟨_, dev_inv [] .uninit (by decide), rfl⟩, ⟨_, (dev_inv [] .uninit (by decide)).of_input [] [.resp 0x01] 0, rfl⟩⟩

end Sys2Proof.Tests
end

section
/-! The encodings of 30_encoding.md: the operation table (R66, R67), the parity bit (R63), the acknowledge byte (R72), and
the expansions of R81. -/

namespace Sys2Proof.Machine

/-! The request word -/

/-- The three fields of a request word are the ones it was made of (R66). -/
theorem decodeReq_fields (o : BitVec 4) (a b : Byte) : decodeReq (o ++ a ++ b) = decodeOp o a b := by
  have ho : (o ++ a ++ b).extractLsb' 16 4 = o := by
    rw [BitVec.extractLsb'_append_eq_of_le (by omega), BitVec.extractLsb'_append_eq_of_le (by omega)]
    exact BitVec.extractLsb'_eq_self
  have ha : (o ++ a ++ b).extractLsb' 8 8 = a := by
    rw [BitVec.extractLsb'_append_eq_of_le (by omega)]
    exact BitVec.extractLsb'_append_eq_right
  have hb : (o ++ a ++ b).extractLsb' 0 8 = b := BitVec.extractLsb'_append_eq_right
  show decodeOp ((o ++ a ++ b).extractLsb' 16 4) ((o ++ a ++ b).extractLsb' 8 8) ((o ++ a ++ b).extractLsb' 0 8) = _
  rw [ho, ha, hb]

theorem decode_reqItem (o : BitVec 4) (a b : Byte) : decode (reqItem o a b) = .ok (decodeOp o a b) :=
  congrArg Except.ok (decodeReq_fields o a b)

/-- Settles O5: the sixteen rows of R67 are the branches of `decodeOp`, and the request word keeps its fields apart. -/
theorem operationTable : Obligations.OperationTable := fun a b =>
  ⟨rfl, rfl, rfl, rfl, rfl, rfl, rfl, rfl, rfl, rfl, rfl, rfl, rfl, rfl, rfl, rfl, fun o => decode_reqItem o a b⟩

/-! The parity bit -/

/-- An accumulator that takes the exclusive or with every bit flips once for each 1 among them. -/
theorem foldl_xor_eq : ∀ (bits : List Bool) (start : Bool),
    bits.foldl (fun par b => par ^^ b) start = (start ^^ decide (bits.count true % 2 = 1))
  | [], start => by simp
  | b :: bits, start => by
    rw [List.foldl_cons, foldl_xor_eq bits]
    rcases Nat.mod_two_eq_zero_or_one (bits.count true) with h | h <;> cases b <;> simp [h, Nat.add_mod]

theorem oddParity_eq_foldl (v : Byte) : oddParity v = (dataBits v).foldl (fun par b => par ^^ b) true :=
  List.foldl_map.symm

/-- R63: `1 ^ (popcount(v) mod 2)`. -/
theorem oddParity_eq_decide (v : Byte) : oddParity v = decide ((dataBits v).count true % 2 = 0) := by
  rw [oddParity_eq_foldl, foldl_xor_eq]
  rcases Nat.mod_two_eq_zero_or_one ((dataBits v).count true) with h | h <;> simp [h]

/-- R63: "the number of 1 bits among the 8 data bits and the parity bit is odd". -/
theorem count_dataBits_oddParity (v : Byte) : (dataBits v ++ [oddParity v]).count true % 2 = 1 := by
  rw [oddParity_eq_decide, List.count_append]
  rcases Nat.mod_two_eq_zero_or_one ((dataBits v).count true) with h | h <;> simp [h, Nat.add_mod]

/-- Settles O24: the accumulator counts the 1 bits modulo 2. -/
theorem parityLaw : Obligations.ParityLaw := fun v =>
  ⟨oddParity_eq_decide v, count_dataBits_oddParity v, oddParity_eq_foldl v, frameParity_eq_oddParity v⟩

/-! The acknowledge byte -/

/-- How SENDCMD ends on the answer `r` after `k` resends, `r` not being another `resend` (R120, R124). -/
theorem sendCommand_answered {c r : Byte} {k : Nat} {t : Bool} {resends last rest : List Levels} {s : State}
    (hresends : ResendAnswers s.params k resends) (hlast : ExchangeAnswers s.params r t last) (hr : r ≠ 0xFE)
    (hlim : ∀ n, s.params.resendLimit = some n → k ≤ n) (hs : s.wire = (resends ++ last) ++ rest) :
    ∃ u, sendCommand c s = (if r = 0xFA then .done () u else .raised .protocol u) ∧
      Emits s u (resends ++ last).length (exchangeOutputs (k + 1) c) ∧ u = s.afterAcked u c r k t rest := by
  obtain ⟨u, fuel, hu, heu, hueq⟩ := sendAcked_compare (which := .command) (x := c) hresends hlast hlim hs
  refine ⟨{ u with ackr := r }, hu.trans ?_, heu.congr rfl rfl, by rw [hueq]; rfl⟩
  by_cases hack : r = 0xFA
  · rw [if_pos hack, hack]
    exact ackCompare_ack _ u
  · rw [if_neg hack]
    exact ackCompare_other hr hack _ u

/-- Settles O25: the loop of R120 comes back to SEND after each resend, and COMPARE decides on the last answer. -/
theorem acknowledgeByteDecides : Obligations.AcknowledgeByteDecides := by
  intro s c r k t resends last rest hidle hresends hlast hr hlim hs
  obtain ⟨u, hu, heu, hueq⟩ := sendCommand_answered (c := c) (s := s.accept) hresends hlast hr hlim hs
  have hexec : exec (.sendCmd c) s = .next (conclude (sendCommand c s.accept) .command noResult) :=
    exec_idle (i := .sendCmd c) rfl hidle
  rw [hexec, hu]
  by_cases hack : r = 0xFA
  · simp only [if_pos hack, conclude_done]
    exact ⟨_, rfl, heu.congr rfl rfl, (congrArg State.succeed hueq).trans rfl⟩
  · simp only [if_neg hack, conclude_raised]
    exact ⟨_, rfl, heu.congr rfl rfl, (congrArg (State.fail .protocol) hueq).trans rfl⟩

/-! The expansions of R81 -/

/-- R25: `t` is `u`, but an operation that waits has another place in `PHASE`. -/
def State.SameButPlace (t u : State) : Prop := t = { u with phase := t.phase } ∧ (u.busy = false → t = u)

/-- `t` is `u` in the same way, but `SESSION` is `x` where the operation succeeded and otherwise still `s0`. -/
def State.SameButSession (t u : State) (x s0 : Session) : Prop :=
  t = { u with phase := t.phase, session := if u.busy = false ∧ u.ok = true then x else s0 } ∧
    (u.busy = false → t.phase = u.phase)

theorem CommandLeaves.keepsBusy {s t : State} (h : CommandLeaves s t) : t.busy = s.busy := by rw [h.1]

section
variable {r : Run CommandPhase Unit} {s : State} {K : ErrKind → Prop} (h : r.Stays (CommandLeaves s.accept) K)
include h

/-- A Device Session operation that is one command and nothing more ends as the command does (R81). -/
theorem expansion_sameButPlace (wrap : CommandPhase → SessionPhase) :
    (conclude (r.within wrap fun _ t => .done () t) .session noResult).SameButPlace (conclude r .command noResult) := by
  cases r with
  | done v t => exact ⟨rfl, fun _ => rfl⟩
  | raised k t => exact ⟨rfl, fun _ => rfl⟩
  | waiting ph t =>
    have hbusy : t.busy = true := CommandLeaves.keepsBusy h
    exact ⟨rfl, fun hb => absurd hbusy (ne_true_of_eq_false hb)⟩

/-- A Device Session operation that is one command and then writes `SESSION` differs from the command in that write, where
it succeeds, and in its place, while it waits (R81). -/
theorem expansion_sameButSession (wrap : CommandPhase → SessionPhase) (x : Session) :
    (conclude (r.within wrap fun _ t => .done () { t with session := x }) .session noResult).SameButSession
      (conclude r .command noResult) x s.session := by
  cases r with
  | done v t => exact ⟨rfl, fun _ => rfl⟩
  | raised k t =>
    have hsession : t.session = s.session := CommandLeaves.keepsSession (s := s.accept) h.1
    refine ⟨?_, fun _ => rfl⟩
    rw [← hsession]
    rfl
  | waiting ph t =>
    have hbusy : t.busy = true := CommandLeaves.keepsBusy h
    have hsession : t.session = s.session := CommandLeaves.keepsSession (s := s.accept) h
    have hkept : (if t.busy = false ∧ t.ok = true then x else s.session) = t.session := by simp [hbusy, hsession]
    exact ⟨congrArg (fun y => ({ t with phase := .session (wrap ph), session := y } : State)) hkept.symm,
      fun hb => absurd hbusy (ne_true_of_eq_false hb)⟩

end

/-- Settles O33: each pseudo-operation is the run of its command within a place of its own, and that run leaves `BUSY` and
`SESSION`. -/
theorem pseudoOperationsExpand : Obligations.PseudoOperationsExpand := by
  intro s hidle
  simp only [List.forall_mem_cons, List.not_mem_nil, false_implies, implies_true, and_true]
  refine ⟨⟨?_, ?_⟩, fun r => ⟨?_, ?_⟩, ?_, ?_⟩ <;> refine ⟨_, _, exec_idle rfl hidle, exec_idle rfl hidle, ?_⟩
  · exact expansion_sameButPlace (sendCommand_stays _ _) .setScaling
  · exact expansion_sameButPlace (sendCommand_stays _ _) .setScaling
  · exact expansion_sameButPlace (sendCommandP_stays _ _ _) .setRes
  · exact expansion_sameButPlace (sendCommandP_stays _ _ _) .setRate
  · exact expansion_sameButSession (sendCommand_stays _ _) .enStream .streaming
  · exact expansion_sameButSession (sendCommand_stays _ _) .disStream .remoteIdle

end Sys2Proof.Machine
end

section
/-! The Byte Framer (42_byte_framer.md): how SENDBYTE and RECVBYTE end on the port (R101, R103, R106 to R108), and the
loop-back of R110. -/

namespace Sys2Proof.Machine

/-! What a SENDBYTE drives -/

/-- Two accounts of what the block did from `s` to `t` name the same outputs: both read them off the trace. -/
theorem Emits.outputs_unique {s t : State} {m n : Nat} {os ps : List Event} (h : Emits s t m os) (g : Emits s t n ps) :
    os = ps := by
  obtain ⟨a, ha, rfl, -⟩ := h
  obtain ⟨b, hb, rfl, -⟩ := g
  have hab : a = b := List.append_cancel_right (ha.symm.trans hb)
  rw [hab]

/-- The drive state shows which bit is driven (R91). -/
theorem driveOf_injective : Function.Injective driveOf := by
  unfold Function.Injective
  decide

theorem setData_driveOf_injective : Function.Injective fun b => Event.set .data (driveOf b) :=
  fun _ _ h => driveOf_injective (Event.set.inj h).2

/-- R101: "the number of 1 bits among the first nine is always odd". -/
theorem count_drivenBits_take_nine (v : Byte) : ((drivenBits v).take 9).count true % 2 = 1 :=
  count_dataBits_oddParity v

/-- R110: the parity bit driven is `1 ^ (popcount(v) mod 2)`. -/
theorem drivenBits_parity (v : Byte) : (drivenBits v)[8]? = some (decide ((dataBits v).count true % 2 = 0)) :=
  congrArg some (oddParity_eq_decide v)

/-! SENDBYTE and RECVBYTE on the port -/

theorem exec_sendByte_idle (v : Byte) {s : State} (hidle : s.busy = false) :
    exec (.sendByte v) s = .next (conclude (sendByte v s.accept) .sendByte noResult) :=
  exec_idle (i := .sendByte v) rfl hidle

theorem exec_recvByte_idle {s : State} (hidle : s.busy = false) :
    exec .recvByte s = .next (conclude (recvByte s.accept) .recvByte resultByte) :=
  exec_idle (i := .recvByte) rfl hidle

/-- SENDBYTE on the port ends at its acknowledge bit: 0 is success, 1 is `Nak` (R103). -/
theorem exec_sendByte_acknowledged {s : State} {v : Byte} {a : Bool} {w rest : List Levels} (hidle : s.busy = false)
    (hw : TxAnswers s.params.waitLimit a w) (hs : s.wire = w ++ rest) :
    ∃ t, exec (.sendByte v) s = .next t ∧ Emits s t w.length (sendOutputs v) ∧
      t = (if a then State.fail .nak (s.afterSend t v a rest) else State.succeed (s.afterSend t v a rest)) := by
  obtain ⟨u, hu, heu, hueq⟩ := sendByte_done (v := v) (s := s.accept) hw hs
  rw [exec_sendByte_idle v hidle, hu]
  cases a with
  | false => exact ⟨_, rfl, heu.congr rfl rfl, (congrArg State.succeed hueq).trans rfl⟩
  | true => exact ⟨_, rfl, heu.congr rfl rfl, (congrArg (State.fail .nak) hueq).trans rfl⟩

/-- Settles O19: the frame runs to its acknowledge bit, and either end keeps the registers the frame leaves. -/
theorem sendByteResult : Obligations.SendByteResult := by
  intro s v a w rest hidle hw hs
  obtain ⟨t, hexec, hemits, ht⟩ := exec_sendByte_acknowledged (v := v) hidle hw hs
  have hregs : t.par = oddParity v ∧ t.ackbit = a ∧ t.clkDrv = .inPullup ∧ t.dataDrv = .inFloat := by
    rw [ht]
    cases a <;> exact ⟨rfl, rfl, rfl, rfl⟩
  obtain ⟨hpar, hack, hclk, hdata⟩ := hregs
  refine ⟨t, hexec, hemits, ht, hpar.trans (frameParity_eq_oddParity v).symm, hack, hclk, hdata, ?_,
    count_drivenBits_take_nine v⟩
  rw [hpar]
  rfl

/-- Settles O20: the frame is consumed whole, and the checks that are enabled then decide, parity before stop. -/
theorem recvByteResult : Obligations.RecvByteResult := by
  intro s v p t w rest hidle hw hs
  obtain ⟨u, hu, heu, hueq⟩ := recvByte_frame (s := s.accept) hw hs
  have hpar : u.par = oddParity v := by rw [hueq]; rfl
  have hrxr : u.rxr = v := by rw [hueq]; rfl
  have hparams : u.params = s.params := by rw [hueq]; rfl
  rw [exec_recvByte_idle hidle, hu, recvFinish_eq hpar hrxr, hparams]
  split_ifs
  · exact ⟨_, rfl, heu.congr rfl rfl, (congrArg (State.fail .parity) hueq).trans rfl⟩
  · exact ⟨_, rfl, heu.congr rfl rfl, (congrArg (State.fail .framing) hueq).trans rfl⟩
  · exact ⟨_, rfl, heu.congr rfl rfl, (congrArg (fun x => (resultByte v x).succeed) hueq).trans rfl⟩

/-- Settles O21: the start bit is decided on directly after its cell, before anything else is received. -/
theorem recvByteStartBitFailure : Obligations.RecvByteStartBitFailure := by
  intro s w rest hidle hw hs
  obtain ⟨u, hu, heu, hueq⟩ := recvByte_badStart (s := s.accept) hw hs
  rw [exec_recvByte_idle hidle, hu]
  exact ⟨_, rfl, heu.congr rfl rfl, (congrArg (State.fail .framing) hueq).trans rfl⟩

/-! The loop-back -/

/-- A frame with the parity bit of its byte and a stop bit of 1 is received by an idle block, whichever checks are enabled
(R107, R108). -/
theorem exec_recvByte_wellFormed {r : State} {v : Byte} {w rest : List Levels} (hidle : r.busy = false)
    (hw : RxAnswers r.params.waitLimit v (oddParity v) true w) (hs : r.wire = w ++ rest) :
    ∃ u, exec .recvByte r = .next u ∧ u.busy = false ∧ u.ok = true ∧ u.err = .none ∧ u.result = v := by
  obtain ⟨u, hrecv, -, hu⟩ := recvByteResult r v (oddParity v) true w rest hidle hw hs
  have hparityPasses : ¬ (r.params.checkParity = true ∧ oddParity v ≠ oddParity v) := fun h => h.2 rfl
  have hstopPasses : ¬ (r.params.checkStop = true ∧ true = false) := fun h => nomatch h.2
  rw [if_neg hparityPasses, if_neg hstopPasses] at hu
  refine ⟨u, hrecv, ?_⟩
  rw [hu]
  exact ⟨rfl, rfl, rfl, rfl⟩

/-- Settles O22: the outputs of the SENDBYTE fix the bits, and these are a well-formed frame. -/
theorem loopBack : Obligations.LoopBack := by
  intro s t r v a bits w rest x more hidle hw hs hexec hdrove hr hx hwire
  obtain ⟨t', hexec', hsent, -⟩ := exec_sendByte_acknowledged (v := v) hidle hw hs
  obtain rfl : t = t' := Host.Outcome.next.inj (hexec.symm.trans hexec')
  have houtputs := List.append_cancel_left (List.append_cancel_right (hdrove.outputs_unique hsent))
  obtain rfl : bits = drivenBits v := setData_driveOf_injective.list_map houtputs
  exact ⟨exec_recvByte_wellFormed hr hx hwire, drivenBits_parity v⟩

end Sys2Proof.Machine
end

section
/-! The Command Protocol (43_command_protocol.md): the resends before a transmission, and how a byte that is not acknowledged
on the line ends SENDACKED and SENDCMD (R123, R125). -/

namespace Sys2Proof.Machine

/-- The registers as a SENDACKED(`x`) has them in its state SEND after `k` resends (R120), `rest` being left on the wire; what
the exchanges write besides is taken from `a`. -/
def State.afterResends (s a : State) (x : Byte) (k : Nat) (rest : List Levels) : State :=
  { s with cmdr := x, retry := k, ackr := a.ackr, txr := a.txr, ackbit := a.ackbit, rxr := a.rxr, par := a.par
           bitcnt := a.bitcnt, rxbit := a.rxbit, clkDrv := a.clkDrv, dataDrv := a.dataDrv, wire := rest
           trace := a.trace, waitcnt := a.waitcnt }

section
variable {which : WhichByte} {x : Byte} {k : Nat} {resends last rest : List Levels} {s : State}
  (hresends : ResendAnswers s.params k resends) (hlim : ∀ n, s.params.resendLimit = some n → k ≤ n)
include hresends hlim

/-- `k` resends within the limit bring SENDACKED(`x`) back to its state SEND, with fuel for a further transmission
(R120, R123). -/
theorem sendAcked_resends (hs : s.wire = resends ++ rest) :
    ∃ a fuel, sendAcked which x s = ackLoop (fuel + 1) which a ∧ Emits s a resends.length (exchangeOutputs k x) ∧
      a = s.afterResends a x k rest := by
  obtain ⟨a, ha, hea, haeq⟩ := ackLoop_resends (which := which) k resends { s with cmdr := x, retry := 0 } hresends hs
    (fun n hn => by simpa using hlim n hn)
  have hpaid : k ≤ s.wire.length := by
    rw [hs, List.length_append]
    exact Nat.le_add_right_of_le hresends.le_length
  have hfuel : ackFuel s = (s.wire.length - k + 1) + k := by
    rw [ackFuel]
    omega
  refine ⟨a, s.wire.length - k, ?_, hea.congr rfl rfl, haeq.trans ?_⟩
  · rw [sendAcked, hfuel, ha]
  · rw [Nat.zero_add]
    rfl

/-- R125: acknowledge bit 1 on the transmission after `k` resends raises `Nak` out of SENDACKED(`x`): that frame is the last
output, and RXR and ACKR are those of the last resend. -/
theorem sendAcked_nak (hlast : TxAnswers s.params.waitLimit true last) (hs : s.wire = (resends ++ last) ++ rest) :
    ∃ u, sendAcked which x s = .raised .nak u ∧
      Emits s u (resends ++ last).length (exchangeOutputs k x ++ sendOutputs x) ∧
      u = { s.afterSend u x true rest with cmdr := x, retry := k, rxr := u.rxr, ackr := u.ackr } := by
  obtain ⟨a, fuel, ha, hea, haeq⟩ := sendAcked_resends (which := which) (x := x) hresends hlim
    (hs.trans (List.append_assoc _ _ _))
  have hparams : a.params = s.params := by rw [haeq]; rfl
  have hcmdr : a.cmdr = x := by rw [haeq]; rfl
  have hwire : a.wire = last ++ rest := by rw [haeq]; rfl
  obtain ⟨u, hu, heu, hueq⟩ := ackLoop_nak (which := which) (s := a) (by rw [hparams]; exact hlast) hwire
  rw [hcmdr] at heu hueq
  refine ⟨u, ha.trans (hu fuel), (hea.trans heu).congr_out List.length_append.symm rfl, ?_⟩
  rw [hueq, haeq]
  rfl

end

theorem exec_sendCmd_idle (c : Byte) {s : State} (hidle : s.busy = false) :
    exec (.sendCmd c) s = .next (conclude (sendCommand c s.accept) .command noResult) :=
  exec_idle (i := .sendCmd c) rfl hidle

/-- Settles O29: the resends bring the loop back to SEND, and the `Nak` of its SENDBYTE leaves the loop before RECV-ACK. -/
theorem nakEndsTheCommand : Obligations.NakEndsTheCommand := by
  intro s c k resends last rest hidle hresends hlast hlim hs
  obtain ⟨u, hu, heu, hueq⟩ := sendAcked_nak (which := .command) (x := c) (s := s.accept) hresends hlim hlast hs
  have hregs : u.wire = rest ∧ u.cmdr = c ∧ u.retry = k ∧ u.ackbit = true := by
    rw [hueq]
    exact ⟨rfl, rfl, rfl, rfl⟩
  rw [exec_sendCmd_idle c hidle, sendCommand, hu, conclude_raised]
  exact ⟨u.fail .nak, rfl, heu.congr rfl rfl, rfl, rfl, rfl, hregs⟩

end Sys2Proof.Machine
end

section
/-! The Device Session (44_device_session.md): what every operation on the port leaves in `SESSION`, while it runs and when it
has ended (R142). -/

namespace Sys2Proof.Machine

/-! The table of R142 -/

/-- R142, when the operation has ended: `ok` says how, `before` is `SESSION` at its request. -/
def sessionAfterOp : Instr → Bool → Session → Session
  | .reset => afterReset
  | .enStream => afterEnStream
  | .disStream => afterReset
  | _ => afterNone

/-- R142, R140, while the operation runs: only a READDATA that began in `REMOTE_IDLE` shows. -/
def sessionDuringOp (i : Instr) (before : Session) : Session :=
  if i = .readData ∧ before = .remoteIdle then .remoteReading else before

theorem sessionAfterOp_eq (i : Instr) (ok : Bool) (before : Session) : sessionAfterOp i ok before =
    if i = .reset ∧ ok = true then .remoteIdle
    else if i = .enStream ∧ ok = true then .streaming
    else if i = .disStream ∧ ok = true then .remoteIdle
    else before := by
  cases i <;> simp [sessionAfterOp, afterReset, afterEnStream, afterNone]

theorem sessionDuringOp_of_ne {i : Instr} (h : i ≠ .readData) (before : Session) : sessionDuringOp i before = before :=
  if_neg fun hi => h hi.1

/-- READDATA_REMOTE runs with the value that R140 gives `SESSION` at its start. -/
theorem enterReading_session (s : State) : (enterReading s).session = sessionDuringOp .readData s.session := by
  unfold enterReading sessionDuringOp
  split <;> simp_all

/-- In streaming mode READDATA runs with `SESSION` as it was (R141). -/
theorem sessionDuringOp_of_streaming {s : State} (h : s.mode = .streaming) (i : Instr) :
    sessionDuringOp i s.session = s.session := by
  refine if_neg fun hi => ?_
  rw [State.mode, hi.2] at h
  cases h

/-! What an operation leaves in `SESSION`, in whichever way it stands -/

/-- `SESSION` is `ended t.ok` where the operation has ended, and `during` while it runs. -/
def State.SessionReads (t : State) (ended : Bool → Session) (during : Session) : Prop :=
  (t.busy = false → t.session = ended t.ok) ∧ (t.busy = true → t.session = during)

theorem SessionLeaves.keepsBusy {s t : State} (h : SessionLeaves s t) : t.busy = s.busy := by rw [h.1]

/-- A sub-operation below the Device Session leaves `SESSION` as it was (R142). -/
theorem conclude_sessionReads_kept {φ α : Type} {r : Run φ α} {wrap : φ → Phase} {out : α → State → State}
    {F : State → Prop} {K : ErrKind → Prop} {s : State} (h : r.Stays F K) (hF : ∀ t, F t → CommandLeaves s t)
    (hout : ∀ v t, (out v t).session = t.session) :
    (conclude r wrap out).SessionReads (fun _ => s.session) s.session := by
  have hkept : (conclude r wrap out).session = s.session :=
    conclude_stays (P := fun t => t.session = s.session) h (fun v t ht => (hout v t).trans (hF t ht).keepsSession)
      (fun _ t ht => (hF t ht).keepsSession) (fun _ t ht => (hF t ht).keepsSession)
  exact ⟨fun _ => hkept, fun _ => hkept⟩

/-- A Device Session operation leaves what its `SessionMeets` says: `A` where it has ended, and while it waits the value it
runs with. -/
theorem SessionMeets.sessionReads {A : Bool → Session → Session} {B : Session → Session} {s : State}
    {r : Run SessionPhase Unit} (h : SessionMeets A B s r) (hbusy : s.busy = true) (hB : B s.session = A false s.session) :
    (conclude r .session noResult).SessionReads (A · s.session) s.session := by
  refine conclude_of (P := (State.SessionReads · (A · s.session) s.session)) h (fun _ t hdone => ?_) (fun k t hraised => ?_)
    (fun ph t hwaits => ?_)
  · exact ⟨fun _ => hdone.2, nofun⟩
  · obtain ⟨-, -, hsession⟩ := hraised
    exact ⟨fun _ => hsession.trans hB, nofun⟩
  · obtain ⟨hleaves, hsession, -⟩ := hwaits
    have htbusy : t.busy = true := hleaves.keepsBusy.trans hbusy
    exact ⟨fun hended => absurd htbusy (ne_true_of_eq_false hended), fun _ => hsession⟩

/-- READDATA (R139): in streaming mode it does not write `SESSION`; in remote mode it runs with what `enterReading` wrote and
restores the value before. -/
theorem readData_sessionReads {s : State} (hbusy : s.busy = true) :
    (conclude (readData s) .session noResult).SessionReads (fun _ => s.session) (sessionDuringOp .readData s.session) := by
  unfold readData
  cases hmode : s.mode with
  | streaming =>
    rw [sessionDuringOp_of_streaming hmode]
    exact (readStream_meets s).sessionReads hbusy rfl
  | remote =>
    rw [← enterReading_session]
    exact (readRemote_meets s).sessionReads ((enterReading_leaves s).keepsBusy.trans hbusy) rfl

/-- R142 for an operation that runs on a state with `BUSY` set: each row is what its sub-block says of `SESSION`. -/
theorem portOp_sessionReads {i : Instr} (hop : i.isOperation = true) {s : State} (hbusy : s.busy = true) :
    (portOp i s).SessionReads (sessionAfterOp i · s.session) (sessionDuringOp i s.session) := by
  by_cases hread : i = .readData
  · subst hread
    exact readData_sessionReads hbusy
  · rw [sessionDuringOp_of_ne hread]
    cases i with
    | sendBit b => exact conclude_sessionReads_kept (sendBit_stays b s) (fun _ h => h.sendByte.command) fun _ _ => rfl
    | recvBit => exact conclude_sessionReads_kept (recvBit_stays s) (fun _ h => h.sendByte.command) fun _ _ => rfl
    | sendByte v => exact conclude_sessionReads_kept (sendByte_stays v s) (fun _ h => h.command) fun _ _ => rfl
    | recvByte => exact conclude_sessionReads_kept (recvByte_stays s) (fun _ h => h.command) fun _ _ => rfl
    | sendCmd c => exact conclude_sessionReads_kept (sendCommand_stays c s) (fun _ h => h) fun _ _ => rfl
    | sendCmdP c p => exact conclude_sessionReads_kept (sendCommandP_stays c p s) (fun _ h => h) fun _ _ => rfl
    | reset => exact (resetDevice_meets s).sessionReads hbusy rfl
    | enStream => exact (enStream_meets s).sessionReads hbusy rfl
    | disStream => exact (disStream_meets s).sessionReads hbusy rfl
    | setScaling flag => exact (setScaling_meets flag s).sessionReads hbusy rfl
    | setRes r => exact (setRes_meets r s).sessionReads hbusy rfl
    | setRate r => exact (setRate_meets r s).sessionReads hbusy rfl
    | getSettings => exact (getSettings_meets s).sessionReads hbusy rfl
    | readData => exact absurd rfl hread
    | decStatus => exact ⟨fun _ => rfl, nofun⟩
    | decMotion => exact ⟨fun _ => rfl, nofun⟩
    | _ => cases hop

theorem onPort_of_isOperation {i : Instr} (hop : i.isOperation = true) : i.onPort = true := by
  cases i <;> simp_all [Instr.isOperation, Instr.onPort]

/-- Settles O42: an accepted operation is `portOp`, and the table of R142 is the one it meets. -/
theorem sessionTransitionTable : Obligations.SessionTransitionTable := by
  intro i s t hop hidle _ hexec
  obtain rfl : portOp i s.accept = t :=
    Host.Outcome.next.inj ((exec_idle (onPort_of_isOperation hop) hidle).symm.trans hexec)
  have htable := portOp_sessionReads hop (s := s.accept) rfl
  exact ⟨fun hended => (htable.1 hended).trans (sessionAfterOp_eq i _ _), htable.2⟩

end Sys2Proof.Machine
end

section
/-! The displacement of 45_packet_decoder.md (R152). -/

namespace Sys2Proof.Machine

/-- R152: `d = m − 256·s`. -/
theorem displacement_eq_sub (s : Bool) (m : Byte) : displacement s m = (m.toNat : Int) - 256 * (if s then 1 else 0) := by
  cases s with
  | false => exact (Int.sub_zero _).symm
  | true => rfl

/-- R152: the nine-bit two's-complement number `{s, m}`, whose sign bit weighs -256. -/
theorem ofBool_append_toInt (s : Bool) (m : Byte) : (BitVec.ofBool s ++ m).toInt = displacement s m := by
  have hweights : (BitVec.ofBool s ++ m).toInt = 256 * (BitVec.ofBool s).toInt + m.toNat :=
    BitVec.toInt_append (x := BitVec.ofBool s)
  rw [hweights, displacement_eq_sub]
  cases s with
  | false => simp
  | true => simp; omega

/-- R151: what the register holds; two nine-bit words with the same signed value are the same word. -/
theorem displacement9_eq_append (s : Bool) (m : Byte) : displacement9 s m = BitVec.ofBool s ++ m :=
  BitVec.eq_of_toInt_eq ((displacement9_toInt s m).trans (ofBool_append_toInt s m).symm)

/-- The displacement is the signed value of a nine-bit word, hence in its range. -/
theorem displacement_bounds (s : Bool) (m : Byte) : -256 ≤ displacement s m ∧ displacement s m ≤ 255 := by
  rw [← displacement9_toInt]
  exact ⟨BitVec.le_toInt _, BitVec.toInt_le⟩

/-- Every value of the range is a displacement: its sign is `s`, its residue modulo 256 is `m`. -/
theorem displacement_ofInt {d : Int} (hlow : -256 ≤ d) (hhigh : d ≤ 255) :
    displacement (decide (d < 0)) (BitVec.ofInt 8 d) = d := by
  have hresidue : ((BitVec.ofInt 8 d).toNat : Int) = d % 256 := by
    rw [BitVec.toNat_ofInt]
    exact Int.toNat_of_nonneg (Int.emod_nonneg d (by decide))
  rw [displacement_eq_sub, hresidue]
  by_cases hneg : d < 0
  · rw [if_pos (decide_eq_true hneg)]
    omega
  · rw [if_neg (by simpa using hneg)]
    omega

/-- Settles O49: the sign bit weighs -256 in the nine-bit word, and `displacement_inj` makes the sign and magnitude of each
value the only ones. -/
theorem displacementLaw : Obligations.DisplacementLaw := by
  refine ⟨fun s m => ?_, fun d hlow hhigh => ?_, rfl, rfl, rfl, rfl, rfl, rfl⟩
  · exact ⟨displacement_eq_sub s m, displacement9_eq_append s m, displacement9_toInt s m, displacement_bounds s m⟩
  · have hd := displacement_ofInt hlow hhigh
    exact ⟨(decide (d < 0), BitVec.ofInt 8 d), hd, fun q hq => displacement_inj (hq.trans hd.symm)⟩

end Sys2Proof.Machine
end

section
/-! Reset and hazards (70_reset_and_hazards.md): a SENDACKED that has had nothing but `resend` is still running, in the
transmission after the last of them (R197). -/

namespace Sys2Proof.Machine

/-- R100 step 1: the start condition is the first four outputs of a SENDBYTE. -/
theorem sendStart_emits (v : Byte) (s : State) : Emits s (sendStart v s) 0 ((sendOutputs v).take 4) :=
  ⟨[.set .clk .inPullup, .set .data .outLow, .delay Config.inhibitUs, .set .clk .outLow], rfl, rfl, rfl⟩

/-- The registers of a SENDACKED(`x`) that has had `k` resends and waits at the first cell of its next transmission, the
answers used up: those of the start condition (R100) on those of the resends (R120); what the last exchange left in ACKR, RXR,
ACKBIT and RXBIT is taken from `u`. -/
def State.atResend (s u : State) (x : Byte) (k : Nat) : State :=
  { s with cmdr := x, retry := k, ackr := u.ackr, txr := x, ackbit := u.ackbit, rxr := u.rxr
           par := parityStep parityStart (x.getLsbD 0), bitcnt := 0, rxbit := u.rxbit, clkDrv := .inPullup
           dataDrv := .outLow, wire := [], trace := u.trace, waitcnt := 0 }

/-- `k` resends within the limit, and no further answer: SENDACKED(`x`) has begun its next transmission and waits at the first
cell (R120, R123). -/
theorem sendAcked_waits_after_resends {which : WhichByte} {x : Byte} {k : Nat} {resends : List Levels} {s : State}
    (hresends : ResendAnswers s.params k resends) (hlim : ∀ n, s.params.resendLimit = some n → k ≤ n) (hs : s.wire = resends) :
    ∃ u, sendAcked which x s = .waiting { which := which, ack := .send (.cell (.waitLow (x.getLsbD 0))) } u ∧
      Emits s u resends.length (exchangeOutputs k x ++ (sendOutputs x).take 4) ∧ u = s.atResend u x k := by
  obtain ⟨a, fuel, ha, hea, haeq⟩ := sendAcked_resends (which := which) (x := x) hresends hlim
    (hs.trans (List.append_nil resends).symm)
  have hcmdr : a.cmdr = x := by rw [haeq]; rfl
  have hwire : a.wire = [] := by rw [haeq]; rfl
  have hstarved := ackLoop_starved (which := which) (fuel := fuel + 1) hwire
  rw [hcmdr] at hstarved
  refine ⟨_, ha.trans hstarved, hea.trans ((sendStart_emits x a).congr rfl rfl), ?_⟩
  rw [haeq]
  rfl

/-- Settles O31: with no limit every count of resends is within it, so the loop is back in SEND after `k` of them. -/
theorem endlessResend : Obligations.EndlessResend := by
  intro s c k w hidle hnone hresends hs
  have hlim : ∀ n, s.params.resendLimit = some n → k ≤ n := by simp [hnone]
  obtain ⟨u, hu, heu, hueq⟩ := sendAcked_waits_after_resends (which := .command) (x := c) (s := s.accept) hresends hlim hs
  obtain ⟨hbusy, hok, herr, hretry, hcmdr, hwire⟩ :
      u.busy = true ∧ u.ok = s.ok ∧ u.err = s.err ∧ u.retry = k ∧ u.cmdr = c ∧ u.wire = [] := by
    rw [hueq]
    exact ⟨rfl, rfl, rfl, rfl, rfl, rfl⟩
  rw [exec_sendCmd_idle c hidle, sendCommand, hu, conclude_waiting]
  exact ⟨_, rfl, hbusy, hok, herr, hretry, hcmdr, hwire, rfl, heu.congr rfl rfl⟩

end Sys2Proof.Machine
end

section
/-! The words of 30_encoding.md: an encoding holds every bit of its instruction, and a word that decodes is an encoding
(R60 to R77). -/

namespace Sys2Proof.Machine

/-! The bits of a frame word, as the patterns of the opcode table spell them (R61, R62) -/

theorem reverseBits_reverseBits (v : Byte) : reverseBits (reverseBits v) = v := by
  refine BitVec.eq_of_getLsbD_eq fun k hk => ?_
  rw [reverseBits_getLsbD _ hk, reverseBits_getLsbD _ (by omega), show 7 - (7 - k) = k by omega]

section
variable (start p t a : Bool) (d : Byte)

theorem frameRxWord_fields : let w := BitVec.ofBool start ++ d ++ BitVec.ofBool p ++ BitVec.ofBool t
    w.getLsbD 10 = start ∧ w.extractLsb' 2 8 = d ∧ w.getLsbD 1 = p ∧ w.getLsbD 0 = t := by
  refine ⟨?_, ?_, ?_, ?_⟩
  · simp only [BitVec.getLsbD_append]
    simp
  · rw [BitVec.extractLsb'_append_eq_of_le (by omega), BitVec.extractLsb'_append_eq_of_le (by omega)]
    exact BitVec.extractLsb'_append_eq_right
  · simp only [BitVec.getLsbD_append]
    simp
  · simp only [BitVec.getLsbD_append]
    simp

theorem frameTxWord_fields :
    let w := BitVec.ofBool start ++ d ++ BitVec.ofBool p ++ BitVec.ofBool t ++ BitVec.ofBool a
    w.getLsbD 11 = start ∧ w.extractLsb' 3 8 = d ∧ w.getLsbD 2 = p ∧ w.getLsbD 1 = t ∧ w.getLsbD 0 = a := by
  obtain ⟨hstart, hd, hp, ht⟩ := frameRxWord_fields start p t d
  refine ⟨?_, ?_, ?_, ?_, ?_⟩
  · rw [BitVec.getLsbD_append]
    exact hstart
  · rw [BitVec.extractLsb'_append_eq_of_le (by omega)]
    exact hd
  · rw [BitVec.getLsbD_append]
    exact hp
  · rw [BitVec.getLsbD_append]
    exact ht
  · rw [BitVec.getLsbD_append]
    simp

end

/-- The bits of a byte that stands in a wider word. -/
theorem getLsbD_of_extractLsb'_eq {n low k : Nat} {x y : BitVec n} (h : x.extractLsb' low 8 = y.extractLsb' low 8)
    (hlow : low ≤ k) (hk : k < low + 8) : x.getLsbD k = y.getLsbD k := by
  have hbit := congrArg (fun b : Byte => b.getLsbD (k - low)) h
  have hin : k - low < 8 := by omega
  simpa [BitVec.getLsbD_extractLsb', hin, Nat.add_sub_cancel' hlow] using hbit

theorem frameRxWord_eta (w : BitVec 11) :
    BitVec.ofBool (w.getLsbD 10) ++ w.extractLsb' 2 8 ++ BitVec.ofBool (w.getLsbD 1) ++ BitVec.ofBool (w.getLsbD 0) = w := by
  obtain ⟨h10, hd, h1, h0⟩ := frameRxWord_fields (w.getLsbD 10) (w.getLsbD 1) (w.getLsbD 0) (w.extractLsb' 2 8)
  refine BitVec.eq_of_getLsbD_eq fun k hk => ?_
  obtain rfl | rfl | ⟨hlow, hhigh⟩ | rfl : k = 0 ∨ k = 1 ∨ (2 ≤ k ∧ k < 2 + 8) ∨ k = 10 := by omega
  · exact h0
  · exact h1
  · exact getLsbD_of_extractLsb'_eq hd hlow hhigh
  · exact h10

theorem frameTxWord_eta (w : BitVec 12) : BitVec.ofBool (w.getLsbD 11) ++ w.extractLsb' 3 8 ++ BitVec.ofBool (w.getLsbD 2)
    ++ BitVec.ofBool (w.getLsbD 1) ++ BitVec.ofBool (w.getLsbD 0) = w := by
  obtain ⟨h11, hd, h2, h1, h0⟩ :=
    frameTxWord_fields (w.getLsbD 11) (w.getLsbD 2) (w.getLsbD 1) (w.getLsbD 0) (w.extractLsb' 3 8)
  refine BitVec.eq_of_getLsbD_eq fun k hk => ?_
  obtain rfl | rfl | rfl | ⟨hlow, hhigh⟩ | rfl : k = 0 ∨ k = 1 ∨ k = 2 ∨ (3 ≤ k ∧ k < 3 + 8) ∨ k = 11 := by omega
  · exact h0
  · exact h1
  · exact h2
  · exact getLsbD_of_extractLsb'_eq hd hlow hhigh
  · exact h11

/-! Decoding an encoding -/

/-- A FRAME_TX that carries the parity bit of its byte keeps every field (R61). -/
theorem decode_encode_frameTx (v : Byte) (a : Bool) :
    decode (encode (.frameTx v (frameParity v) a)) = .ok (.frameTx v (frameParity v) a) := by
  obtain ⟨hstart, hd, hp, ht, ha⟩ := frameTxWord_fields false (frameParity v) true a (reverseBits v)
  show decodeFrameTx (BitVec.ofBool false ++ reverseBits v ++ BitVec.ofBool (frameParity v) ++ BitVec.ofBool true
    ++ BitVec.ofBool a) = _
  unfold decodeFrameTx
  rw [hstart, hd, hp, ht, ha, reverseBits_reverseBits]
  simp

/-- A FRAME_RX keeps every field (R62). -/
theorem decode_encode_frameRx (v : Byte) (p t : Bool) : decode (encode (.frameRx v p t)) = .ok (.frameRx v p t) := by
  obtain ⟨hstart, hd, hp, ht⟩ := frameRxWord_fields false p t (reverseBits v)
  show decodeFrameRx (BitVec.ofBool false ++ reverseBits v ++ BitVec.ofBool p ++ BitVec.ofBool t) = _
  unfold decodeFrameRx
  rw [hstart, hd, hp, ht, reverseBits_reverseBits]
  rfl

/-- Settles O4: a request word keeps its fields apart, a frame word keeps its bits apart, and the command and response bytes
are looked up in tables whose codes differ. -/
theorem decodeOfEncode : Obligations.DecodeOfEncode := by
  intro i hwf
  cases i with
  | frameTx v p a =>
    obtain rfl : p = frameParity v := by simpa [Instr.wf] using hwf
    exact decode_encode_frameTx v a
  | frameRx v p t => exact decode_encode_frameRx v p t
  | sendBit b =>
    rw [encode, decode_reqItem]
    cases b <;> rfl
  | setScaling flag =>
    rw [encode, decode_reqItem]
    cases flag <;> rfl
  | recvBit | sendByte _ | recvByte | sendCmd _ | sendCmdP _ _ | reset | enStream | disStream | setRes _ | setRate _
  | getSettings | readData | decStatus | decMotion => exact decode_reqItem _ _ _
  | _ => rfl

/-! The encoding of what a word decodes to -/

theorem encode_of_cmd1Rows : ∀ row ∈ cmd1Rows, row.2.wf = true ∧ encode row.2 = .cmd1 row.1 := by
  simp [cmd1Rows, Instr.wf, encode]

theorem encode_of_cmd2Rows (p : Byte) : ∀ row ∈ cmd2Rows p, row.2.wf = true ∧ encode row.2 = .cmd2 row.1 p := by
  simp [cmd2Rows, Instr.wf, encode]

theorem encode_of_respRows : ∀ row ∈ respRows, row.2.wf = true ∧ encode row.2 = .resp row.1 := by
  simp [respRows, Instr.wf, encode]

/-- A byte that a table of rows decodes is the code of the row it decodes to. -/
theorem mem_of_lookup_elim {rows : List (Byte × Instr)} {c : Byte} {e : DecodeError} {i : Instr}
    (h : (rows.lookup c).elim (.error e) .ok = (.ok i : Except DecodeError Instr)) : (c, i) ∈ rows := by
  cases hrow : rows.lookup c with
  | none => rw [hrow] at h; cases h
  | some j =>
    rw [hrow] at h
    obtain rfl : j = i := Except.ok.inj h
    obtain ⟨l₁, l₂, rfl, -⟩ := List.lookup_eq_some_iff.1 hrow
    simp

theorem wf_of_decodeOp (o : BitVec 4) (a b : Byte) : (decodeOp o a b).wf = true := by
  unfold decodeOp
  split <;> rfl

theorem encode_of_decodeFrameTx {w : BitVec 12} {i : Instr} (h : decodeFrameTx w = .ok i) :
    i.wf = true ∧ encode i = .frameTx w := by
  unfold decodeFrameTx at h
  simp only at h
  split_ifs at h with hstart hstop hparity
  obtain rfl := Except.ok.inj h
  have hw := frameTxWord_eta w
  rw [eq_false_of_ne_true hstart, show w.getLsbD 1 = true by simpa using hstop] at hw
  refine ⟨by simpa [Instr.wf] using hparity, ?_⟩
  rw [encode, reverseBits_reverseBits]
  exact congrArg Item.frameTx hw

theorem encode_of_decodeFrameRx {w : BitVec 11} {i : Instr} (h : decodeFrameRx w = .ok i) :
    i.wf = true ∧ encode i = .frameRx w := by
  unfold decodeFrameRx at h
  split_ifs at h with hstart
  obtain rfl := Except.ok.inj h
  have hw := frameRxWord_eta w
  rw [eq_false_of_ne_true hstart] at hw
  refine ⟨rfl, ?_⟩
  rw [encode, reverseBits_reverseBits]
  exact congrArg Item.frameRx hw

/-- Settles O6: each format decodes by a table of rows or by the bits of a frame, and either can be read backwards. -/
theorem encodeOfDecode : Obligations.EncodeOfDecode := by
  intro it i h
  suffices i.wf = true ∧ (it.isRequest = true ∨ encode i = it) from
    ⟨this.1, fun hreq => this.2.resolve_left (by simp [hreq])⟩
  cases it with
  | req w =>
    obtain rfl := Except.ok.inj h
    exact ⟨wf_of_decodeOp _ _ _, .inl rfl⟩
  | cmd1 c => exact (encode_of_cmd1Rows _ (mem_of_lookup_elim h)).imp_right .inr
  | cmd2 c p => exact (encode_of_cmd2Rows p _ (mem_of_lookup_elim h)).imp_right .inr
  | resp v => exact (encode_of_respRows _ (mem_of_lookup_elim h)).imp_right .inr
  | frameTx w => exact (encode_of_decodeFrameTx h).imp_right .inr
  | frameRx w => exact (encode_of_decodeFrameRx h).imp_right .inr
  | status b0 b1 b2 =>
    obtain rfl := Except.ok.inj h
    exact ⟨rfl, .inr rfl⟩
  | motion b0 b1 b2 =>
    obtain rfl := Except.ok.inj h
    exact ⟨rfl, .inr rfl⟩

/-- Settles O3: each word is cut into the fields that the tables of 30_encoding.md give it. -/
theorem wordsOfTheEncodingsDecode : Obligations.WordsOfTheEncodingsDecode := 
  ⟨rfl, rfl, rfl, rfl, rfl, rfl, rfl, rfl, rfl, rfl, rfl, rfl, rfl⟩

end Sys2Proof.Machine
end

section
/-! One step (20_memory.md section 5): what a presented word runs, in the table or not, and what happens with nothing presented
(R25, R66, R72, R106); and the state that construction leaves (R190). -/

namespace Sys2Proof.Machine

/-! With a word presented -/

section
variable {s : State} {it : Item} {rest : List Item} (hin : s.inbox = it :: rest)
include hin

theorem step_of_decode_ok {i : Instr} (h : decode it = .ok i) : step s = exec i { s with inbox := rest } := by
  unfold step State.nextItem
  rw [hin]
  simp only [h]

theorem step_of_decode_error {e : DecodeError} (h : decode it = .error e) :
    step s = execOutsideTable e { s with inbox := rest } := by
  unfold step State.nextItem
  rw [hin]
  simp only [h]

/-- A word looked up in a table of rows runs its row, or what the rules give a word outside the table; where these are the same
function `run` of its code, so is the step. -/
theorem step_of_lookup {rows : List (Byte × Instr)} {c : Byte} {e : DecodeError}
    {run : Byte → State → Host.Outcome State Fault Refusal} (hdecode : decode it = (rows.lookup c).elim (.error e) .ok)
    (hrows : ∀ row ∈ rows, exec row.2 = run row.1) (houtside : execOutsideTable e = run c) :
    step s = run c { s with inbox := rest } := by
  cases hrow : rows.lookup c with
  | none =>
    rw [hrow] at hdecode
    rw [step_of_decode_error hin hdecode, houtside]
  | some i =>
    rw [hrow] at hdecode
    have hmem : (c, i) ∈ rows := mem_of_lookup_elim (e := e) (by rw [hrow]; rfl)
    rw [step_of_decode_ok hin hdecode, hrows _ hmem]

end

theorem exec_of_cmd1Rows : ∀ row ∈ cmd1Rows, exec row.2 = exec (.sendCmd row.1) := by
  simp only [cmd1Rows, List.forall_mem_cons, List.not_mem_nil, false_implies, implies_true, and_true]
  exact ⟨rfl, rfl, rfl, rfl, rfl, rfl, rfl, rfl, rfl⟩

theorem exec_of_cmd2Rows (p : Byte) : ∀ row ∈ cmd2Rows p, exec row.2 = exec (.sendCmdP row.1 p) := by
  simp only [cmd2Rows, List.forall_mem_cons, List.not_mem_nil, false_implies, implies_true, and_true]
  exact ⟨rfl, rfl⟩

theorem exec_of_respRows : ∀ row ∈ respRows, exec row.2 = exec (.frameRx row.1 (oddParity row.1) true) := by
  simp only [respRows, List.forall_mem_cons, List.not_mem_nil, false_implies, implies_true, and_true]
  exact ⟨rfl, rfl, rfl, rfl, rfl⟩

/-- A frame that the block never sends changes nothing (R61, log 29). -/
theorem execOutsideTable_of_decodeFrameTx {w : BitVec 12} {e : DecodeError} (h : decodeFrameTx w = .error e) (s : State) :
    execOutsideTable e s = .next s := by
  unfold decodeFrameTx at h
  simp only at h
  split_ifs at h <;> cases h <;> rfl

/-- Settles O1: the rows of each table run what the rules give a word outside it, so the step need not know whether there is
a row. -/
theorem stepRunsTheDecodedInstruction : Obligations.StepRunsTheDecodedInstruction := by
  intro s it rest hin
  refine ⟨fun i h => step_of_decode_ok hin h, ?_, ?_, ?_, ?_, ?_⟩
  · rintro c rfl
    exact step_of_lookup (run := fun c => exec (.sendCmd c)) hin rfl exec_of_cmd1Rows rfl
  · rintro c p rfl
    exact step_of_lookup (run := fun c => exec (.sendCmdP c p)) hin rfl (exec_of_cmd2Rows p) rfl
  · rintro v rfl
    exact step_of_lookup (run := fun v => exec (.frameRx v (oddParity v) true)) hin rfl exec_of_respRows rfl
  · rintro w rfl
    exact step_frameRx hin
  · rintro w rfl hno
    cases hw : decode (.frameTx w) with
    | ok i => exact absurd hw (hno i)
    | error e => exact (step_of_decode_error hin hw).trans (execOutsideTable_of_decodeFrameTx hw _)

/-! With nothing presented -/

theorem step_of_nothing {s : State} (hin : s.inbox = []) :
    step s = if s.busy then (if s.phase = .idle then .fault .phaseLost else .next (resume s.answered)) else .next s := by
  unfold step State.nextItem
  rw [hin]

theorem State.answered_of_wire {s : State} {l : Levels} {ls : List Levels} (h : s.wire = l :: ls) : s.answered = s := by
  unfold State.answered
  rw [h]

theorem State.answered_of_nil {s : State} (h : s.wire = []) :
    ∃ l, s.answered = { s with wire := [l], draws := s.draws + 2 } := by
  unfold State.answered
  rw [h]
  exact ⟨_, rfl⟩

/-- Settles O2: the branches of `step` on an empty inbox, and those of `State.answered`. -/
theorem stepWithNothingPresented : Obligations.StepWithNothingPresented := by
  intro s hin
  rw [step_of_nothing hin]
  refine ⟨fun hb => by simp [hb], fun hb hp => by simp [hb, hp], fun hb hp => by simp [hb, hp],
    fun _ _ => State.answered_of_wire, State.answered_of_nil⟩

/-! After construction -/

/-- Settles O7: `State.construct` writes each of these fields. -/
theorem resetRegisters : Obligations.ResetRegisters :=
  ⟨fun _ => ⟨rfl, rfl, rfl, rfl, rfl, rfl, rfl, rfl, rfl, rfl⟩, rfl⟩

/-- An idle block without a failure that has stored nothing meets the invariant under any admissible parameters (R7, R190). -/
theorem construct_inv {p : Params} (hp : p.wf) : (State.construct p).Inv where
  busy_iff := ⟨nofun, fun h => absurd rfl h⟩
  err_of_ok := fun _ => rfl
  err_kind := ⟨nofun, nofun, nofun⟩
  reading := (nofun : Session.uninit ≠ .remoteReading)
  buffer := rfl
  pins := hp

/-- Settles O8: the reference parameters are admissible. -/
theorem constructionMeetsInv : Obligations.ConstructionMeetsInv :=
  ⟨construct_inv (by decide), fun _ hp => construct_inv hp⟩

end Sys2Proof.Machine
end

section
/-! How an operation stands that was requested on the port or goes on (R24, R25, R66, R172): said once for all of them, and what
follows for `exec`, `resume` and `step`. -/

namespace Sys2Proof.Machine

/-! What is requested on the port -/

/-- A command byte runs as SENDCMD or SENDCMDP of it does (log 11): what is requested on the port is an operation of R67. -/
theorem portOp_eq_operation {i : Instr} (h : i.onPort = true) : ∃ j : Instr, j.isOperation = true ∧ portOp i = portOp j := by
  by_cases hop : i.isOperation = true
  · exact ⟨i, hop, rfl⟩
  cases i with
  | cmdSetResolution p | cmdSetSampleRate p => exact ⟨.sendCmdP _ p, rfl, rfl⟩
  | cmdDisableScaling | cmdEnableScaling | cmdStatusRequest | cmdSetStreamMode | cmdReadData | cmdReset | cmdSetRemoteMode
  | cmdEnableDataReporting | cmdDisableDataReporting => exact ⟨.sendCmd _, rfl, rfl⟩
  | _ => simp_all [Instr.onPort, Instr.isOperation]

/-! How an operation stands -/

/-- How an operation that ran from `s` stands: it has succeeded, and RESULT may be written; it has failed; or it waits. The
result registers are as before but in the first case (R24, R25, R52, R172). -/
inductive Stands (s : State) : State → Prop
  | succeeded (u : State) (r : Byte) (leaves : SessionLeaves s u) : Stands s (State.succeed { u with result := r })
  | failed (u : State) (k : ErrKind) (leaves : SessionLeaves s u) (st : u.st = s.st) (mv : u.mv = s.mv)
      (kind : SessionKind s.params k) : Stands s (u.fail k)
  | waits (u : State) (ph : Phase) (leaves : SessionLeaves s u) (st : u.st = s.st) (mv : u.mv = s.mv) (place : ph ≠ .idle) :
      Stands s (u.hold ph)

/-- A run below the Device Session. -/
theorem Stands.of_command {φ α : Type} {r : Run φ α} {wrap : φ → Phase} {out : α → State → State} {s : State}
    {F : State → Prop} {K : ErrKind → Prop} (h : r.Stays F K) (hF : ∀ t, F t → CommandLeaves s t)
    (hK : ∀ k, K k → CommandKind s.params k) (hwrap : ∀ ph, wrap ph ≠ .idle)
    (hout : ∀ v t, ∃ b, out v t = { t with result := b }) : Stands s (conclude r wrap out) := by
  have hst : ∀ t, F t → t.st = s.st := fun t ht => by rw [(hF t ht).1]
  have hmv : ∀ t, F t → t.mv = s.mv := fun t ht => by rw [(hF t ht).1]
  cases r with
  | done v t =>
    obtain ⟨b, hb⟩ := hout v t
    rw [conclude_done, hb]
    exact .succeeded t b (hF t h).session
  | raised k t => exact .failed t k (hF t h.1).session (hst t h.1) (hmv t h.1) (.inr (hK k h.2))
  | waiting ph t => exact .waits t (wrap ph) (hF t h).session (hst t h) (hmv t h) (hwrap ph)

/-- A run of the Device Session. -/
theorem Stands.of_session {r : Run SessionPhase Unit} {s : State} (h : r.Stays (SessionLeaves s) (SessionKind s.params))
    (hk : ResultsKept s r) : Stands s (conclude r .session noResult) := by
  cases r with
  | done v t => exact .succeeded t t.result h
  | raised k t => exact .failed t k h.1 hk.1 hk.2 h.2
  | waiting ph t => exact .waits t (.session ph) h hk.1 hk.2 nofun

theorem noResult_result {α : Type} (v : α) (t : State) : ∃ b, noResult v t = { t with result := b } := ⟨t.result, rfl⟩

theorem WaitKind.command {p : Params} {k : ErrKind} (h : WaitKind p k) : CommandKind p k := .inr (.inr (.inl (.inr h)))

theorem SendByteKind.command {p : Params} {k : ErrKind} (h : SendByteKind p k) : CommandKind p k := .inr (.inr (.inl h))

theorem RecvByteKind.command {p : Params} {k : ErrKind} (h : RecvByteKind p k) : CommandKind p k := .inr (.inr (.inr h))

theorem SendBitLeaves.command {s t : State} (h : SendBitLeaves s t) : CommandLeaves s t := h.sendByte.command

theorem RecvBitLeaves.command {s t : State} (h : RecvBitLeaves s t) : CommandLeaves s t := h.sendByte.command

/-- How an operation that is not of the Packet Decoder stands once it has run over the answers at hand. -/
theorem portOp_stands {i : Instr} (hop : i.isOperation = true) (hstatus : i ≠ .decStatus) (hmotion : i ≠ .decMotion)
    (s : State) : Stands s (portOp i s) := by
  cases i with
  | sendBit b =>
    exact .of_command (sendBit_stays b s) (fun _ h => h.command) (fun _ h => h.command) (fun _ => nofun) noResult_result
  | recvBit =>
    exact .of_command (recvBit_stays s) (fun _ h => h.command) (fun _ h => h.command) (fun _ => nofun) fun _ _ => ⟨_, rfl⟩
  | sendByte v =>
    exact .of_command (sendByte_stays v s) (fun _ h => h.command) (fun _ h => h.command) (fun _ => nofun) noResult_result
  | recvByte =>
    exact .of_command (recvByte_stays s) (fun _ h => h.command) (fun _ h => h.command) (fun _ => nofun) fun _ _ => ⟨_, rfl⟩
  | sendCmd c =>
    exact .of_command (sendCommand_stays c s) (fun _ h => h) (fun _ h => h) (fun _ => nofun) noResult_result
  | sendCmdP c p =>
    exact .of_command (sendCommandP_stays c p s) (fun _ h => h) (fun _ h => h) (fun _ => nofun) noResult_result
  | reset => exact .of_session (resetDevice_meets s).stays (resetDevice_resultsKept s)
  | enStream => exact .of_session (enStream_meets s).stays (.ofCommand (sendCommand_stays _ _) fun _ => .done _ _)
  | disStream => exact .of_session (disStream_meets s).stays (.ofCommand (sendCommand_stays _ _) fun _ => .done _ _)
  | setScaling flag =>
    exact .of_session (setScaling_meets flag s).stays (.ofCommand (sendCommand_stays _ _) fun _ => .done _ _)
  | setRes r => exact .of_session (setRes_meets r s).stays (.ofCommand (sendCommandP_stays _ _ _) fun _ => .done _ _)
  | setRate r => exact .of_session (setRate_meets r s).stays (.ofCommand (sendCommandP_stays _ _ _) fun _ => .done _ _)
  | getSettings => exact .of_session (getSettings_meets s).stays (getSettings_resultsKept s)
  | readData => exact .of_session (readData_stays s) (readData_resultsKept s)
  | decStatus => exact absurd rfl hstatus
  | decMotion => exact absurd rfl hmotion
  | _ => cases hop

/-- How an operation stands that goes on (R25). -/
theorem resume_stands {s : State} (hp : s.phase ≠ .idle) : Stands s.goOn (resume s) := by
  cases h : s.phase with
  | idle => exact absurd h hp
  | sendBit p =>
    rw [resume_sendBit h]
    exact .of_command (resumeSendBit_stays p _) (fun _ h => h.command) (fun _ h => h.command) (fun _ => nofun) noResult_result
  | recvBit p =>
    rw [resume_recvBit h]
    exact .of_command (resumeRecvBit_stays p _) (fun _ h => h.command) (fun _ h => h.command) (fun _ => nofun)
      fun _ _ => ⟨_, rfl⟩
  | sendByte p =>
    rw [resume_sendByte h]
    exact .of_command (resumeSendByte_stays p _) (fun _ h => h.command) (fun _ h => h.command) (fun _ => nofun) noResult_result
  | recvByte p =>
    rw [resume_recvByte h]
    exact .of_command (resumeRecvByte_stays p _) (fun _ h => h.command) (fun _ h => h.command) (fun _ => nofun)
      fun _ _ => ⟨_, rfl⟩
  | command p =>
    rw [resume_command h]
    exact .of_command (resumeCommand_stays p _) (fun _ h => h) (fun _ h => h) (fun _ => nofun) noResult_result
  | session p =>
    rw [resume_session h]
    exact .of_session (resumeSession_meets p _).stays (resumeSession_resultsKept p _)

/-! What that says -/

section
variable {s t : State}

theorem Stands.params (h : Stands s t) : t.params = s.params := by
  cases h with
  | succeeded u r hu => exact hu.params
  | failed u k hu => exact hu.params
  | waits u ph hu => exact hu.params

theorem Stands.inbox (h : Stands s t) : t.inbox = s.inbox := by
  have hkept : ∀ u, SessionLeaves s u → u.inbox = s.inbox := fun u hu => by rw [hu.1]
  cases h with
  | succeeded u r hu => exact hkept u hu
  | failed u k hu => exact hkept u hu
  | waits u ph hu => exact hkept u hu

theorem Stands.draws (h : Stands s t) : t.draws = s.draws := by
  have hkept : ∀ u, SessionLeaves s u → u.draws = s.draws := fun u hu => by rw [hu.1]
  cases h with
  | succeeded u r hu => exact hkept u hu
  | failed u k hu => exact hkept u hu
  | waits u ph hu => exact hkept u hu

theorem Stands.grows (h : Stands s t) : Grows s t := by
  cases h with
  | succeeded u r hu => exact (hu.2.1.resultByte r).succeed
  | failed u k hu => exact hu.2.1.fail k
  | waits u ph hu => exact hu.2.1.hold ph

/-- While an operation runs, OK, ERR, RESULT and the result registers are as before it (R52). -/
theorem Stands.results_of_busy (h : Stands s t) (hbusy : t.busy = true) :
    t.ok = s.ok ∧ t.err = s.err ∧ t.result = s.result ∧ t.st = s.st ∧ t.mv = s.mv := by
  cases h with
  | succeeded u r hu => cases hbusy
  | failed u k hu => cases hbusy
  | waits u ph hu hst hmv =>
    obtain ⟨hu, -⟩ := hu
    exact ⟨by rw [hu]; rfl, by rw [hu]; rfl, by rw [hu]; rfl, hst, hmv⟩

/-- An operation that has ended with a failure has left the results, and names a kind of failure (R172). -/
theorem Stands.results_of_failed (h : Stands s t) (hrunning : s.busy = true) (hended : t.busy = false) (hok : t.ok = false) :
    t.st = s.st ∧ t.mv = s.mv ∧ t.result = s.result ∧ KindFits s.params t.err := by
  cases h with
  | succeeded u r hu => cases hok
  | failed u k hu hst hmv hk => exact ⟨hst, hmv, by rw [hu.1]; rfl, hk.fits⟩
  | waits u ph hu =>
    have : u.busy = true := by rw [hu.1]; exact hrunning
    exact absurd this (ne_true_of_eq_false hended)

end

/-! `portOp` and `resume` in every state -/

theorem portOp_params {i : Instr} (h : i.onPort = true) (s : State) : (portOp i s).params = s.params := by
  obtain ⟨j, hop, hj⟩ := portOp_eq_operation h
  rw [hj]
  by_cases hstatus : j = .decStatus
  · subst hstatus; rfl
  by_cases hmotion : j = .decMotion
  · subst hmotion; rfl
  exact (portOp_stands hop hstatus hmotion s).params

/-- What an operation does shows in the trace (R6). -/
theorem portOp_grows {i : Instr} (h : i.onPort = true) (s : State) : Grows s (portOp i s) := by
  obtain ⟨j, hop, hj⟩ := portOp_eq_operation h
  rw [hj]
  by_cases hstatus : j = .decStatus
  · subst hstatus; exact .same rfl rfl rfl rfl
  by_cases hmotion : j = .decMotion
  · subst hmotion; exact .same rfl rfl rfl rfl
  exact (portOp_stands hop hstatus hmotion s).grows

/-- Only the end of an operation writes the results (R52). -/
theorem portOp_results_of_busy {i : Instr} (h : i.onPort = true) {s : State} (hbusy : (portOp i s).busy = true) :
    (portOp i s).ok = s.ok ∧ (portOp i s).err = s.err ∧ (portOp i s).result = s.result ∧ (portOp i s).st = s.st ∧
      (portOp i s).mv = s.mv := by
  obtain ⟨j, hop, hj⟩ := portOp_eq_operation h
  rw [hj] at hbusy ⊢
  by_cases hstatus : j = .decStatus
  · subst hstatus; cases hbusy
  by_cases hmotion : j = .decMotion
  · subst hmotion; cases hbusy
  exact (portOp_stands hop hstatus hmotion s).results_of_busy hbusy

theorem resume_params (s : State) : (resume s).params = s.params := by
  by_cases hp : s.phase = .idle
  · rw [resume_idle hp]
  · exact (resume_stands hp).params

theorem resume_grows (s : State) : Grows s (resume s) := by
  by_cases hp : s.phase = .idle
  · rw [resume_idle hp]; exact Grows.refl s
  · exact (resume_stands hp).grows.congr rfl rfl rfl rfl rfl rfl rfl rfl

theorem resume_results_of_busy {s : State} (hbusy : (resume s).busy = true) :
    (resume s).ok = s.ok ∧ (resume s).err = s.err ∧ (resume s).result = s.result ∧ (resume s).st = s.st ∧
      (resume s).mv = s.mv := by
  by_cases hp : s.phase = .idle
  · rw [resume_idle hp]
    exact ⟨rfl, rfl, rfl, rfl, rfl⟩
  · exact (resume_stands hp).results_of_busy hbusy

/-! The obligations on every step -/

/-- Settles O50: the strobe is answered by `request`. -/
theorem requestsWhileBusyAreIgnored : Obligations.RequestsWhileBusyAreIgnored := fun _ _ h => exec_busy h

/-- Settles O51: what the device sends is delivered to a busy block only. -/
theorem idleBlockLosesWhatTheDeviceSends : Obligations.IdleBlockLosesWhatTheDeviceSends := by
  intro i s hdev hidle
  rw [exec_fromDevice hdev, deliver, if_neg (ne_true_of_eq_false hidle)]

/-- Settles O12: an ignored request takes no answer, an accepted one and one that goes on take what their reads show. -/
theorem answersAreTakenInOrder : Obligations.AnswersAreTakenInOrder := by
  refine ⟨fun i s t hport hexec => ?_, resume_grows⟩
  cases hb : s.busy with
  | true =>
    obtain rfl := Host.Outcome.next.inj ((exec_busy hport hb).symm.trans hexec)
    exact Grows.refl s
  | false =>
    obtain rfl := Host.Outcome.next.inj ((exec_idle hport hb).symm.trans hexec)
    exact (portOp_grows hport s.accept).accept

/-- The parameters stay, and the drive registers follow the `PinSet`s among the events added; of the answers at hand nothing
is said. -/
def FollowsPins (s t : State) : Prop :=
  t.params = s.params ∧
    ∃ es, t.trace = es ++ s.trace ∧ t.clkDrv = driveAfter .clk es s.clkDrv ∧ t.dataDrv = driveAfter .data es s.dataDrv

theorem Grows.followsPins {s t : State} (h : Grows s t) (hp : t.params = s.params) : FollowsPins s t := by
  obtain ⟨es, _, htrace, -, -, hclk, hdata⟩ := h
  exact ⟨hp, es, htrace, hclk, hdata⟩

theorem resume_followsPins (s : State) : FollowsPins s (resume s) := (resume_grows s).followsPins (resume_params s)

/-- Settles O11: whatever a step runs, it grows the trace from a state that differs in inputs and BUSY only. -/
theorem drivesFollowThePinSets : Obligations.DrivesFollowThePinSets := fun _ _ hstep =>
  step_induction (P := FollowsPins) (fun s => (Grows.refl s).followsPins rfl)
    (fun _ s hport _ => (portOp_grows hport s.accept).followsPins (portOp_params hport _))
    (fun s w _ => resume_followsPins { s with wire := s.wire ++ w })
    (fun s l d _ => resume_followsPins { s with wire := [l], draws := d })
    (fun s v w _ => (portOp_grows (i := .sendByte v) rfl ({ s with wire := s.wire ++ w } : State).accept).followsPins
      (portOp_params (i := .sendByte v) rfl _))
    (fun _ _ _ h => h) hstep

/-- OK, ERR, RESULT and the result registers are as before, unless the operation has ended. -/
def WritesAtTheEnd (s t : State) : Prop :=
  t.busy = true → t.ok = s.ok ∧ t.err = s.err ∧ t.result = s.result ∧ t.st = s.st ∧ t.mv = s.mv

/-- Settles O59: an operation that waits has not written them. -/
theorem resultsAreWrittenAtTheEnd : Obligations.ResultsAreWrittenAtTheEnd := fun _ _ hstep =>
  step_induction (P := WritesAtTheEnd) (fun _ _ => ⟨rfl, rfl, rfl, rfl, rfl⟩)
    (fun _ s hport _ => portOp_results_of_busy (s := s.accept) hport)
    (fun s w _ => resume_results_of_busy (s := { s with wire := s.wire ++ w }))
    (fun s l d _ => resume_results_of_busy (s := { s with wire := [l], draws := d }))
    (fun s v w _ => portOp_results_of_busy (i := .sendByte v) (s := ({ s with wire := s.wire ++ w } : State).accept) rfl)
    (fun _ _ _ h => h) hstep

/-! Every instruction has a meaning -/

theorem exec_frameTx_next (v : Byte) (p a : Bool) (s : State) : ∃ t, execFrameTx v p a s = .next t := by
  unfold execFrameTx
  split_ifs with hpar hbusy hoffer
  · exact ⟨_, rfl⟩
  · exact ⟨_, rfl⟩
  · exact ⟨_, rfl⟩
  · exact ⟨_, request_idle (by simpa using hbusy)⟩

theorem exec_next (i : Instr) (s : State) : ∃ t, exec i s = .next t := by
  by_cases hport : i.onPort = true
  · cases hb : s.busy with
    | true => exact ⟨_, exec_busy hport hb⟩
    | false => exact ⟨_, exec_idle hport hb⟩
  by_cases hdev : i.fromDevice = true
  · exact ⟨_, exec_fromDevice hdev s⟩
  cases i with
  | frameTx v p a => exact exec_frameTx_next v p a s
  | _ => simp_all [Instr.onPort, Instr.fromDevice]

theorem execOutsideTable_next (e : DecodeError) (s : State) : ∃ t, execOutsideTable e s = .next t := by
  obtain ⟨i, hi⟩ | ⟨ls, hls⟩ | hsame := execOutsideTable_cases e s
  · exact hi ▸ exec_next i s
  · exact ⟨_, hls⟩
  · exact ⟨_, hsame⟩

/-- Settles O60: the one stop of `step` needs BUSY = 1 with an empty PHASE, which the invariant rules out. -/
theorem everyStepAnswersANextState : Obligations.EveryStepAnswersANextState := by
  refine ⟨exec_next, fun s hinv => ?_⟩
  cases hin : s.inbox with
  | nil =>
    rw [step_of_nothing hin]
    split_ifs with hbusy hidle
    · exact absurd hidle (hinv.busy_iff.1 hbusy)
    · exact ⟨_, rfl⟩
    · exact ⟨_, rfl⟩
  | cons it rest =>
    cases hdec : decode it with
    | ok i => exact step_of_decode_ok hin hdec ▸ exec_next i _
    | error e => exact step_of_decode_error hin hdec ▸ execOutsideTable_next e _

end Sys2Proof.Machine
end

section
/-! What every step keeps (R25, R130, R140, R170, R191), and that the answers may come in portions (R25, R6). -/

namespace Sys2Proof.Machine

/-! The invariant, for a request -/

/-- A remote READDATA that begins at an idle block has `SESSION` as its phase says (R140). -/
theorem readingOk_of_enterReading {s : State} (hreading : s.session ≠ .remoteReading) (hstreaming : s.session ≠ .streaming)
    {ph : SessionPhase} (h : ph.sessionAfter = afterRead s.session) :
    ({ enterReading s with phase := .session ph } : State).readingOk := by
  have hfrom : (Phase.session ph).readingFrom = some s.session := by
    rw [readingFrom_of_sessionAfter, h]
    exact if_pos rfl
  simp only [State.readingOk, hfrom, enterReading]
  cases hs : s.session with
  | uninit => simp [hs]
  | remoteIdle => simp
  | remoteReading => exact hreading hs
  | streaming => exact hstreaming hs

theorem RunningInv.enterReading {s : State} (hi : RunningInv s) : RunningInv (enterReading s) := by
  unfold Machine.enterReading
  split
  · exact ⟨hi.pins, hi.buffer, hi.err_of_ok, hi.err_kind, hi.busy⟩
  · exact hi

section
variable {s : State} (hi : RunningInv s) (hs : s.session ≠ .remoteReading)
include hi hs

/-- An operation below the Device Session. -/
theorem inv_of_command {φ α : Type} {r : Run φ α} {wrap : φ → Phase} {out : α → State → State} {F : State → Prop}
    {K : ErrKind → Prop} (h : r.Stays F K) (hF : ∀ t, F t → CommandLeaves s t) (hK : ∀ k, K k → CommandKind s.params k)
    (hwrap : ∀ ph, wrap ph ≠ .idle ∧ (wrap ph).readingFrom = none) (hout : ∀ v t, KeepsInv s t → KeepsInv s (out v t)) :
    (conclude r wrap out).Inv :=
  inv_conclude hi hs (h.mono (fun t ht => (hF t ht).keepsInv) hK) (fun _ hk => CommandKind.fits hk) hout hwrap

/-- A Device Session operation other than a remote READDATA. -/
theorem inv_of_session {A : Bool → Session → Session} {r : Run SessionPhase Unit}
    (hA : A = afterNone ∨ A = afterReset ∨ A = afterEnStream) (h : SessionMeets A id s r) :
    (conclude r .session noResult).Inv := by
  refine inv_conclude_session hi h ?_ hs fun ph => readingOk_other hA s hs ph
  rcases hA with rfl | rfl | rfl
  · exact hs
  · exact nofun
  · exact nofun

theorem inv_of_readData : (conclude (readData s) .session noResult).Inv := by
  unfold readData
  cases hm : s.mode with
  | streaming => exact inv_of_session hi hs (.inl rfl) (readStream_meets s)
  | remote =>
    have hstreaming : s.session ≠ .streaming := fun h => by
      rw [State.mode, h] at hm
      cases hm
    exact inv_conclude_session hi.enterReading (readRemote_meets s) hs hs fun ph =>
      readingOk_of_enterReading hs hstreaming

/-- An accepted operation leaves the invariant, in whichever way it stands. -/
theorem portOp_inv {i : Instr} (hop : i.isOperation = true) : (portOp i s).Inv := by
  have hnone : ∀ v t, KeepsInv s t → KeepsInv s (noResult (α := Unit) v t) := fun _ _ h => h
  have hcalm : ∀ {t : State}, t = { s with st := t.st, mv := t.mv, draws := t.draws } → t.succeed.Inv := fun {t} ht =>
    { busy_iff := by simp
      err_of_ok := fun _ => rfl
      err_kind := ⟨nofun, nofun, nofun⟩
      reading := by rw [ht]; exact hs
      buffer := by rw [ht]; exact hi.buffer
      pins := by rw [ht]; exact hi.pins }
  cases i with
  | sendBit b =>
    exact inv_of_command hi hs (sendBit_stays b s) (fun _ h => h.command) (fun _ h => h.command) (fun _ => ⟨nofun, rfl⟩) hnone
  | recvBit =>
    exact inv_of_command hi hs (recvBit_stays s) (fun _ h => h.command) (fun _ h => h.command) (fun _ => ⟨nofun, rfl⟩)
      fun _ _ h => ⟨h.params, h.busy, h.ok, h.err, h.buffer, h.session⟩
  | sendByte v =>
    exact inv_of_command hi hs (sendByte_stays v s) (fun _ h => h.command) (fun _ h => h.command) (fun _ => ⟨nofun, rfl⟩) hnone
  | recvByte =>
    exact inv_of_command hi hs (recvByte_stays s) (fun _ h => h.command) (fun _ h => h.command) (fun _ => ⟨nofun, rfl⟩)
      fun _ _ h => ⟨h.params, h.busy, h.ok, h.err, h.buffer, h.session⟩
  | sendCmd c =>
    exact inv_of_command hi hs (sendCommand_stays c s) (fun _ h => h) (fun _ h => h) (fun _ => ⟨nofun, rfl⟩) hnone
  | sendCmdP c p =>
    exact inv_of_command hi hs (sendCommandP_stays c p s) (fun _ h => h) (fun _ h => h) (fun _ => ⟨nofun, rfl⟩) hnone
  | reset => exact inv_of_session hi hs (.inr (.inl rfl)) (resetDevice_meets s)
  | enStream => exact inv_of_session hi hs (.inr (.inr rfl)) (enStream_meets s)
  | disStream => exact inv_of_session hi hs (.inr (.inl rfl)) (disStream_meets s)
  | setScaling flag => exact inv_of_session hi hs (.inl rfl) (setScaling_meets flag s)
  | setRes r => exact inv_of_session hi hs (.inl rfl) (setRes_meets r s)
  | setRate r => exact inv_of_session hi hs (.inl rfl) (setRate_meets r s)
  | getSettings => exact inv_of_session hi hs (.inl rfl) (getSettings_meets s)
  | readData => exact inv_of_readData hi hs
  | decStatus => exact hcalm rfl
  | decMotion => exact hcalm rfl
  | _ => cases hop

end

/-! The invariant, for an operation that goes on -/

/-- What the Device Session operation in progress leaves in `SESSION` is never `REMOTE_READING` (R140, R142). -/
theorem sessionAfter_ne_remoteReading {p : SessionPhase} {s : State}
    (h : ({ s with phase := .session p } : State).readingOk) (ok : Bool) : p.sessionAfter ok s.session ≠ .remoteReading := by
  cases p with
  | readSend s0 c | readRecv s0 c => cases s0 <;> simp_all [State.readingOk, Phase.readingFrom, SessionPhase.sessionAfter]
  | resetSend _ | resetSelfTest _ | resetIdentity _ | resetRemote _ | resetEnable _ | enStream _ | disStream _ =>
    cases ok
    · exact h
    · exact nofun
  | _ => exact h

theorem State.Inv.reading_at {s : State} (hi : s.Inv) {ph : Phase} (h : s.phase = ph) :
    ({ s with phase := ph } : State).readingOk := h ▸ hi.reading

theorem resume_inv {s : State} (hi : s.Inv) (hb : s.busy = true) : (resume s).Inv := by
  have hg := hi.goOn hb
  have hother : ∀ {ph : Phase}, s.phase = ph → ph.readingFrom = none → s.goOn.session ≠ .remoteReading := fun hph hnone => by
    have hr := hi.reading_at hph
    simp only [State.readingOk, hnone] at hr
    exact hr
  have hnone : ∀ v t, KeepsInv s.goOn t → KeepsInv s.goOn (noResult (α := Unit) v t) := fun _ _ h => h
  cases h : s.phase with
  | idle => exact absurd h (hi.busy_iff.1 hb)
  | sendBit p =>
    rw [resume_sendBit h]
    exact inv_of_command hg (hother h rfl) (resumeSendBit_stays p _) (fun _ h => h.command) (fun _ h => h.command)
      (fun _ => ⟨nofun, rfl⟩) hnone
  | recvBit p =>
    rw [resume_recvBit h]
    exact inv_of_command hg (hother h rfl) (resumeRecvBit_stays p _) (fun _ h => h.command) (fun _ h => h.command)
      (fun _ => ⟨nofun, rfl⟩) fun _ _ h => ⟨h.params, h.busy, h.ok, h.err, h.buffer, h.session⟩
  | sendByte p =>
    rw [resume_sendByte h]
    exact inv_of_command hg (hother h rfl) (resumeSendByte_stays p _) (fun _ h => h.command) (fun _ h => h.command)
      (fun _ => ⟨nofun, rfl⟩) hnone
  | recvByte p =>
    rw [resume_recvByte h]
    exact inv_of_command hg (hother h rfl) (resumeRecvByte_stays p _) (fun _ h => h.command) (fun _ h => h.command)
      (fun _ => ⟨nofun, rfl⟩) fun _ _ h => ⟨h.params, h.busy, h.ok, h.err, h.buffer, h.session⟩
  | command p =>
    rw [resume_command h]
    exact inv_of_command hg (hother h rfl) (resumeCommand_stays p _) (fun _ h => h) (fun _ h => h) (fun _ => ⟨nofun, rfl⟩) hnone
  | session p =>
    rw [resume_session h]
    have hr := hi.reading_at h
    exact inv_conclude_session hg (resumeSession_meets p s.goOn) (sessionAfter_ne_remoteReading hr true)
      (sessionAfter_ne_remoteReading hr false) fun ph haf => readingOk_congr haf rfl hr

/-- An accepted request leaves the invariant. -/
theorem accept_inv {i : Instr} (hport : i.onPort = true) {s : State} (hi : s.Inv) (hb : s.busy = false) :
    (portOp i s.accept).Inv := by
  obtain ⟨j, hop, hj⟩ := portOp_eq_operation hport
  rw [hj]
  exact portOp_inv hi.accept (hi.idle hb).2 hop

/-- Settles O9: each thing a step can do starts from a state that meets the invariant but for the inputs, which it does not
read. -/
theorem invKeptByEveryStep : Obligations.InvKeptByEveryStep := fun _ _ hi hstep =>
  step_induction (P := fun s t => s.Inv → t.Inv) (fun _ h => h) (fun _ _ hport hb hi => accept_inv hport hi hb)
    (fun s w hb hi => resume_inv (hi.of_input (s.wire ++ w) s.inbox s.draws) hb)
    (fun s l d hb hi => resume_inv (hi.of_input [l] s.inbox d) hb)
    (fun s v w hb hi => accept_inv (i := .sendByte v) rfl (hi.of_input (s.wire ++ w) s.inbox s.draws) hb)
    (fun s _ l h hi => h (hi.of_input s.wire l s.draws)) hstep hi

/-! `SESSION` -/

/-- What an operation that goes on leaves in `SESSION` (R142). -/
theorem resume_sessionReads {s : State} (hb : s.busy = true) :
    (resume s).SessionReads (s.phase.sessionAfter · s.session) s.session := by
  cases h : s.phase with
  | idle =>
    rw [resume_idle h]
    exact ⟨fun _ => rfl, fun _ => rfl⟩
  | sendBit p =>
    rw [resume_sendBit h]
    exact conclude_sessionReads_kept (s := s.goOn) (resumeSendBit_stays p _) (fun _ h => h.command) fun _ _ => rfl
  | recvBit p =>
    rw [resume_recvBit h]
    exact conclude_sessionReads_kept (s := s.goOn) (resumeRecvBit_stays p _) (fun _ h => h.command) fun _ _ => rfl
  | sendByte p =>
    rw [resume_sendByte h]
    exact conclude_sessionReads_kept (s := s.goOn) (resumeSendByte_stays p _) (fun _ h => h.command) fun _ _ => rfl
  | recvByte p =>
    rw [resume_recvByte h]
    exact conclude_sessionReads_kept (s := s.goOn) (resumeRecvByte_stays p _) (fun _ h => h.command) fun _ _ => rfl
  | command p =>
    rw [resume_command h]
    exact conclude_sessionReads_kept (s := s.goOn) (resumeCommand_stays p _) (fun _ h => h) fun _ _ => rfl
  | session p =>
    rw [resume_session h]
    exact (resumeSession_meets p s.goOn).sessionReads hb rfl

theorem State.SessionReads.ne {t : State} {ended : Bool → Session} {during x : Session} (h : t.SessionReads ended during)
    (hended : ∀ ok, ended ok ≠ x) (hduring : during ≠ x) : t.session ≠ x := by
  cases hb : t.busy with
  | false => rw [h.1 hb]; exact hended _
  | true => rw [h.2 hb]; exact hduring

theorem sessionAfterOp_ne_uninit (i : Instr) {before : Session} (h : before ≠ .uninit) (ok : Bool) :
    sessionAfterOp i ok before ≠ .uninit := by
  rw [sessionAfterOp_eq]
  split_ifs
  · exact nofun
  · exact nofun
  · exact nofun
  · exact h

theorem sessionDuringOp_ne_uninit (i : Instr) {before : Session} (h : before ≠ .uninit) :
    sessionDuringOp i before ≠ .uninit := by
  unfold sessionDuringOp
  split_ifs
  · exact nofun
  · exact h

/-- A remote READDATA restores UNINIT only where `SESSION` is still UNINIT (R140). -/
theorem Phase.sessionAfter_ne_uninit {s : State} (hi : s.Inv) (h : s.session ≠ .uninit) (ok : Bool) :
    s.phase.sessionAfter ok s.session ≠ .uninit := by
  cases hph : s.phase with
  | session p =>
    have hr := hi.reading_at hph
    cases p with
    | readSend s0 c | readRecv s0 c =>
      cases s0 <;> simp_all [State.readingOk, Phase.readingFrom, Phase.sessionAfter, SessionPhase.sessionAfter]
    | resetSend _ | resetSelfTest _ | resetIdentity _ | resetRemote _ | resetEnable _ | enStream _ | disStream _ =>
      cases ok
      · exact h
      · exact nofun
    | _ => exact h
  | _ => exact h

/-- An accepted request leaves `SESSION` off UNINIT. -/
theorem accept_session_ne_uninit {i : Instr} (hport : i.onPort = true) {s : State} (h : s.session ≠ .uninit) :
    (portOp i s.accept).session ≠ .uninit := by
  obtain ⟨j, hop, hj⟩ := portOp_eq_operation hport
  rw [hj]
  exact (portOp_sessionReads (s := s.accept) hop rfl).ne (sessionAfterOp_ne_uninit j h) (sessionDuringOp_ne_uninit j h)

theorem resume_session_ne_uninit {s : State} (hi : s.Inv) (hb : s.busy = true) (h : s.session ≠ .uninit) :
    (resume s).session ≠ .uninit :=
  (resume_sessionReads hb).ne (Phase.sessionAfter_ne_uninit hi h) h

/-- Settles O10: an operation leaves the value before, another than UNINIT, or the value that its READDATA began with. -/
theorem neverBackToUninit : Obligations.NeverBackToUninit := fun _ _ hi h hstep =>
  step_induction (P := fun s t => s.Inv → s.session ≠ .uninit → t.session ≠ .uninit) (fun _ _ h => h)
    (fun _ _ hport _ _ h => accept_session_ne_uninit hport h)
    (fun s w hb hi h => resume_session_ne_uninit (hi.of_input (s.wire ++ w) s.inbox s.draws) hb h)
    (fun s l d hb hi h => resume_session_ne_uninit (hi.of_input [l] s.inbox d) hb h)
    (fun s v w _ _ h => accept_session_ne_uninit (i := .sendByte v) (s := { s with wire := s.wire ++ w }) rfl h)
    (fun s _ l g hi h => g (hi.of_input s.wire l s.draws) h) hstep hi h

/-! Portions -/

/-- What is requested on the port may have its answers in portions (R25). -/
theorem portOp_portion {i : Instr} (hop : i.isOperation = true) {s : State} (hp : s.phase = .idle) (w : List Levels) :
    portOp i (s.more w) = resume ((portOp i s).more w) := by
  have hidle : ∀ t, SessionLeaves s t → t.phase = .idle := fun t ht => by rw [ht.1]; exact hp
  cases i with
  | sendBit b =>
    exact conclude_portion (sendBit_portioned b s) (sendBit_stays b s) (fun t h => hidle t h.command.session)
      (fun _ _ _ => rfl) (fun _ _ => resume_sendBit) w
  | recvBit =>
    exact conclude_portion (recvBit_portioned s) (recvBit_stays s) (fun t h => hidle t h.command.session)
      (fun _ _ _ => rfl) (fun _ _ => resume_recvBit) w
  | sendByte v =>
    exact conclude_portion (sendByte_portioned v s) (sendByte_stays v s) (fun t h => hidle t h.command.session)
      (fun _ _ _ => rfl) (fun _ _ => resume_sendByte) w
  | recvByte =>
    exact conclude_portion (recvByte_portioned s) (recvByte_stays s) (fun t h => hidle t h.command.session)
      (fun _ _ _ => rfl) (fun _ _ => resume_recvByte) w
  | sendCmd c =>
    exact conclude_portion (sendCommand_portioned c s) (sendCommand_stays c s) (fun t h => hidle t h.session)
      (fun _ _ _ => rfl) (fun _ _ => resume_command) w
  | sendCmdP c p =>
    exact conclude_portion (sendCommandP_portioned c p s) (sendCommandP_stays c p s) (fun t h => hidle t h.session)
      (fun _ _ _ => rfl) (fun _ _ => resume_command) w
  | reset =>
    exact conclude_portion (resetDevice_portioned s) (resetDevice_meets s).stays hidle (fun _ _ _ => rfl)
      (fun _ _ => resume_session) w
  | enStream =>
    exact conclude_portion (enStream_portioned s) (enStream_meets s).stays hidle (fun _ _ _ => rfl)
      (fun _ _ => resume_session) w
  | disStream =>
    exact conclude_portion (disStream_portioned s) (disStream_meets s).stays hidle (fun _ _ _ => rfl)
      (fun _ _ => resume_session) w
  | setScaling flag =>
    exact conclude_portion (setScaling_portioned flag s) (setScaling_meets flag s).stays hidle (fun _ _ _ => rfl)
      (fun _ _ => resume_session) w
  | setRes r =>
    exact conclude_portion (setRes_portioned r s) (setRes_meets r s).stays hidle (fun _ _ _ => rfl)
      (fun _ _ => resume_session) w
  | setRate r =>
    exact conclude_portion (setRate_portioned r s) (setRate_meets r s).stays hidle (fun _ _ _ => rfl)
      (fun _ _ => resume_session) w
  | getSettings =>
    exact conclude_portion (getSettings_portioned s) (getSettings_meets s).stays hidle (fun _ _ _ => rfl)
      (fun _ _ => resume_session) w
  | readData =>
    exact conclude_portion (readData_portioned s) (readData_stays s) hidle (fun _ _ _ => rfl) (fun _ _ => resume_session) w
  | decStatus => rfl
  | decMotion => rfl
  | _ => cases hop

/-- An operation that goes on may have its answers in portions (R25). -/
theorem resume_portion (s : State) (w : List Levels) : resume (s.more w) = resume ((resume s).more w) := by
  have hidle : ∀ t, SessionLeaves s.goOn t → t.phase = .idle := fun t ht => by rw [ht.1]; rfl
  cases h : s.phase with
  | idle => rw [resume_idle h]
  | sendBit p =>
    rw [resume_sendBit h, resume_sendBit (s := s.more w) h]
    exact conclude_portion (resumeSendBit_portioned p s.goOn) (resumeSendBit_stays p s.goOn)
      (fun t h => hidle t h.command.session) (fun _ _ _ => rfl) (fun _ _ => resume_sendBit) w
  | recvBit p =>
    rw [resume_recvBit h, resume_recvBit (s := s.more w) h]
    exact conclude_portion (resumeRecvBit_portioned p s.goOn) (resumeRecvBit_stays p s.goOn)
      (fun t h => hidle t h.command.session) (fun _ _ _ => rfl) (fun _ _ => resume_recvBit) w
  | sendByte p =>
    rw [resume_sendByte h, resume_sendByte (s := s.more w) h]
    exact conclude_portion (resumeSendByte_portioned p s.goOn) (resumeSendByte_stays p s.goOn)
      (fun t h => hidle t h.command.session) (fun _ _ _ => rfl) (fun _ _ => resume_sendByte) w
  | recvByte p =>
    rw [resume_recvByte h, resume_recvByte (s := s.more w) h]
    exact conclude_portion (resumeRecvByte_portioned p s.goOn) (resumeRecvByte_stays p s.goOn)
      (fun t h => hidle t h.command.session) (fun _ _ _ => rfl) (fun _ _ => resume_recvByte) w
  | command p =>
    rw [resume_command h, resume_command (s := s.more w) h]
    exact conclude_portion (resumeCommand_portioned p s.goOn) (resumeCommand_stays p s.goOn)
      (fun t h => hidle t h.session) (fun _ _ _ => rfl) (fun _ _ => resume_command) w
  | session p =>
    rw [resume_session h, resume_session (s := s.more w) h]
    exact conclude_portion (resumeSession_portioned p s.goOn) (resumeSession_meets p s.goOn).stays hidle
      (fun _ _ _ => rfl) (fun _ _ => resume_session) w

/-- Settles O58: every sub-operation may have its answers in portions, and PHASE holds where it waits. -/
theorem answersMayComeInPortions : Obligations.AnswersMayComeInPortions := by
  refine ⟨fun i s t w hport hidle hphase hexec => ?_, resume_portion⟩
  obtain rfl := Host.Outcome.next.inj ((exec_idle hport hidle).symm.trans hexec)
  obtain ⟨j, hop, hj⟩ := portOp_eq_operation hport
  rw [exec_idle (s := s.more w) hport hidle, hj]
  exact congrArg Host.Outcome.next (portOp_portion (s := s.accept) hop hphase w)

end Sys2Proof.Machine
end

section
/-! PHASE and the waits of an operation in progress (R25, R90, R93, R172). -/

namespace Sys2Proof.Machine

/-! The next primitive event -/

/-- Without an answer an operation stays where it waits (R25). -/
theorem resume_starved {s : State} (hp : s.phase ≠ .idle) (hw : s.wire = []) : resume s = s := by
  have hback : ∀ {ph : Phase}, s.phase = ph → s.goOn.hold ph = s := fun h => by rw [← h]; rfl
  cases h : s.phase with
  | idle => exact absurd h hp
  | sendBit p =>
    rw [resume_sendBit h, resumeSendBit_starved (s := s.goOn) hw, conclude_waiting, hback h]
  | recvBit p =>
    rw [resume_recvBit h, resumeRecvBit_starved (s := s.goOn) hw, conclude_waiting, hback h]
  | sendByte p =>
    rw [resume_sendByte h, resumeSendByte_starved (s := s.goOn) hw, conclude_waiting, hback h]
  | recvByte p =>
    rw [resume_recvByte h, resumeRecvByte_starved (s := s.goOn) hw, conclude_waiting, hback h]
  | command p =>
    rw [resume_command h, resumeCommand_starved (s := s.goOn) hw, conclude_waiting, hback h]
  | session p =>
    rw [resume_session h, resumeSession_starved (s := s.goOn) hw, conclude_waiting, hback h]

/-- The first event of a run is the first of the operation on the port. -/
theorem FirstEvent.conclude {φ α : Type} {e : Event} {s : State} {r : Run φ α} {wrap : φ → Phase} {out : α → State → State}
    (h : FirstEvent e s r) (hout : ∀ v t, (out v t).trace = t.trace) :
    ∃ es, (Machine.conclude r wrap out).trace = es ++ e :: s.trace :=
  conclude_stays (P := fun t => ∃ es, t.trace = es ++ e :: s.trace) h
    (fun v t ht => by rw [State.succeed_trace, hout]; exact ht) (fun _ _ ht => ht) (fun _ _ ht => ht)

/-- With an answer, the first event of an operation that goes on is a read of the line that PHASE names (R25). -/
theorem resume_first {s : State} {l : Levels} {ls : List Levels} (hp : s.phase ≠ .idle) (hw : s.wire = l :: ls) :
    ∃ p es, s.phase.awaits = some p ∧ (resume s).trace = es ++ l.readOf p :: s.trace := by
  have hg : s.goOn.wire = l :: ls := hw
  cases h : s.phase with
  | idle => exact absurd h hp
  | sendBit p =>
    obtain ⟨es, he⟩ := (resumeSendBit_first (p := p) hg).conclude (wrap := .sendBit) (out := noResult) fun _ _ => rfl
    exact ⟨p.awaits, es, rfl, (congrArg State.trace (resume_sendBit h)).trans he⟩
  | recvBit p =>
    obtain ⟨es, he⟩ := (resumeRecvBit_first (p := p) hg).conclude (wrap := .recvBit) (out := resultBit) fun _ _ => rfl
    exact ⟨p.awaits, es, rfl, (congrArg State.trace (resume_recvBit h)).trans he⟩
  | sendByte p =>
    obtain ⟨es, he⟩ := (resumeSendByte_first (p := p) hg).conclude (wrap := .sendByte) (out := noResult) fun _ _ => rfl
    exact ⟨p.awaits, es, rfl, (congrArg State.trace (resume_sendByte h)).trans he⟩
  | recvByte p =>
    obtain ⟨es, he⟩ := (resumeRecvByte_first (p := p) hg).conclude (wrap := .recvByte) (out := resultByte) fun _ _ => rfl
    exact ⟨p.awaits, es, rfl, (congrArg State.trace (resume_recvByte h)).trans he⟩
  | command p =>
    obtain ⟨es, he⟩ := (resumeCommand_first (p := p) hg).conclude (wrap := .command) (out := noResult) fun _ _ => rfl
    exact ⟨p.ack.awaits, es, rfl, (congrArg State.trace (resume_command h)).trans he⟩
  | session p =>
    obtain ⟨es, he⟩ := (resumeSession_first (p := p) hg).conclude (wrap := .session) (out := noResult) fun _ _ => rfl
    exact ⟨p.awaits, es, rfl, (congrArg State.trace (resume_session h)).trans he⟩

/-- Settles O13: a phase that is not empty stands at a read. -/
theorem phaseNamesTheNextRead : Obligations.PhaseNamesTheNextRead := fun _ hp =>
  ⟨resume_starved hp, fun _ _ => resume_first hp⟩

/-! A wait in progress -/

section
variable {s u : State} {L : Bool} (hp : s.phase.waitsFor = some L)
include hp

/-- A WAITCLK that still waits leaves the operation where it was (R25, R90). -/
theorem resume_waiting (h : waitMore L s.goOn = .waiting () u) : resume s = u.hold s.phase := by
  cases hph : s.phase with
  | idle => rw [hph] at hp; cases hp
  | sendBit p =>
    rw [hph] at hp
    obtain rfl : p.waitsFor = L := Option.some.inj hp
    rw [resume_sendBit hph, resumeSendBit_waiting h, conclude_waiting]
  | recvBit p =>
    rw [hph] at hp
    rw [resume_recvBit hph, resumeRecvBit_waiting hp h, conclude_waiting]
  | sendByte p =>
    rw [hph] at hp
    rw [resume_sendByte hph, resumeSendByte_waiting hp h, conclude_waiting]
  | recvByte p =>
    rw [hph] at hp
    rw [resume_recvByte hph, resumeRecvByte_waiting hp h, conclude_waiting]
  | command p =>
    rw [hph] at hp
    rw [resume_command hph, resumeCommand_waiting hp h, conclude_waiting]
  | session p =>
    rw [hph] at hp
    rw [resume_session hph, resumeSession_waiting hp h, conclude_waiting]

/-- A WAITCLK that times out ends the operation; a remote READDATA restores SESSION (R140, R172). -/
theorem resume_timeout (h : waitMore L s.goOn = .raised .timeout u) (hs : u.session = s.session) :
    resume s = State.fail .timeout { u with session := s.phase.sessionAfter false s.session } := by
  have hsame : { u with session := s.session } = u := by rw [← hs]
  cases hph : s.phase with
  | idle => rw [hph] at hp; cases hp
  | sendBit p =>
    rw [hph] at hp
    obtain rfl : p.waitsFor = L := Option.some.inj hp
    rw [resume_sendBit hph, resumeSendBit_timeout h, conclude_raised]
    exact congrArg (State.fail .timeout) hsame.symm
  | recvBit p =>
    rw [hph] at hp
    rw [resume_recvBit hph, resumeRecvBit_timeout hp h, conclude_raised]
    exact congrArg (State.fail .timeout) hsame.symm
  | sendByte p =>
    rw [hph] at hp
    rw [resume_sendByte hph, resumeSendByte_timeout hp h, conclude_raised]
    exact congrArg (State.fail .timeout) hsame.symm
  | recvByte p =>
    rw [hph] at hp
    rw [resume_recvByte hph, resumeRecvByte_timeout hp h, conclude_raised]
    exact congrArg (State.fail .timeout) hsame.symm
  | command p =>
    rw [hph] at hp
    rw [resume_command hph, resumeCommand_timeout hp h, conclude_raised]
    exact congrArg (State.fail .timeout) hsame.symm
  | session p =>
    rw [hph] at hp
    rw [resume_session hph, resumeSession_timeout hp h hs, conclude_raised]
    rfl

end

/-- Settles O14: the wait passes up that it still waits, and the count below the limit raises nothing. -/
theorem silentClockHangs : Obligations.SilentClockHangs := by
  intro s L hbusy hp hclk hlim
  have hspun : waitMore L s.goOn = .waiting () s.goOn.spun := waitLoop_silent L s.wire s.goOn rfl hclk hlim
  have hresume : resume s = s.goOn.spun.hold s.phase := resume_waiting hp hspun
  refine ⟨hresume, fun i hport => exec_busy hport ?_⟩
  rw [hresume]
  exact hbusy

/-- Settles O15: the wait passes up its timeout. -/
theorem waitExpires : Obligations.WaitExpires := fun s _ _ _ _ hp hw hclk hlim hle =>
  resume_timeout hp (waitMore_expires (s := s.goOn) hw hclk hlim hle) rfl

end Sys2Proof.Machine
end

section
/-! What the operations on the port leave unchanged, however they stand (10_state.md section 10), and the two operations of the
Bit Transport that return (R91, R92). -/

namespace Sys2Proof.Machine

/-! A request that is answered -/

/-- What is requested on the port is ignored or run (R66). -/
theorem exec_onPort_cases {i : Instr} (hport : i.onPort = true) {s t : State} (h : exec i s = .next t) :
    t = s ∨ t = portOp i s.accept := by
  cases hb : s.busy with
  | true => exact .inl (Host.Outcome.next.inj (h.symm.trans (exec_busy hport hb)))
  | false => exact .inr (Host.Outcome.next.inj (h.symm.trans (exec_idle hport hb)))

/-- An operation on the port leaves what its run and the write of its result leave, but for the four registers that its end
writes (R24, R25). -/
theorem conclude_leaves {φ α : Type} {r : Run φ α} {wrap : φ → Phase} {out : α → State → State} {F G : State → Prop}
    {K : ErrKind → Prop} (h : r.Stays F K) (hF : ∀ t, F t → G t) (hout : ∀ v t, F t → G (out v t)) :
    ∃ u b ok err ph, G u ∧ conclude r wrap out = { u with busy := b, ok := ok, err := err, phase := ph } := by
  cases r with
  | done v t => exact ⟨out v t, _, _, _, _, hout v t h, rfl⟩
  | raised k t => exact ⟨t, _, _, _, _, hF t h.1, rfl⟩
  | waiting ph t => exact ⟨t, _, _, _, _, hF t h, rfl⟩

/-- The same where the operation has no result of its own. -/
theorem conclude_noResult_leaves {φ α : Type} {r : Run φ α} {wrap : φ → Phase} {F : State → Prop} {K : ErrKind → Prop}
    (h : r.Stays F K) :
    ∃ u b ok err ph, F u ∧ conclude r wrap noResult = { u with busy := b, ok := ok, err := err, phase := ph } :=
  conclude_leaves h (fun _ h => h) (fun _ _ h => h)

/-! Bit Transport -/

/-- What RECVBIT requested on the port may write besides what its end does (R92). -/
def RecvBitWrites (s t : State) : Prop :=
  t = { s with rxbit := t.rxbit, result := t.result, waitcnt := t.waitcnt, wire := t.wire, trace := t.trace }

theorem RecvBitLeaves.writes {s t : State} (h : RecvBitLeaves s t) : RecvBitWrites s t := h.1.trans (by rw [h.1])

theorem RecvBitLeaves.writes_result {s t : State} (b : Bool) (h : RecvBitLeaves s t) : RecvBitWrites s (resultBit b t) := by
  show resultBit b t = _
  rw [h.1]
  rfl

/-- Settles O18: both stay within what their waits, their drive or sample, and their end write. -/
theorem bitOperationsLeave : Obligations.BitOperationsLeave := by
  refine ⟨fun b s t hexec => ?_, fun s t hexec => ?_⟩
  · obtain rfl | rfl := exec_onPort_cases rfl hexec
    · exact ⟨rfl, fun _ => rfl⟩
    · obtain ⟨u, _, _, _, _, hu, ht⟩ := conclude_noResult_leaves (wrap := .sendBit) (sendBit_stays b s.accept)
      rw [show portOp (.sendBit b) s.accept = _ from ht, hu.1]
      exact ⟨rfl, fun _ => rfl⟩
  · obtain rfl | rfl := exec_onPort_cases rfl hexec
    · exact ⟨rfl, fun _ => rfl⟩
    · obtain ⟨u, _, _, _, _, hu, ht⟩ := conclude_leaves (wrap := .recvBit) (out := resultBit) (recvBit_stays s.accept)
        (fun _ h => h.writes) fun b _ h => h.writes_result b
      rw [show portOp .recvBit s.accept = _ from ht, show u = _ from hu]
      exact ⟨rfl, fun _ => rfl⟩

/-- Settles O16: the two waits return, with the drive between them. -/
theorem sendBitResult : Obligations.SendBitResult := by
  intro s b low high rest hidle hlow hhigh hs
  have hrun := sendBit_done (b := b) (s := s.accept) hlow hhigh hs
  rw [exec_idle rfl hidle]
  show Host.Outcome.next (conclude (sendBit b s.accept) .sendBit noResult) = _
  rw [hrun]
  rfl

/-- Settles O17: the two waits return, with the sample between them. -/
theorem recvBitResult : Obligations.RecvBitResult := by
  intro s low high rest sample hidle hlow hhigh hs
  have hrun := recvBit_done (s := s.accept) hlow hhigh hs
  rw [exec_idle rfl hidle]
  show Host.Outcome.next (conclude (recvBit s.accept) .recvBit resultBit) = _
  rw [hrun]
  rfl

/-! Byte Framer -/

/-- What RECVBYTE requested on the port may write besides what its end does (R105). -/
def RecvByteWrites (s t : State) : Prop :=
  t = { s with clkDrv := t.clkDrv, dataDrv := t.dataDrv, bitcnt := t.bitcnt, rxr := t.rxr, par := t.par, rxbit := t.rxbit
               waitcnt := t.waitcnt, result := t.result, wire := t.wire, trace := t.trace }

theorem RecvByteLeaves.writes {s t : State} (h : RecvByteLeaves s t) : RecvByteWrites s t := h.1.trans (by rw [h.1])

theorem RecvByteLeaves.writes_result {s t : State} (v : Byte) (h : RecvByteLeaves s t) :
    RecvByteWrites s (resultByte v t) := by
  show resultByte v t = _
  rw [h.1]
  rfl

/-- Settles O23: both stay within what their cells, their start and their end write. -/
theorem byteOperationsLeave : Obligations.ByteOperationsLeave := by
  refine ⟨fun v s t hexec => ?_, fun s t hexec => ?_⟩
  · obtain rfl | rfl := exec_onPort_cases rfl hexec
    · exact ⟨rfl, fun _ => rfl⟩
    · obtain ⟨u, _, _, _, _, hu, ht⟩ := conclude_noResult_leaves (wrap := .sendByte) (sendByte_stays v s.accept)
      rw [show portOp (.sendByte v) s.accept = _ from ht, hu.1]
      exact ⟨rfl, fun _ => rfl⟩
  · obtain rfl | rfl := exec_onPort_cases rfl hexec
    · exact ⟨rfl, fun _ => rfl⟩
    · obtain ⟨u, _, _, _, _, hu, ht⟩ := conclude_leaves (wrap := .recvByte) (out := resultByte) (recvByte_stays s.accept)
        (fun _ h => h.writes) fun v _ h => h.writes_result v
      rw [show portOp .recvByte s.accept = _ from ht, show u = _ from hu]
      exact ⟨rfl, fun _ => rfl⟩

/-! Command Protocol -/

theorem onPort_of_commandOnly {i : Instr} (h : i.commandOnly = true) : i.onPort = true := by
  cases i <;> simp_all [Instr.commandOnly, Instr.onPort]

/-- The command bytes and the settings are nothing but acknowledged bytes (R81, log 11). -/
theorem portOp_commandOnly {i : Instr} (h : i.commandOnly = true) (s : State) :
    ∃ u b ok err ph, CommandLeaves s u ∧ portOp i s = { u with busy := b, ok := ok, err := err, phase := ph } := by
  cases i with
  | sendCmdP c p => exact conclude_noResult_leaves (sendCommandP_stays c p s)
  | cmdSetResolution p | cmdSetSampleRate p => exact conclude_noResult_leaves (sendCommandP_stays _ p s)
  | setScaling flag => exact conclude_noResult_leaves (setScaling_stays flag s)
  | setRes r => exact conclude_noResult_leaves (setRes_stays r s)
  | setRate r => exact conclude_noResult_leaves (setRate_stays r s)
  | sendCmd c => exact conclude_noResult_leaves (sendCommand_stays c s)
  | cmdDisableScaling | cmdEnableScaling | cmdStatusRequest | cmdSetStreamMode | cmdReadData | cmdReset | cmdSetRemoteMode
  | cmdEnableDataReporting | cmdDisableDataReporting => exact conclude_noResult_leaves (sendCommand_stays _ s)
  | _ => cases h

/-- Settles O32: none of them writes more than SENDACKED does. -/
theorem commandOperationsLeave : Obligations.CommandOperationsLeave := by
  intro i s t hcmd hexec
  obtain rfl | rfl := exec_onPort_cases (onPort_of_commandOnly hcmd) hexec
  · exact ⟨rfl, fun _ => rfl⟩
  · obtain ⟨u, _, _, _, _, hu, ht⟩ := portOp_commandOnly hcmd s.accept
    rw [ht, hu.1]
    exact ⟨rfl, fun _ => rfl⟩

/-! Device Session -/

/-- The three operations that write `SESSION` alone of the session registers (R132 to R134). -/
theorem portOp_modeLeaves {i : Instr} (h : i = .reset ∨ i = .enStream ∨ i = .disStream) (s : State) : i.onPort = true ∧
    ∃ u b ok err ph, ModeLeaves s u ∧ portOp i s = { u with busy := b, ok := ok, err := err, phase := ph } := by
  obtain rfl | rfl | rfl := h
  · exact ⟨rfl, conclude_noResult_leaves (resetDevice_keeps s)⟩
  · exact ⟨rfl, conclude_noResult_leaves (enStream_keeps s)⟩
  · exact ⟨rfl, conclude_noResult_leaves (disStream_keeps s)⟩

/-- Settles O44: none of their steps stores a byte or writes a result. -/
theorem sessionOperationsLeave : Obligations.SessionOperationsLeave := by
  intro i s t hi hexec
  obtain ⟨hport, u, _, _, _, _, hu, ht⟩ := portOp_modeLeaves hi s.accept
  obtain rfl | rfl := exec_onPort_cases hport hexec
  · exact ⟨rfl, fun _ => rfl⟩
  · rw [ht, show u = _ from hu]
    exact ⟨rfl, fun _ => rfl⟩

theorem exec_getSettings_cases {s t : State} (h : exec .getSettings s = .next t) : t = s ∨ ∃ u b ok err ph,
    RecordWrites (fun s t => t.mv = s.mv ∧ t.session = s.session) s.accept u ∧
      t = { u with busy := b, ok := ok, err := err, phase := ph } :=
  (exec_onPort_cases rfl h).imp_right fun ht => by
    rw [ht]
    exact conclude_noResult_leaves (getSettings_recordWrites s.accept)

theorem exec_readData_cases {s t : State} (h : exec .readData s = .next t) : t = s ∨ ∃ u b ok err ph,
    RecordWrites (fun s t => t.st = s.st) s.accept u ∧ t = { u with busy := b, ok := ok, err := err, phase := ph } :=
  (exec_onPort_cases rfl h).imp_right fun ht => by
    rw [ht]
    exact conclude_noResult_leaves (readData_recordWrites s.accept)

/-- Settles O45: the record operations write the registers of their decoder, and RECV3 stores below RXCNT. -/
theorem recordOperationsLeave : Obligations.RecordOperationsLeave := by
  intro s t
  refine ⟨fun h => ?_, fun h => ?_, ?_⟩
  · obtain rfl | ⟨u, _, _, _, _, hu, rfl⟩ := exec_getSettings_cases h
    · rfl
    · obtain ⟨hleaves, -, hmv, hsession⟩ := hu
      rw [show u = _ from hleaves, hmv, hsession]
      rfl
  · obtain rfl | ⟨u, _, _, _, _, hu, rfl⟩ := exec_readData_cases h
    · rfl
    · obtain ⟨hleaves, -, hst⟩ := hu
      rw [show u = _ from hleaves, hst]
      rfl
  · rintro (h | h)
    · obtain rfl | ⟨u, _, _, _, _, hu, rfl⟩ := exec_getSettings_cases h
      · exact .inl ⟨rfl, rfl⟩
      · exact hu.buffer
    · obtain rfl | ⟨u, _, _, _, _, hu, rfl⟩ := exec_readData_cases h
      · exact .inl ⟨rfl, rfl⟩
      · exact hu.buffer

/-- Settles O43: an operation that fails has not reached the write of its results, and the decoders do not fail. -/
theorem failureKeepsTheResults : Obligations.FailureKeepsTheResults := by
  intro i s t hop hidle hexec hended hok
  have hport := onPort_of_isOperation hop
  obtain rfl : portOp i s.accept = t := Host.Outcome.next.inj ((exec_idle hport hidle).symm.trans hexec)
  have hstatus : i ≠ .decStatus := by rintro rfl; cases hok
  have hmotion : i ≠ .decMotion := by rintro rfl; cases hok
  have hsession : _ = sessionAfterOp i _ s.session := (portOp_sessionReads hop (s := s.accept) rfl).1 hended
  rw [hok, sessionAfterOp_eq] at hsession
  obtain ⟨hst, hmv, hresult, hkind, -⟩ := (portOp_stands hop hstatus hmotion s.accept).results_of_failed rfl hended hok
  obtain ⟨-, hpins⟩ := (portOp_grows hport s.accept).followsPins (portOp_params hport s.accept)
  exact ⟨by simpa using hsession, hst, hmv, hresult, hkind, hpins⟩

end Sys2Proof.Machine
end

section
/-! The Command Protocol and the Device Session (43_command_protocol.md, 44_device_session.md) on answers that let an operation
end: what it does, in order, and the registers it leaves. -/

namespace Sys2Proof.Machine

/-! A run that ends is an operation that ends -/

section
variable {φ : Type} {op : State → Run φ Unit} {wrap : φ → Phase} {i : Instr} {s u : State} {n : Nat} {os : List Event}
  (hport : i.onPort = true) (hop : portOp i s.accept = conclude (op s.accept) wrap noResult) (hidle : s.busy = false)
include hport hop hidle

theorem exec_of_done (hrun : op s.accept = .done () u) (hemits : Emits s.accept u n os) :
    exec i s = .next u.succeed ∧ Emits s u.succeed n os := by
  rw [exec_idle hport hidle, hop, hrun]
  exact ⟨rfl, hemits.congr rfl rfl⟩

theorem exec_of_raised {k : ErrKind} (hrun : op s.accept = .raised k u) (hemits : Emits s.accept u n os) :
    exec i s = .next (u.fail k) ∧ Emits s (u.fail k) n os := by
  rw [exec_idle hport hidle, hop, hrun]
  exact ⟨rfl, hemits.congr rfl rfl⟩

end

/-! Command Protocol -/

/-- SENDCMD completes (R121). -/
theorem exec_sendCmd_acked {s : State} (c : Byte) {k : Nat} {t : Bool} {w rest : List Levels} (hidle : s.busy = false)
    (hw : AckedAnswers s.params k t w) (hs : s.wire = w ++ rest) :
    ∃ u, exec (.sendCmd c) s = .next u ∧ Emits s u w.length (exchangeOutputs (k + 1) c) ∧
      u = State.succeed (s.afterAcked u c 0xFA k t rest) := by
  obtain ⟨u, hu, heu, hueq⟩ := sendCommand_done (x := c) (s := s.accept) hw hs
  obtain ⟨hexec, hemits⟩ := exec_of_done (i := .sendCmd c) rfl rfl hidle hu heu
  exact ⟨u.succeed, hexec, hemits, (congrArg State.succeed hueq).trans rfl⟩

/-- SENDCMDP completes (R122). -/
theorem exec_sendCmdP_acked {s : State} (c p : Byte) {k m : Nat} {t t' : Bool} {w w' rest : List Levels}
    (hidle : s.busy = false) (hw : AckedAnswers s.params k t w) (hw' : AckedAnswers s.params m t' w')
    (hs : s.wire = w ++ (w' ++ rest)) :
    ∃ u, exec (.sendCmdP c p) s = .next u ∧
      Emits s u (w.length + w'.length) (exchangeOutputs (k + 1) c ++ exchangeOutputs (m + 1) p) ∧
      u = State.succeed (s.afterAcked u p 0xFA m t' rest) := by
  obtain ⟨u, hu, heu, hueq⟩ := sendCommandP_done (x := c) (y := p) (s := s.accept) hw hw' hs
  obtain ⟨hexec, hemits⟩ := exec_of_done (i := .sendCmdP c p) rfl rfl hidle hu heu
  exact ⟨u.succeed, hexec, hemits, (congrArg State.succeed hueq).trans rfl⟩

/-- The rows that O26 lists are those of format CMD1. -/
theorem cmd1Rows_swap : [(Instr.cmdDisableScaling, (0xE6 : Byte)), (.cmdEnableScaling, 0xE7), (.cmdStatusRequest, 0xE9),
    (.cmdSetStreamMode, 0xEA), (.cmdReadData, 0xEB), (.cmdReset, 0xFF), (.cmdSetRemoteMode, 0xF0),
    (.cmdEnableDataReporting, 0xF4), (.cmdDisableDataReporting, 0xF5)] = cmd1Rows.map Prod.swap := rfl

/-- Settles O26: a command byte of format CMD1 runs as SENDCMD of it. -/
theorem commandsComplete : Obligations.CommandsComplete := by
  intro s i c k t w rest hi hidle hw hs
  have hsame : exec i = exec (.sendCmd c) := by
    rw [cmd1Rows_swap] at hi
    obtain rfl | hrow := hi
    · rfl
    · obtain ⟨row, hmem, hswap⟩ := List.mem_map.1 hrow
      obtain ⟨rfl, rfl⟩ := Prod.mk.inj hswap
      exact exec_of_cmd1Rows row hmem
  rw [hsame]
  exact exec_sendCmd_acked c hidle hw hs

/-- Settles O27: a command byte of format CMD2 and its parameter run as SENDCMDP of them. -/
theorem parameterCommandsComplete : Obligations.ParameterCommandsComplete := by
  intro s i c p k m t t' w w' rest hi hidle hw hw' hs
  have hsame : exec i = exec (.sendCmdP c p) := by obtain rfl | ⟨rfl, rfl⟩ | ⟨rfl, rfl⟩ := hi <;> rfl
  rw [hsame]
  exact exec_sendCmdP_acked c p hidle hw hw' hs

/-- Settles O30: `n` resends bring the loop back to SEND, and COMPARE ends it on the next. -/
theorem resendLimitEndsTheCommand : Obligations.ResendLimitEndsTheCommand := by
  intro s c n w rest hidle hlimit hw hs
  obtain ⟨resends, last, t, rfl, hresends, hlast⟩ := hw.split_last
  obtain ⟨u, fuel, hu, heu, hueq⟩ := sendAcked_compare (which := .command) (x := c) (s := s.accept) hresends hlast
    (fun m hm => by rw [show m = n from Option.some.inj (hm.symm.trans hlimit)]) hs
  have hretry : u.retry = n := by rw [hueq]; rfl
  have hparams : u.params = s.params := by rw [hueq]; rfl
  have hwire : u.wire = rest := by rw [hueq]; rfl
  have hrun := hu.trans (ackCompare_exhausted (s := u) (n := n) (by rw [hparams, hlimit]) (by rw [hretry]; omega))
  obtain ⟨hexec, hemits⟩ := exec_of_raised (i := .sendCmd c) (op := sendCommand c) rfl rfl hidle hrun
    (heu.congr rfl rfl)
  exact ⟨_, hexec, hemits, rfl, rfl, rfl, hwire, congrArg (· + 1) hretry, rfl⟩

/-! The parameter byte -/

/-- What an accepted SENDCMD runs from is still there of OK, ERR and PHASE where its run has returned. -/
theorem CommandLeaves.succeed_accept {s t : State} (h : CommandLeaves s.accept t) :
    State.accept { t.succeed with ok := s.ok, err := s.err, phase := s.phase } = t := by
  rw [h.1]
  rfl

/-- What SENDCMDP makes of the SENDCMD of its code, `u` being the state that leaves (R122). -/
theorem sendCmdP_after_sendCmd {s u : State} {c p : Byte} (hidle : s.busy = false) (hexec : exec (.sendCmd c) s = .next u) :
    (u.busy = false → u.ok = false → exec (.sendCmdP c p) s = .next u) ∧
    (∀ q, u.phase = .command q →
      exec (.sendCmdP c p) s = .next { u with phase := .command { q with which := .commandThen p } }) ∧
    (u.busy = false → u.ok = true → exec (.sendCmdP c p) s = .next (conclude (sendAcked .parameter p
      (State.accept { u with ok := s.ok, err := s.err, phase := s.phase })) .command noResult)) := by
  obtain rfl : conclude (sendCommand c s.accept) .command noResult = u :=
    Host.Outcome.next.inj ((exec_sendCmd_idle c hidle).symm.trans hexec)
  have hP : exec (.sendCmdP c p) s = .next (conclude (sendCommandP c p s.accept) .command noResult) :=
    exec_idle (i := .sendCmdP c p) rfl hidle
  rw [hP, sendCommandP_eq]
  have hleaves := sendCommand_stays c s.accept
  cases hr : sendCommand c s.accept with
  | done v t =>
    rw [hr] at hleaves
    refine ⟨nofun, nofun, fun _ _ => ?_⟩
    rw [conclude_done, noResult, CommandLeaves.succeed_accept hleaves]
    rfl
  | raised k t => exact ⟨fun _ _ => rfl, nofun, nofun⟩
  | waiting ph t =>
    rw [hr] at hleaves
    have hbusy : t.busy = true := CommandLeaves.keepsBusy hleaves
    have hruns : ∀ {P : Prop}, (t.hold (.command ph)).busy = false → P :=
      fun h => absurd hbusy (ne_true_of_eq_false h)
    refine ⟨fun h => hruns h, fun q hq => ?_, fun h => hruns h⟩
    obtain rfl := Phase.command.inj hq
    rfl

/-- The parameter is sent as SENDCMD sends a command; while it waits the two differ in PHASE only (R122). -/
theorem parameter_as_sendCmd (p : Byte) (x : State) :
    let t := conclude (sendAcked .parameter p x.accept) .command noResult
    let v := conclude (sendCommand p x.accept) .command noResult
    t = { v with phase := t.phase } ∧ (v.busy = false → t = v) ∧
      ∀ q, v.phase = .command q → t.phase = .command { q with which := .parameter } := by
  have hleaves := sendCommand_stays p x.accept
  rw [sendAcked_parameter]
  cases hr : sendCommand p x.accept with
  | done v t => exact ⟨rfl, fun _ => rfl, nofun⟩
  | raised k t => exact ⟨rfl, fun _ => rfl, nofun⟩
  | waiting ph t =>
    rw [hr] at hleaves
    have hbusy : t.busy = true := CommandLeaves.keepsBusy hleaves
    refine ⟨rfl, fun h => absurd hbusy (ne_true_of_eq_false h), fun q hq => ?_⟩
    obtain rfl := Phase.command.inj hq
    rfl

/-- Settles O28: SENDCMDP is SENDCMD of the code, gone on with only where that has returned. -/
theorem parameterOnlyAfterTheAcknowledge : Obligations.ParameterOnlyAfterTheAcknowledge := by
  refine ⟨fun s u c p hidle hexec => ?_, fun s c p r k t resends last rest hidle hresends hlast hr hr' hlim hs => ?_,
    fun s c p r k m t t' w resends last rest hidle hw hresends hlast hr hr' hlim hs => ?_⟩
  · obtain ⟨hfailed, hwaits, hdone⟩ := sendCmdP_after_sendCmd (p := p) hidle hexec
    refine ⟨hfailed, hwaits, fun hb hok => ?_⟩
    exact ⟨_, _, hdone hb hok, exec_sendCmd_idle p (s := { u with ok := s.ok, err := s.err, phase := s.phase }) hb,
      parameter_as_sendCmd p _⟩
  · obtain ⟨u, hu, heu, hueq⟩ := sendCommand_answered (c := c) (s := s.accept) hresends hlast hr hlim hs
    rw [if_neg hr'] at hu
    have hrun : sendCommandP c p s.accept = .raised .protocol u := by rw [sendCommandP_eq, hu]; rfl
    obtain ⟨hexec, hemits⟩ := exec_of_raised (i := .sendCmdP c p) rfl rfl hidle hrun heu
    exact ⟨_, hexec, hemits, (congrArg (State.fail .protocol) hueq).trans rfl⟩
  · obtain ⟨a, ha, hea, haeq⟩ := sendCommand_done (x := c) (s := s.accept) hw hs
    have hparams : a.params = s.params := by rw [haeq]; rfl
    have hwire : a.wire = (resends ++ last) ++ rest := by rw [haeq]; rfl
    obtain ⟨u, hu, heu, hueq⟩ := sendCommand_answered (c := p) (s := a) (by rw [hparams]; exact hresends)
      (by rw [hparams]; exact hlast) hr (by rw [hparams]; exact hlim) hwire
    rw [if_neg hr'] at hu
    have hrun : sendCommandP c p s.accept = .raised .protocol u := by
      rw [sendCommandP_eq, ha, Run.within_done, sendAcked_parameter, hu]
      rfl
    obtain ⟨hexec, hemits⟩ := exec_of_raised (i := .sendCmdP c p) rfl rfl hidle hrun (hea.trans heu)
    refine ⟨_, hexec, hemits, ?_⟩
    rw [haeq] at hueq
    exact (congrArg (State.fail .protocol) hueq).trans rfl

/-! Device Session: RESET -/

@[simp] theorem resetSelfTest_passed (s : State) :
    resetSelfTest 0xAA s = (recvByte s).within .resetIdentity fun r s => resetIdentity r s := if_pos rfl

theorem resetSelfTest_other {r : Byte} {s : State} (h : r ≠ 0xAA) : resetSelfTest r s = .raised .protocol s := if_neg h

@[simp] theorem resetIdentity_isMouse (s : State) : resetIdentity 0x00 s = resetRemote s := if_pos rfl

theorem resetIdentity_other {r : Byte} {s : State} (h : r ≠ 0x00) : resetIdentity r s = .raised .protocol s := if_neg h

/-- Settles O35: COMPARE of a plain byte ends RESET before the next receipt or command. -/
theorem resetWrongByteFails : Obligations.ResetWrongByteFails := by
  intro s k t1 t2 t3 r1 r2 w1 w2 w3 rest hidle hw1 hw2
  refine ⟨fun hr1 hs => ?_, fun hr1 hr2 hw3 hs => ?_⟩
  · obtain ⟨a, ha, hea, haeq⟩ := sendCommand_done (x := CommandCode.reset.code) (s := s.accept) hw1 hs
    have haparams : a.params = s.params := by rw [haeq]; rfl
    have hawire : a.wire = w2 ++ rest := by rw [haeq]; rfl
    obtain ⟨b, hb, heb, hbeq⟩ := recvByte_done (s := a) (by rw [haparams]; exact hw2) hawire
    have hrun : resetDevice s.accept = .raised .protocol b := by
      rw [resetDevice, ha, Run.within_done, resetReply, hb, Run.within_done, resetSelfTest_other hr1]
    obtain ⟨hexec, hemits⟩ := exec_of_raised (i := .reset) rfl rfl hidle hrun (hea.trans heb)
    refine ⟨_, hexec, hemits, rfl, rfl, rfl, ?_⟩
    rw [hbeq, haeq]
    exact ⟨rfl, rfl⟩
  · subst hr1
    obtain ⟨a, ha, hea, haeq⟩ := sendCommand_done (x := CommandCode.reset.code) (s := s.accept) hw1 hs
    have haparams : a.params = s.params := by rw [haeq]; rfl
    have hawire : a.wire = w2 ++ (w3 ++ rest) := by rw [haeq]; rfl
    obtain ⟨b, hb, heb, hbeq⟩ := recvByte_done (s := a) (by rw [haparams]; exact hw2) hawire
    have hbparams : b.params = s.params := by rw [hbeq]; exact haparams
    have hbwire : b.wire = w3 ++ rest := by rw [hbeq]; rfl
    obtain ⟨c, hc, hec, hceq⟩ := recvByte_done (s := b) (by rw [hbparams]; exact hw3) hbwire
    have hrun : resetDevice s.accept = .raised .protocol c := by
      rw [resetDevice, ha, Run.within_done, resetReply, hb, Run.within_done, resetSelfTest_passed, hc,
        Run.within_done, resetIdentity_other hr2]
    obtain ⟨hexec, hemits⟩ := exec_of_raised (i := .reset) rfl rfl hidle hrun ((hea.trans heb).trans hec)
    refine ⟨_, hexec, hemits, rfl, rfl, rfl, ?_⟩
    rw [hceq, hbeq, haeq]
    exact ⟨rfl, rfl⟩

/-- Settles O34: the five parts of RESET follow one another, each from the registers that the one before leaves. -/
theorem resetCompletes : Obligations.ResetCompletes := by
  intro s k1 k2 k3 t1 t2 t3 t4 t5 w1 w2 w3 w4 w5 rest hidle hw1 hw2 hw3 hw4 hw5 hs
  obtain ⟨a, ha, hea, haeq⟩ := sendCommand_done (x := CommandCode.reset.code) (s := s.accept) hw1 hs
  have haparams : a.params = s.params := by rw [haeq]; rfl
  obtain ⟨b, hb, heb, hbeq⟩ := recvByte_done (s := a) (by rw [haparams]; exact hw2) (show a.wire = w2 ++ _ by rw [haeq]; rfl)
  have hbparams : b.params = s.params := by rw [hbeq]; exact haparams
  obtain ⟨c, hc, hec, hceq⟩ := recvByte_done (s := b) (by rw [hbparams]; exact hw3) (show b.wire = w3 ++ _ by rw [hbeq]; rfl)
  have hcparams : c.params = s.params := by rw [hceq]; exact hbparams
  obtain ⟨d, hd, hed, hdeq⟩ := sendCommand_done (x := CommandCode.setRemoteMode.code) (s := c) (by rw [hcparams]; exact hw4)
    (show c.wire = w4 ++ _ by rw [hceq]; rfl)
  have hdparams : d.params = s.params := by rw [hdeq]; exact hcparams
  obtain ⟨e, he, hee, heeq⟩ := sendCommand_done (x := CommandCode.enableDataReporting.code) (s := d)
    (by rw [hdparams]; exact hw5) (show d.wire = w5 ++ _ by rw [hdeq]; rfl)
  have hrun : resetDevice s.accept = .done () { e with session := .remoteIdle } := by
    rw [resetDevice, ha, Run.within_done, resetReply, hb, Run.within_done, resetSelfTest_passed, hc, Run.within_done,
      resetIdentity_isMouse, resetRemote, hd, Run.within_done, resetEnable, he, Run.within_done, resetDone]
  obtain ⟨hexec, hemits⟩ := exec_of_done (i := .reset) rfl rfl hidle hrun
    (((((hea.trans heb).trans hec).trans hed).trans hee).congr rfl rfl)
  refine ⟨_, hexec, hemits, ?_⟩
  rw [hdeq, hceq, hbeq, haeq] at heeq
  rw [heeq]
  rfl

/-! Device Session: one or two command bytes -/

/-- Settles O36: the write of SESSION follows the one acknowledged byte. -/
theorem streamModeOperationsComplete : Obligations.StreamModeOperationsComplete := by
  intro s k t w rest hidle hw hs
  refine ⟨?_, ?_⟩
  · obtain ⟨u, hu, heu, hueq⟩ := sendCommand_done (x := CommandCode.setStreamMode.code) (s := s.accept) hw hs
    have hrun : enStream s.accept = .done () { u with session := .streaming } := by
      rw [enStream, hu, Run.within_done, enStreamDone]
    obtain ⟨hexec, hemits⟩ := exec_of_done (i := .enStream) rfl rfl hidle hrun (heu.congr rfl rfl)
    refine ⟨_, hexec, hemits, ?_⟩
    rw [hueq]
    rfl
  · obtain ⟨u, hu, heu, hueq⟩ := sendCommand_done (x := CommandCode.setRemoteMode.code) (s := s.accept) hw hs
    have hrun : disStream s.accept = .done () { u with session := .remoteIdle } := by
      rw [disStream, hu, Run.within_done, disStreamDone]
    obtain ⟨hexec, hemits⟩ := exec_of_done (i := .disStream) rfl rfl hidle hrun (heu.congr rfl rfl)
    refine ⟨_, hexec, hemits, ?_⟩
    rw [hueq]
    rfl

/-- Two states that differ at most in their place are one where both are idle (R25, R81). -/
theorem exec_expansion {i j : Instr} {s u : State} (hidle : u.busy = false)
    (h : ∃ t v, exec i s = .next t ∧ exec j s = .next v ∧ t = { v with phase := t.phase } ∧ (v.busy = false → t = v))
    (hj : exec j s = .next u) : exec i s = .next u := by
  obtain ⟨t, v, hi, hv, -, hsame⟩ := h
  obtain rfl : v = u := Host.Outcome.next.inj (hv.symm.trans hj)
  rw [hi, hsame hidle]

/-- Settles O37: the settings are the commands they expand to (R81), which complete. -/
theorem settingsComplete : Obligations.SettingsComplete := by
  intro s k m t t' w w' rest hidle hw
  obtain ⟨hscaling, hcodes, -⟩ := pseudoOperationsExpand s hidle
  refine ⟨fun flag hs => ?_, fun r hw' hs => ⟨?_, ?_⟩⟩
  · obtain ⟨u, hu, heu, hueq⟩ := exec_sendCmd_acked (if flag then 0xE7 else 0xE6) hidle hw hs
    have hended : u.busy = false := by rw [hueq]; rfl
    refine ⟨u, exec_expansion hended ?_ hu, heu, hueq⟩
    cases flag
    · exact hscaling (.setScaling false, .sendCmd 0xE6) (by simp)
    · exact hscaling (.setScaling true, .sendCmd 0xE7) (by simp)
  · obtain ⟨u, hu, heu, hueq⟩ := exec_sendCmdP_acked 0xE8 r hidle hw hw' hs
    have hended : u.busy = false := by rw [hueq]; rfl
    exact ⟨u, exec_expansion hended (hcodes r (.setRes r, .sendCmdP 0xE8 r) (by simp)) hu, heu, hueq⟩
  · obtain ⟨u, hu, heu, hueq⟩ := exec_sendCmdP_acked 0xF3 r hidle hw hw' hs
    have hended : u.busy = false := by rw [hueq]; rfl
    exact ⟨u, exec_expansion hended (hcodes r (.setRate r, .sendCmdP 0xF3 r) (by simp)) hu, heu, hueq⟩

/-! Device Session: a record -/

/-- A command that is acknowledged, and then a record (R131, R138, R140). -/
theorem command_then_record {s : State} (x : Byte) {k : Nat} {t t' : Bool} {r : Record} {w w' rest : List Levels}
    (hw : AckedAnswers s.params k t w) (hr : RecordAnswers s.params r t' w') (hs : s.wire = w ++ (w' ++ rest)) :
    ∃ a u, sendCommand x s = .done () a ∧ recv3 a = .done () u ∧
      Emits s u (w.length + w'.length) (exchangeOutputs (k + 1) x ++ recvOutputs ++ recvOutputs ++ recvOutputs) ∧
      u = (s.afterAcked u x 0xFA k t rest).afterRecord u r t' rest := by
  obtain ⟨a, ha, hea, haeq⟩ := sendCommand_done (x := x) hw hs
  have hparams : a.params = s.params := by rw [haeq]; rfl
  obtain ⟨u, hu, heu, hueq⟩ := recv3_done (s := a) (by rw [hparams]; exact hr) (show a.wire = w' ++ rest by rw [haeq]; rfl)
  refine ⟨a, u, ha, hu, (hea.trans heu).congr_out rfl (by simp), ?_⟩
  rw [haeq] at hueq
  exact hueq

theorem recordDraws_afterRecord (s u : State) (r : Record) (t : Bool) (rest : List Levels) :
    recordDraws (s.afterRecord u r t rest) = s.draws := if_pos rfl

/-- A decoder run after RECV3 finds the buffer filled with the record (R23, R131). -/
theorem decStatus_afterRecord {s u : State} {r : Record} {t : Bool} {rest : List Levels} (h : Memory.wf s.rxbuf = true) :
    decStatus (s.afterRecord u r t rest) = { s.afterRecord u r t rest with st := statusOf s.params.layout r } := by
  rw [decStatus, recordOf_afterRecord h, recordDraws_afterRecord]
  rfl

theorem decMotion_afterRecord {s u : State} {r : Record} {t : Bool} {rest : List Levels} (h : Memory.wf s.rxbuf = true) :
    decMotion (s.afterRecord u r t rest) = { s.afterRecord u r t rest with mv := motionOf s.params s.mv r } := by
  rw [decMotion, recordOf_afterRecord h, recordDraws_afterRecord]
  rfl

/-- Settles O38: DECSTATUS runs on the record that RECV3 stored. -/
theorem getSettingsCompletes : Obligations.GetSettingsCompletes := by
  intro s k t t' r w w' rest hidle hbuf hw hr hs
  obtain ⟨a, u, ha, hu, heu, hueq⟩ := command_then_record (s := s.accept) CommandCode.statusRequest.code hw hr hs
  have hrun : getSettings s.accept = .done () (decStatus u) := by
    rw [getSettings, ha, Run.within_done, getRecord, hu, Run.within_done, getDone]
  obtain ⟨hexec, hemits⟩ := exec_of_done (i := .getSettings) rfl rfl hidle hrun (heu.congr rfl rfl)
  have hdec : decStatus u = { u with st := statusOf s.params.layout r } := by
    rw [hueq]
    exact decStatus_afterRecord hbuf
  have hbytes : (decStatus u).succeed.rxbuf = s.rxbuf.withRecord r := by rw [hdec, hueq]; rfl
  have hst : (decStatus u).succeed.st = statusOf s.params.layout r := by rw [hdec]; rfl
  obtain ⟨h0, h1, h2⟩ := Memory.read_withRecord r hbuf
  refine ⟨_, hexec, hemits, ?_, hbytes ▸ h0, hbytes ▸ h1, hbytes ▸ h2, ?_⟩
  · rw [hdec, hueq]
    rfl
  · rw [State.settings, hst]
    rfl

end Sys2Proof.Machine
end

section
/-! READDATA (R139 to R141) and the Packet Decoder (45_packet_decoder.md). -/

namespace Sys2Proof.Machine

/-! READDATA -/

theorem pinRead_of_wire {p : Line} {s : State} {l : Levels} {rest : List Levels} (h : s.wire = l :: rest) :
    pinRead p s = .done (l.at p) (s.took p l rest) := by
  rw [pinRead, h]

@[simp] theorem streamDecide_low (s : State) : streamDecide false s = streamRecord s := rfl

@[simp] theorem streamDecide_high (s : State) : streamDecide true s = .raised .noData s := rfl

/-- The decision of READDATA in streaming mode on the one sample of the clock (R141). -/
theorem readStream_of_wire {s : State} {l : Levels} {rest : List Levels} (h : s.wire = l :: rest) :
    readStream s = streamDecide l.clk (s.took .clk l rest) := by
  rw [readStream, pinRead_of_wire h, Run.within_done]
  rfl

theorem readData_streaming {s : State} (h : s.session = .streaming) : readData s = readStream s := by
  rw [readData, State.mode, h]
  rfl

theorem readData_remote {s : State} (h : s.session ≠ .streaming) : readData s = readRemote s := by
  have hmode : s.mode = .remote := by
    rw [State.mode]
    cases hs : s.session with
    | streaming => exact absurd hs h
    | uninit => rfl
    | remoteIdle => rfl
    | remoteReading => rfl
  rw [readData, hmode]

/-- Entering REMOTE_READING writes SESSION only (R140). -/
theorem enterReading_eq (s : State) : enterReading s = { s with session := (enterReading s).session } := by
  unfold enterReading
  split <;> rfl

/-- Settles O39: the command and its record run as GETSETTINGS's do, SESSION being written before and restored after. -/
theorem readDataRemoteCompletes : Obligations.ReadDataRemoteCompletes := by
  intro s k t t' r w w' rest hidle hbuf hmode hw hr hs
  have henter := enterReading_eq s.accept
  obtain ⟨a, u, ha, hu, heu, hueq⟩ := command_then_record (s := enterReading s.accept) CommandCode.readData.code
    (t := t) (t' := t') (r := r) (k := k) (w := w) (w' := w') (rest := rest)
    (by rw [henter]; exact hw) (by rw [henter]; exact hr) (by rw [henter]; exact hs)
  have hdec : decMotion u = { u with mv := motionOf s.params s.mv r } := by
    rw [hueq, henter]
    exact decMotion_afterRecord hbuf
  have hrun : readData s.accept = .done () (restoreSession s.session (decMotion u)) := by
    rw [readData_remote (s := s.accept) hmode, readRemote, ha, Run.within_done, readRecord, hu, Run.within_done, readDone]
    rfl
  have hemits : Emits s.accept (restoreSession s.session (decMotion u)) (w.length + w'.length)
      (exchangeOutputs (k + 1) 0xEB ++ recvOutputs ++ recvOutputs ++ recvOutputs) := by
    rw [henter] at heu
    exact heu.congr rfl rfl
  obtain ⟨hexec, hout⟩ := exec_of_done (i := .readData) rfl rfl hidle hrun hemits
  refine ⟨_, hexec, hout, ?_⟩
  rw [hdec, hueq, henter]
  rfl

/-- Settles O40: the one sample is low, and the record follows without a command. -/
theorem readDataStreamCompletes : Obligations.ReadDataStreamCompletes := by
  intro s t r poll w rest hidle hbuf hmode hlow hr hs
  obtain ⟨u, hu, heu, hueq⟩ := recv3_done (s := s.accept.took .clk poll (w ++ rest)) (rest := rest) hr rfl
  have hdec : decMotion u = { u with mv := motionOf s.params s.mv r } := by
    rw [hueq]
    exact decMotion_afterRecord hbuf
  have hpoll : Emits s.accept (s.accept.took .clk poll (w ++ rest)) 1 [] := ⟨[.read .clk poll.clk], rfl, rfl, rfl⟩
  have hrun : readData s.accept = .done () (decMotion u) := by
    rw [readData_streaming (s := s.accept) hmode, readStream_of_wire (s := s.accept) hs, hlow, streamDecide_low, streamRecord,
      hu, Run.within_done, streamDone]
  obtain ⟨hexec, hout⟩ := exec_of_done (i := .readData) rfl rfl hidle hrun
    ((hpoll.trans heu).congr_out (Nat.add_comm _ _) rfl)
  refine ⟨_, hexec, hout, ?_⟩
  rw [hdec, hueq]
  rfl

/-- Settles O41: COMPARE of the one sample raises NO_DATA. -/
theorem readDataNoData : Obligations.ReadDataNoData := by
  intro s poll rest hidle hmode hhigh hs
  have hrun : readData s.accept = .raised .noData (s.accept.took .clk poll rest) := by
    rw [readData_streaming (s := s.accept) hmode, readStream_of_wire (s := s.accept) hs, hhigh, streamDecide_high]
  have hport : portOp .readData s.accept = (s.accept.took .clk poll rest).fail .noData :=
    congrArg (conclude · Phase.session noResult) hrun
  rw [exec_idle (i := .readData) rfl hidle, hport]
  exact congrArg (fun c => Host.Outcome.next (State.fail .noData { s with wire := rest, trace := .read .clk c :: s.trace })) hhigh

/-! The Packet Decoder -/

/-- Settles O46: a filled buffer gives the record that is read, and nine bits hold each displacement. -/
theorem decodersComplete : Obligations.DecodersComplete := by
  intro s b0 b1 b2 hidle hcnt h0 h1 h2
  have hrecord : recordOf s.accept = ⟨b0, b1, b2⟩ := by rw [(recordOf_filled (s := s.accept) hcnt).1, h0, h1, h2]; rfl
  have hdraws : recordDraws s.accept = s.draws := (recordOf_filled hcnt).2
  have hst : portOp .decStatus s.accept = (decStatus s.accept).succeed := rfl
  have hmv : portOp .decMotion s.accept = (decMotion s.accept).succeed := rfl
  refine ⟨?_, ⟨displacement9 (b0.getLsbD s.params.layout.mvXSign) b1, displacement9 (b0.getLsbD s.params.layout.mvYSign) b2, ?_,
    displacement9_toInt _ _, displacement9_toInt _ _⟩, rfl⟩
  · rw [exec_idle rfl hidle, hst, decStatus, hrecord, hdraws]
    rfl
  · rw [exec_idle rfl hidle, hmv, decMotion, hrecord, hdraws]
    rfl

/-- Settles O47: the record is the three free values drawn. -/
theorem decodersOnAnUnfilledBuffer : Obligations.DecodersOnAnUnfilledBuffer := by
  intro s hidle hcnt
  have hdraws : recordDraws s.accept = s.draws + 3 := if_neg hcnt
  have hst : portOp .decStatus s.accept = (decStatus s.accept).succeed := rfl
  have hmv : portOp .decMotion s.accept = (decMotion s.accept).succeed := rfl
  refine ⟨⟨recordOf s.accept, ?_⟩, ⟨recordOf s.accept, ?_⟩⟩
  · rw [exec_idle rfl hidle, hst, decStatus, hdraws]
    rfl
  · rw [exec_idle rfl hidle, hmv, decMotion, hdraws]
    rfl

/-- A bit that the mask leaves out is not changed by what the mask is disjoint from. -/
theorem getLsbD_xor_masked {b m k : Byte} {i : Nat} (h : m &&& k = 0) (hk : k.getLsbD i = true) :
    (b ^^^ m).getLsbD i = b.getLsbD i := by
  rw [BitVec.getLsbD_xor, getLsbD_of_and_eq_zero h hk, Bool.xor_false]

/-- Settles O48: every position of the reference LAYOUT but those of the changed bits is in the mask. -/
theorem unusedAndOverflowBits : Obligations.UnusedAndOverflowBits := by
  intro r m p old hlayout
  refine ⟨fun hm => ?_, fun hm => ?_, fun hm => ?_⟩
  · simp (disch := decide) only [statusOf, hlayout, Layout.reference, getLsbD_xor_masked hm]
  · simp (disch := decide) only [motionOf, hlayout, Layout.reference, getLsbD_xor_masked hm]
  · simp (disch := decide) only [motionOf, hlayout, Layout.reference, getLsbD_xor_masked hm]
    rfl

end Sys2Proof.Machine
end

section
/-! Frames on the wire (30_encoding.md section 1): one that the device sends, and one that it takes. -/

namespace Sys2Proof.Machine

/-! A frame from the device -/

theorem deliver_idle {s : State} (ls : List Levels) (hidle : s.busy = false) : deliver ls s = s :=
  if_neg (ne_true_of_eq_false hidle)

theorem deliver_recvByte {s : State} {p : RecvBytePhase} {ls : List Levels} (hb : s.busy = true) (hp : s.phase = .recvByte p)
    (hw : s.wire = []) :
    deliver ls s = conclude (resumeRecvByte p ({ s with wire := ls } : State).goOn) .recvByte resultByte := by
  rw [deliver_eq hb hw (by rw [hp]; simp)]
  exact resume_recvByte (s := { s with wire := ls }) hp

/-- The eleven bits of a frame word are its start bit's cell and ten more (R62). -/
theorem frameCells_cons (w : BitVec 11) :
    ((List.range 11).map fun k => receiveCell (w.getLsbD (10 - k))).flatten =
      receiveCell (w.getLsbD 10) ++ ((List.range 10).map fun k => receiveCell (w.getLsbD (9 - k))).flatten := rfl

/-- A frame that comes to the RECVBYTE that waits for it (R105). -/
theorem frameRx_received {s : State} (v : Byte) (p t : Bool) (hb : s.busy = true) (hp : s.phase = .recvByte (.cell .waitLow))
    (hbit : s.bitcnt = 0) (hw : s.wire = []) :
    ∃ u, exec (.frameRx v p t) s = .next (conclude (recvFinish p t u) .recvByte resultByte) ∧ Emits s u 33 [] ∧
      u = { s with rxr := v, par := oddParity v, bitcnt := 10, rxbit := t, trace := u.trace, waitcnt := 0, phase := .idle } := by
  have hwire : ({ s with wire := frameRxLevels v p t } : State).goOn.wire = frameRxLevels v p t ++ s.wire := by
    rw [hw, List.append_nil]
    rfl
  obtain ⟨u, hu, heu, hueq⟩ := recvCells_least hwire
  refine ⟨u, ?_, heu.congr rfl rfl, hueq⟩
  have hexec : exec (.frameRx v p t) s = .next (deliver (frameRxLevels v p t) s) := rfl
  have hrun := (resumeRecvByte_frame (s := ({ s with wire := frameRxLevels v p t } : State).goOn) hbit hwire).trans hu
  rw [hexec, deliver_recvByte hb hp hw, hrun]

/-- Settles O52: the cells of the frame are received as those of RECVBYTE; a start bit of 1 ends it after its own cell. -/
theorem frameRxIsReceived : Obligations.FrameRxIsReceived := by
  refine ⟨fun s v p t hb hp hbit hw => ?_, fun s w rest hin hstart => ?_⟩
  · obtain ⟨u, hexec, heu, hueq⟩ := frameRx_received v p t hb hp hbit hw
    have hparams : u.params = s.params := by rw [hueq]
    rw [recvFinish_eq (v := v) (by rw [hueq]) (by rw [hueq]), hparams] at hexec
    refine ⟨_, hexec, ?_, ?_⟩
    · split_ifs <;> exact heu.congr rfl rfl
    · split_ifs
      · exact (congrArg (State.fail .parity) hueq).trans rfl
      · exact (congrArg (State.fail .framing) hueq).trans rfl
      · exact (congrArg (fun r => (resultByte v r).succeed) hueq).trans rfl
  · rw [step_frameRx hin]
    refine ⟨fun hidle => congrArg Host.Outcome.next (deliver_idle (s := { s with inbox := rest }) _ hidle), fun hb hp hbit hw => ?_⟩
    obtain ⟨u, hu, heu, hueq⟩ := resumeRecvByte_badStart
      (s := ({ s with inbox := rest, wire := ((List.range 11).map fun k => receiveCell (w.getLsbD (10 - k))).flatten } :
        State).goOn)
      (rest := ((List.range 10).map fun k => receiveCell (w.getLsbD (9 - k))).flatten) hbit
      (by rw [← hstart]; exact frameCells_cons w)
    refine ⟨u.fail .framing, ?_, heu.congr rfl rfl, (congrArg (State.fail .framing) hueq).trans rfl⟩
    rw [deliver_recvByte (s := { s with inbox := rest }) hb hp hw]
    exact congrArg (fun r => Host.Outcome.next (conclude r Phase.recvByte resultByte)) hu

/-! A frame to the device -/

theorem exec_frameTx_idle {s : State} (v : Byte) (a : Bool) (hidle : s.busy = false) :
    exec (.frameTx v (oddParity v) a) s = exec (.sendByte v) (s.more (frameTxLevels a)) := by
  show execFrameTx v (oddParity v) a s = _
  rw [execFrameTx, if_neg (not_not_intro rfl), if_neg (ne_true_of_eq_false hidle)]
  rfl

/-- What a block offers is a frame of its own, which it does not offer while it polls. -/
theorem pollLead_of_offered {s : State} {v : Byte} (h : s.frameOffered = some v) : pollLead s = [] := by
  unfold pollLead
  split
  · rename_i hp
    rw [State.frameOffered, hp] at h
    cases h
  · rfl

theorem exec_frameTx_offered {s : State} {v : Byte} (a : Bool) (hb : s.busy = true) (h : s.frameOffered = some v) :
    exec (.frameTx v (oddParity v) a) s = .next (resume (s.more (frameTxLevels a))) := by
  show execFrameTx v (oddParity v) a s = _
  rw [execFrameTx, if_neg (not_not_intro rfl), if_pos hb, if_pos h, deliver, if_pos hb, pollLead_of_offered h]
  rfl

theorem exec_frameTx_refused {s : State} {v : Byte} {p : Bool} (a : Bool)
    (h : p ≠ oddParity v ∨ (s.busy = true ∧ s.frameOffered ≠ some v)) : exec (.frameTx v p a) s = .next s := by
  show execFrameTx v p a s = _
  rw [execFrameTx]
  split_ifs with hpar hb hoff
  · rfl
  · exact absurd h (by simp [hpar, hoff])
  · rfl
  · exact absurd h (by simp [hpar, hb])

/-- A SENDBYTE that waits at its first cell offers its frame (R61). -/
theorem State.frameOffered_of_sending {s : State} {b : Bool} (h : s.phase.sending? = some (.cell (.waitLow b)))
    (hbit : s.bitcnt = 0) : s.frameOffered = some s.txr := by
  rw [State.frameOffered, h]
  exact if_pos hbit

section
variable {s : State} {v : Byte} (hsend : s.phase.sending? = some (.cell (.waitLow (v.getLsbD 0)))) (hbit : s.bitcnt = 0)
  (htxr : s.txr = v) (hpar : s.par = !(v.getLsbD 0))
include hsend hbit htxr hpar

/-- The offered frame is taken and not acknowledged, whichever operation sends it (R103, R125, R140). -/
theorem resume_frame_refused (hw : s.wire = frameTxLevels true) :
    Emits s (resume s) 23 ((sendOutputs v).drop 4) ∧
      resume s = State.fail .nak { s with par := oddParity v, bitcnt := 10, ackbit := true, rxbit := true, dataDrv := .inFloat
                                          wire := [], trace := (resume s).trace, waitcnt := 0
                                          session := s.phase.sessionAfter false s.session } := by
  cases hp : s.phase with
  | idle => rw [hp] at hsend; cases hsend
  | sendBit p => rw [hp] at hsend; cases hsend
  | recvBit p => rw [hp] at hsend; cases hsend
  | recvByte p => rw [hp] at hsend; cases hsend
  | sendByte p =>
    rw [hp] at hsend
    obtain rfl := Option.some.inj hsend
    obtain ⟨t, ht, het, hteq⟩ := resumeSendByte_frame (s := s.goOn) (a := true) (rest := []) hbit htxr hpar
      (hw.trans (List.append_nil _).symm)
    rw [resume_sendByte hp, ht]
    exact ⟨het.congr rfl rfl, (congrArg (State.fail .nak) hteq).trans rfl⟩
  | command p =>
    rw [hp] at hsend
    obtain ⟨t, ht, het, hteq⟩ := resumeCommand_nak (s := s.goOn) hbit htxr hpar hw
    rw [resume_command hp, ht p hsend]
    exact ⟨het.congr rfl rfl, (congrArg (State.fail .nak) hteq).trans rfl⟩
  | session p =>
    rw [hp] at hsend
    obtain ⟨t, ht, het, hteq⟩ := resumeCommand_nak (s := s.goOn) hbit htxr hpar hw
    rw [resume_session hp, resumeSession_sendRaised hsend ht (by rw [hteq])]
    refine ⟨het.congr rfl rfl, ?_⟩
    exact (congrArg (fun t => State.fail .nak { t with session := p.sessionAfter false s.session }) hteq).trans rfl

/-- The offered frame of a handshake is taken and acknowledged: the acknowledge byte is awaited (R103, R120). -/
theorem resume_frame_taken (hw : s.wire = frameTxLevels false)
    (hport : s.phase ≠ .sendByte (.cell (.waitLow (v.getLsbD 0)))) :
    Emits s (resume s) 23 ((sendOutputs v).drop 4 ++ recvOutputs) ∧
      resume s = { s with par := oddParity v, bitcnt := 0, ackbit := false, rxbit := false, clkDrv := .inFloat, dataDrv := .inFloat
                          wire := [], trace := (resume s).trace, waitcnt := 0, phase := s.phase.awaitingByte } := by
  obtain ⟨t, ht, het, hteq⟩ := resumeCommand_taken (s := s.goOn) hbit htxr hpar hw
  cases hp : s.phase with
  | idle => rw [hp] at hsend; cases hsend
  | sendBit p => rw [hp] at hsend; cases hsend
  | recvBit p => rw [hp] at hsend; cases hsend
  | recvByte p => rw [hp] at hsend; cases hsend
  | sendByte p =>
    rw [hp] at hsend hport
    exact absurd (congrArg Phase.sendByte (Option.some.inj hsend)) hport
  | command p =>
    rw [hp] at hsend
    rw [resume_command hp, ht p hsend]
    exact ⟨het.congr rfl rfl, (congrArg (State.hold (.command p.awaitingByte)) hteq).trans rfl⟩
  | session p =>
    rw [hp] at hsend
    rw [resume_session hp, resumeSession_sendWaits hsend ht]
    exact ⟨het.congr rfl rfl, (congrArg (State.hold (.session p.awaitingByte)) hteq).trans rfl⟩

end

/-- The offered frame of a SENDBYTE requested on the port is taken and acknowledged (R103). -/
theorem resume_frame_sent {s : State} {v : Byte} (hp : s.phase = .sendByte (.cell (.waitLow (v.getLsbD 0)))) (hbit : s.bitcnt = 0)
    (htxr : s.txr = v) (hpar : s.par = !(v.getLsbD 0)) (hw : s.wire = frameTxLevels false) :
    Emits s (resume s) 23 ((sendOutputs v).drop 4) ∧
      resume s = State.succeed { s with par := oddParity v, bitcnt := 10, ackbit := false, rxbit := false, dataDrv := .inFloat
                                        wire := [], trace := (resume s).trace, waitcnt := 0 } := by
  obtain ⟨t, ht, het, hteq⟩ := resumeSendByte_frame (s := s.goOn) (a := false) (rest := []) hbit htxr hpar
    (hw.trans (List.append_nil _).symm)
  rw [resume_sendByte hp, ht]
  exact ⟨het.congr rfl rfl, (congrArg State.succeed hteq).trans rfl⟩

/-- A FRAME_TX that an idle block sends, with the least clocking. -/
theorem exec_sendByte_least {s : State} (v : Byte) (a : Bool) (hidle : s.busy = false) (hw : s.wire = frameTxLevels a) :
    ∃ u, exec (.sendByte v) s = .next u ∧ Emits s u 23 (sendOutputs v) ∧
      u = (if a then State.fail .nak { s.afterSend u v a [] with waitcnt := 0 }
        else State.succeed { s.afterSend u v a [] with waitcnt := 0 }) := by
  obtain ⟨t, ht, het, hteq⟩ := sendByte_least (s := s.accept) (v := v) (a := a) (rest := [])
    (hw.trans (List.append_nil _).symm)
  have hport : portOp (.sendByte v) s.accept = conclude (sendByte v s.accept) .sendByte noResult := rfl
  rw [exec_idle rfl hidle, hport, ht]
  cases a with
  | true => exact ⟨_, rfl, het.congr rfl rfl, (congrArg (State.fail .nak) hteq).trans rfl⟩
  | false => exact ⟨_, rfl, het.congr rfl rfl, (congrArg State.succeed hteq).trans rfl⟩

/-- Settles O53: whatever sends the frame that is offered goes on with the device's side of it, and it is offered at its first
cell only. -/
theorem frameTxPasses : Obligations.FrameTxPasses := by
  refine ⟨fun s v a hidle hw => ?_, fun s v a hidle => exec_frameTx_idle v a hidle,
    fun s v a hb hoff => exec_frameTx_offered a hb hoff, fun s v hb hsend hbit htxr hpar hw => ?_,
    fun s v p a h => exec_frameTx_refused a h⟩
  · have hmore : (s.more (frameTxLevels a)).wire = frameTxLevels a := by rw [State.more, hw]; rfl
    obtain ⟨u, hexec, heu, hueq⟩ := exec_sendByte_least v a (s := s.more (frameTxLevels a)) hidle hmore
    exact ⟨u, (exec_frameTx_idle v a hidle).trans hexec, heu.congr rfl rfl, hueq⟩
  · have hoff : s.frameOffered = some v := htxr ▸ State.frameOffered_of_sending hsend hbit
    have hmore : ∀ a, (s.more (frameTxLevels a)).wire = frameTxLevels a := fun a => by rw [State.more, hw]; rfl
    rw [exec_frameTx_offered true hb hoff, exec_frameTx_offered false hb hoff, hw]
    refine ⟨?_, fun hport => ?_, fun hport => ?_⟩
    · obtain ⟨hemits, heq⟩ := resume_frame_refused (s := s.more _) hsend hbit htxr hpar (hmore true)
      exact ⟨_, rfl, hemits.congr rfl rfl, heq⟩
    · obtain ⟨hemits, heq⟩ := resume_frame_sent (s := s.more _) hport hbit htxr hpar (hmore false)
      exact ⟨_, rfl, hemits.congr rfl rfl, heq⟩
    · obtain ⟨hemits, heq⟩ := resume_frame_taken (s := s.more _) hsend hbit htxr hpar (hmore false) hport
      exact ⟨_, rfl, hemits.congr rfl rfl, heq⟩

end Sys2Proof.Machine
end

section
/-! Response bytes and packets (30_encoding.md sections 4 and 6), delivered with the least clocking to an operation that waits
for them. -/

namespace Sys2Proof.Machine

/-! A response byte to a command -/

/-- A command that waits for its acknowledge byte stands at COMPARE with the byte that is delivered (R120). -/
theorem deliver_command_byte {s : State} {which : WhichByte} (r : Byte) (hb : s.busy = true)
    (hp : s.phase = .command { which := which, ack := .recvAck (.cell .waitLow) }) (hbit : s.bitcnt = 0) (hw : s.wire = []) :
    ∃ u fuel, deliver (goodFrame r) s =
        conclude ((ackCompare (ackLoop fuel which) r u).within id fun _ s => afterAcked which s) .command noResult ∧
      Emits s u 33 [] ∧
      u = { s with rxr := r, par := oddParity r, bitcnt := 10, rxbit := true, trace := u.trace, waitcnt := 0, phase := .idle } := by
  obtain ⟨u, ⟨fuel, hu⟩, heu, hueq⟩ := resumeCommand_byte (which := which) (r := r)
    (s := ({ s with wire := goodFrame r } : State).goOn) hbit rfl
  refine ⟨u, fuel, ?_, heu.congr rfl rfl, ?_⟩
  · rw [deliver_command hb hp hw, hu]
  · rw [hueq, hw]
    rfl

/-- SENDACKED with no answer at hand makes its start condition and waits at the first cell (R100, R120). -/
theorem sendAcked_starved (which : WhichByte) (x : Byte) {s : State} (hw : s.wire = []) :
    sendAcked which x s = .waiting { which := which, ack := .send (.cell (.waitLow (x.getLsbD 0))) }
      { sendAccumulate (sendStart x { s with cmdr := x, retry := 0 }) with waitcnt := 0 } :=
  ackLoop_starved (s := { s with cmdr := x, retry := 0 }) hw

/-- Settles O54: COMPARE of the byte delivered ends the command, goes on to the parameter, or begins the byte again. -/
theorem responsesToACommand : Obligations.ResponsesToACommand := by
  intro s which hb hp hbit hw
  refine ⟨fun hlast => ?_, fun p hwhich => ?_, ?_, fun hlim => ?_⟩
  · obtain ⟨u, fuel, hu, heu, hueq⟩ := deliver_command_byte ResponseCode.ack.code hb hp hbit hw
    have hdone : ∀ t, afterAcked which t = .done () t := by rintro t; obtain rfl | rfl := hlast <;> rfl
    rw [ackCompare_ack, Run.within_done, hdone] at hu
    refine ⟨_, congrArg Host.Outcome.next hu, heu.congr rfl rfl, ?_⟩
    exact (congrArg (fun t => State.succeed { t with ackr := 0xFA }) hueq).trans rfl
  · subst hwhich
    obtain ⟨u, fuel, hu, heu, hueq⟩ := deliver_command_byte ResponseCode.ack.code hb hp hbit hw
    have hwire : u.wire = [] := by rw [hueq]; exact hw
    rw [ackCompare_ack, Run.within_done, afterAcked,
      sendAcked_starved .parameter p (s := { u with ackr := ResponseCode.ack.code }) hwire] at hu
    have hstart := sendStart_emits p { u with ackr := ResponseCode.ack.code, cmdr := p, retry := 0 }
    refine ⟨_, congrArg Host.Outcome.next hu, (heu.trans (hstart.congr (s' := u) rfl rfl)).congr rfl rfl, ?_⟩
    rw [hueq]
    exact ⟨hb, rfl, rfl, rfl, rfl⟩
  · obtain ⟨u, fuel, hu, heu, hueq⟩ := deliver_command_byte ResponseCode.error.code hb hp hbit hw
    rw [ackCompare_other (by decide) (by decide), Run.within_raised] at hu
    refine ⟨_, congrArg Host.Outcome.next hu, heu.congr rfl rfl, ?_⟩
    exact (congrArg (fun t => State.fail .protocol { t with ackr := 0xFC }) hueq).trans rfl
  · obtain ⟨u, fuel, hu, heu, hueq⟩ := deliver_command_byte ResponseCode.resend.code hb hp hbit hw
    have hwire : u.wire = [] := by rw [hueq]; exact hw
    have hcmdr : u.cmdr = s.cmdr := by rw [hueq]
    rw [ackCompare_resend (by rw [hueq]; exact hlim),
      ackLoop_starved (s := { u with ackr := ResponseCode.resend.code, retry := u.retry + 1 }) hwire, Run.within_waiting] at hu
    have hstart := sendStart_emits u.cmdr { u with ackr := ResponseCode.resend.code, retry := u.retry + 1 }
    rw [hcmdr] at hu hstart
    refine ⟨_, congrArg Host.Outcome.next hu, (heu.trans (hstart.congr (s' := u) rfl rfl)).congr rfl rfl, ?_⟩
    rw [hueq]
    exact ⟨hb, rfl, rfl, rfl, rfl⟩

/-! A plain byte to RESET -/

/-- Settles O55: COMPARE of the byte delivered passes, and RESET waits in its next part. -/
theorem responsesToAReset : Obligations.ResponsesToAReset := by
  intro s hb hbit hw
  refine ⟨fun hp => ?_, fun hp => ?_⟩
  · obtain ⟨u, hu, heu, hueq⟩ := resumeRecvByte_least (v := 0xAA) (rest := [])
      (s := ({ s with wire := goodFrame 0xAA } : State).goOn) hbit (List.append_nil _).symm
    have hdel : deliver (goodFrame 0xAA) s =
        ({ recvOpen u with waitcnt := 0 } : State).hold (.session (.resetIdentity (.cell .waitLow))) := by
      rw [deliver_session hb hp nofun hw, resumeSession, hu, Run.within_done, resetSelfTest_passed,
        recvByte_starved (by rw [hueq]), Run.within_waiting, conclude_waiting]
    have hopen : Emits u (recvOpen u) 0 recvOutputs := ⟨[.set .data .inFloat, .set .clk .inFloat], rfl, rfl, rfl⟩
    refine ⟨_, congrArg Host.Outcome.next hdel, (heu.trans hopen).congr rfl rfl, ?_⟩
    rw [hueq]
    exact ⟨hb, rfl, rfl, rfl, rfl⟩
  · obtain ⟨u, hu, heu, hueq⟩ := resumeRecvByte_least (v := 0x00) (rest := [])
      (s := ({ s with wire := goodFrame 0x00 } : State).goOn) hbit (List.append_nil _).symm
    have hdel : deliver (goodFrame 0x00) s =
        ({ sendAccumulate (sendStart 0xF0 { u with cmdr := 0xF0, retry := 0 }) with waitcnt := 0 } : State).hold
          (.session (.resetRemote { which := .command, ack := .send (.cell (.waitLow false)) })) := by
      rw [deliver_session hb hp nofun hw, resumeSession, hu, Run.within_done, resetIdentity_isMouse, resetRemote, sendCommand,
        sendAcked_starved _ _ (by rw [hueq]), Run.within_waiting, conclude_waiting]
      rfl
    have hstart := sendStart_emits 0xF0 { u with cmdr := 0xF0, retry := 0 }
    refine ⟨_, congrArg Host.Outcome.next hdel, (heu.trans (hstart.congr (s' := u) rfl rfl)).congr rfl rfl, ?_⟩
    rw [hueq]
    exact ⟨hb, rfl, rfl, rfl, rfl⟩

/-! A record -/

/-- The least clocking spins in no wait. -/
theorem afterRecord_of_least {s u : State} {r : Record} (h : u = { s.afterRecord u r true [] with waitcnt := 0 }) :
    u = s.afterRecord u r true [] := by
  have hcount : u.waitcnt = 0 := by rw [h]
  rw [State.afterRecord, hcount]
  exact h

theorem decStatus_of_least {s u : State} {r : Record} (hbuf : Memory.wf s.rxbuf = true)
    (h : u = { s.afterRecord u r true [] with waitcnt := 0 }) : decStatus u = { u with st := statusOf s.params.layout r } := by
  rw [afterRecord_of_least h]
  exact decStatus_afterRecord hbuf

theorem decMotion_of_least {s u : State} {r : Record} (hbuf : Memory.wf s.rxbuf = true)
    (h : u = { s.afterRecord u r true [] with waitcnt := 0 }) : decMotion u = { u with mv := motionOf s.params s.mv r } := by
  rw [afterRecord_of_least h]
  exact decMotion_afterRecord hbuf

/-- A pending poll is answered low in front of what is delivered (R141, log 21). -/
theorem deliver_poll {s : State} {ls : List Levels} (hb : s.busy = true) (hp : s.phase = .session .streamPoll)
    (hw : s.wire = []) :
    deliver ls s =
      conclude (readStream ({ s with wire := { clk := false, data := false } :: ls } : State).goOn) .session noResult := by
  have hlead : pollLead s = [{ clk := false, data := false }] := by
    unfold pollLead
    rw [hp]
  rw [deliver, if_pos hb, hlead, hw]
  exact resume_session (s := { s with wire := { clk := false, data := false } :: ls }) hp

/-- The three frames of a record, each in front of the next. -/
theorem recordLevels_eq (b0 b1 b2 : Byte) :
    goodFrame b0 ++ goodFrame b1 ++ goodFrame b2 = goodFrame b0 ++ (goodFrame b1 ++ (goodFrame b2 ++ [])) := by simp

/-- Settles O56: the record is received as RECV3 receives it, and the decoder runs on it. -/
theorem packetsAreReceived : Obligations.PacketsAreReceived := by
  intro s b0 b1 b2 hb hw hbuf
  refine ⟨fun hp hbit => ?_, fun s0 hp hbit => ?_, fun hp hmode => ?_⟩
  · obtain ⟨u, hu, heu, hueq⟩ := resumeRecv3_least (r := ⟨b0, b1, b2⟩) (rest := [])
      (s := ({ s with wire := goodFrame b0 ++ goodFrame b1 ++ goodFrame b2 } : State).goOn) hbit (recordLevels_eq b0 b1 b2)
    have hdec : decStatus u = { u with st := statusOf s.params.layout ⟨b0, b1, b2⟩ } := decStatus_of_least (s := s.goOn) hbuf hueq
    have hdel : deliver (goodFrame b0 ++ goodFrame b1 ++ goodFrame b2) s = (decStatus u).succeed := by
      rw [deliver_session hb hp nofun hw, resumeSession, hu, Run.within_done, getDone]
      rfl
    rw [hdec] at hdel
    refine ⟨_, congrArg Host.Outcome.next hdel, heu.congr rfl rfl, ?_⟩
    exact (congrArg (fun t => State.succeed { t with st := statusOf s.params.layout ⟨b0, b1, b2⟩ }) hueq).trans rfl
  · obtain ⟨u, hu, heu, hueq⟩ := resumeRecv3_least (r := ⟨b0, b1, b2⟩) (rest := [])
      (s := ({ s with wire := goodFrame b0 ++ goodFrame b1 ++ goodFrame b2 } : State).goOn) hbit (recordLevels_eq b0 b1 b2)
    have hdec : decMotion u = { u with mv := motionOf s.params s.mv ⟨b0, b1, b2⟩ } := decMotion_of_least (s := s.goOn) hbuf hueq
    have hdel : deliver (goodFrame b0 ++ goodFrame b1 ++ goodFrame b2) s = (restoreSession s0 (decMotion u)).succeed := by
      rw [deliver_session hb hp nofun hw, resumeSession, hu, Run.within_done, readDone]
      rfl
    rw [hdec] at hdel
    refine ⟨_, congrArg Host.Outcome.next hdel, heu.congr rfl rfl, ?_⟩
    exact (congrArg (fun t => State.succeed { t with mv := motionOf s.params s.mv ⟨b0, b1, b2⟩, session := s0 }) hueq).trans rfl
  · obtain ⟨u, hu, heu, hueq⟩ := recv3_least (r := ⟨b0, b1, b2⟩) (rest := [])
      (s := s.goOn.took .clk { clk := false, data := false } (goodFrame b0 ++ goodFrame b1 ++ goodFrame b2))
      (recordLevels_eq b0 b1 b2)
    have hdec : decMotion u = { u with mv := motionOf s.params s.mv ⟨b0, b1, b2⟩ } := decMotion_of_least (s := s.goOn) hbuf hueq
    have hdel : deliver (goodFrame b0 ++ goodFrame b1 ++ goodFrame b2) s = (decMotion u).succeed := by
      rw [deliver_poll hb hp hw, readStream_of_wire rfl, streamDecide_low, streamRecord]
      exact congrArg (fun run => conclude (run.within .streamRecv fun _ s => streamDone s) .session noResult) hu
    have hpoll : Emits s (s.goOn.took .clk { clk := false, data := false } (goodFrame b0 ++ goodFrame b1 ++ goodFrame b2)) 1 [] :=
      ⟨[.read .clk false], rfl, rfl, rfl⟩
    rw [hdec] at hdel
    refine ⟨_, congrArg Host.Outcome.next hdel, (hpoll.trans heu).congr rfl rfl, ?_⟩
    exact (congrArg (fun t => State.succeed { t with mv := motionOf s.params s.mv ⟨b0, b1, b2⟩ }) hueq).trans rfl

end Sys2Proof.Machine
end

section
/-! What passes on the wire leaves unchanged while an operation runs (10_state.md section 10, 20_memory.md section 4). -/

namespace Sys2Proof.Machine

/-! What an operation that goes on may write, by where it stands -/

section
variable {s : State}

theorem resume_sendBit_leaves {p : SendBitPhase} (h : s.phase = .sendBit p) :
    ∃ u b ok err ph, SendBitLeaves s.goOn u ∧ resume s = { u with busy := b, ok := ok, err := err, phase := ph } := by
  rw [resume_sendBit h]
  exact conclude_noResult_leaves (resumeSendBit_stays p s.goOn)

theorem resume_recvBit_leaves {p : RecvBitPhase} (h : s.phase = .recvBit p) :
    ∃ u b ok err ph, RecvBitWrites s.goOn u ∧ resume s = { u with busy := b, ok := ok, err := err, phase := ph } := by
  rw [resume_recvBit h]
  exact conclude_leaves (resumeRecvBit_stays p s.goOn) (fun _ h => h.writes) fun b _ h => h.writes_result b

theorem resume_sendByte_leaves {p : SendBytePhase} (h : s.phase = .sendByte p) :
    ∃ u b ok err ph, SendByteLeaves s.goOn u ∧ resume s = { u with busy := b, ok := ok, err := err, phase := ph } := by
  rw [resume_sendByte h]
  exact conclude_noResult_leaves (resumeSendByte_stays p s.goOn)

theorem resume_recvByte_leaves {p : RecvBytePhase} (h : s.phase = .recvByte p) :
    ∃ u b ok err ph, RecvByteWrites s.goOn u ∧ resume s = { u with busy := b, ok := ok, err := err, phase := ph } := by
  rw [resume_recvByte h]
  exact conclude_leaves (resumeRecvByte_stays p s.goOn) (fun _ h => h.writes) fun v _ h => h.writes_result v

theorem resume_command_leaves {p : CommandPhase} (h : s.phase = .command p) :
    ∃ u b ok err ph, CommandLeaves s.goOn u ∧ resume s = { u with busy := b, ok := ok, err := err, phase := ph } := by
  rw [resume_command h]
  exact conclude_noResult_leaves (resumeCommand_stays p s.goOn)

theorem resume_session_leaves {q : SessionPhase} (h : s.phase = .session q) :
    ∃ u b ok err ph, SessionLeaves s.goOn u ∧ resume s = { u with busy := b, ok := ok, err := err, phase := ph } := by
  rw [resume_session h]
  exact conclude_noResult_leaves (resumeSession_meets q s.goOn).stays

theorem resume_session_writes {q : SessionPhase} (h : s.phase = .session q) :
    ∃ u b ok err ph, SessionWrites q s.goOn u ∧ resume s = { u with busy := b, ok := ok, err := err, phase := ph } := by
  rw [resume_session h]
  exact conclude_noResult_leaves (resumeSession_writes q s.goOn)

end

/-! The registers that an operation that goes on leaves, by where it stands -/

/-- The parameters, what is still to be presented and the count of free values are no register of an operation (R6, R41). -/
theorem resume_inputs (s : State) :
    (resume s).params = s.params ∧ (resume s).inbox = s.inbox ∧ (resume s).draws = s.draws := by
  by_cases hp : s.phase = .idle
  · rw [resume_idle hp]
    exact ⟨rfl, rfl, rfl⟩
  · have h := resume_stands hp
    exact ⟨h.params, h.inbox, h.draws⟩

/-- What may be written where no Device Session operation runs (R91 to R122). -/
def CommandWrites (s t : State) : Prop :=
  t = { s with cmdr := t.cmdr, ackr := t.ackr, retry := t.retry, txr := t.txr, rxr := t.rxr, par := t.par
               bitcnt := t.bitcnt, ackbit := t.ackbit, rxbit := t.rxbit, clkDrv := t.clkDrv, dataDrv := t.dataDrv
               waitcnt := t.waitcnt, wire := t.wire, trace := t.trace, result := t.result, busy := t.busy, ok := t.ok
               err := t.err, phase := t.phase }

theorem resume_commandWrites {s : State} (h : ∀ q, s.phase ≠ .session q) : CommandWrites s (resume s) := by
  unfold CommandWrites
  cases hp : s.phase with
  | idle => rw [resume_idle hp]
  | sendBit p =>
    obtain ⟨u, _, _, _, _, hu, ht⟩ := resume_sendBit_leaves hp
    rw [ht, hu.1]
    rfl
  | recvBit p =>
    obtain ⟨u, _, _, _, _, hu, ht⟩ := resume_recvBit_leaves hp
    rw [ht, show u = _ from hu]
    rfl
  | sendByte p =>
    obtain ⟨u, _, _, _, _, hu, ht⟩ := resume_sendByte_leaves hp
    rw [ht, hu.1]
    rfl
  | recvByte p =>
    obtain ⟨u, _, _, _, _, hu, ht⟩ := resume_recvByte_leaves hp
    rw [ht, show u = _ from hu]
    rfl
  | command p =>
    obtain ⟨u, _, _, _, _, hu, ht⟩ := resume_command_leaves hp
    rw [ht, hu.1]
    rfl
  | session q => exact absurd hp (h q)

/-- CMDR, ACKR and RETRY are SENDACKED's (R120). -/
theorem resume_keeps_command {s : State} (h : ∀ q, s.phase ≠ .session q) (h' : ∀ p, s.phase ≠ .command p) :
    (resume s).cmdr = s.cmdr ∧ (resume s).ackr = s.ackr ∧ (resume s).retry = s.retry := by
  cases hp : s.phase with
  | idle => rw [resume_idle hp]; exact ⟨rfl, rfl, rfl⟩
  | sendBit p =>
    obtain ⟨u, _, _, _, _, hu, ht⟩ := resume_sendBit_leaves hp
    rw [ht, hu.1]
    exact ⟨rfl, rfl, rfl⟩
  | recvBit p =>
    obtain ⟨u, _, _, _, _, hu, ht⟩ := resume_recvBit_leaves hp
    rw [ht, show u = _ from hu]
    exact ⟨rfl, rfl, rfl⟩
  | sendByte p =>
    obtain ⟨u, _, _, _, _, hu, ht⟩ := resume_sendByte_leaves hp
    rw [ht, hu.1]
    exact ⟨rfl, rfl, rfl⟩
  | recvByte p =>
    obtain ⟨u, _, _, _, _, hu, ht⟩ := resume_recvByte_leaves hp
    rw [ht, show u = _ from hu]
    exact ⟨rfl, rfl, rfl⟩
  | command p => exact absurd hp (h' p)
  | session q => exact absurd hp (h q)

/-- TXR and ACKBIT are SENDBYTE's (R100). -/
theorem resume_keeps_sent {s : State}
    (h : (∃ p, s.phase = .recvByte p) ∨ (∃ p, s.phase = .recvBit p) ∨ (∃ p, s.phase = .sendBit p)) :
    (resume s).txr = s.txr ∧ (resume s).ackbit = s.ackbit := by
  obtain ⟨p, hp⟩ | ⟨p, hp⟩ | ⟨p, hp⟩ := h
  · obtain ⟨u, _, _, _, _, hu, ht⟩ := resume_recvByte_leaves hp
    rw [ht, show u = _ from hu]
    exact ⟨rfl, rfl⟩
  · obtain ⟨u, _, _, _, _, hu, ht⟩ := resume_recvBit_leaves hp
    rw [ht, show u = _ from hu]
    exact ⟨rfl, rfl⟩
  · obtain ⟨u, _, _, _, _, hu, ht⟩ := resume_sendBit_leaves hp
    rw [ht, hu.1]
    exact ⟨rfl, rfl⟩

/-- RESULT is RECVBIT's and RECVBYTE's (R24). -/
theorem resume_keeps_result {s : State} (h : ∀ p, s.phase ≠ .recvByte p) (h' : ∀ p, s.phase ≠ .recvBit p) :
    (resume s).result = s.result := by
  cases hp : s.phase with
  | idle => rw [resume_idle hp]
  | sendBit p =>
    obtain ⟨u, _, _, _, _, hu, ht⟩ := resume_sendBit_leaves hp
    rw [ht, hu.1]
    rfl
  | recvBit p => exact absurd hp (h' p)
  | sendByte p =>
    obtain ⟨u, _, _, _, _, hu, ht⟩ := resume_sendByte_leaves hp
    rw [ht, hu.1]
    rfl
  | recvByte p => exact absurd hp (h p)
  | command p =>
    obtain ⟨u, _, _, _, _, hu, ht⟩ := resume_command_leaves hp
    rw [ht, hu.1]
    rfl
  | session q =>
    obtain ⟨u, _, _, _, _, hu, ht⟩ := resume_session_leaves hp
    rw [ht, hu.1]
    rfl

/-- `SESSION` while a Device Session operation runs, and when it has ended (R142). -/
theorem resume_session_reads {s : State} (hb : s.busy = true) {q : SessionPhase} (hp : s.phase = .session q) :
    (resume s).session = if (resume s).busy then s.session else q.sessionAfter (resume s).ok s.session := by
  obtain ⟨hended, hruns⟩ := resume_sessionReads hb
  rw [hp] at hended
  cases hbusy : (resume s).busy with
  | true => exact hruns hbusy
  | false => exact hended hbusy

/-! A delivery -/

/-- What passes on the wire while an operation runs is a frame that it does not take, or more levels for it. -/
theorem delivery_cases {s t : State} (hb : s.busy = true)
    (h : (∃ i : Instr, (i.fromDevice = true ∨ ∃ v p a, i = .frameTx v p a) ∧ exec i s = .next t) ∨
      ∃ w, t = resume (s.more w)) : t = s ∨ ∃ w, t = resume (s.more w) := by
  obtain ⟨i, hdev | ⟨v, p, a, rfl⟩, hexec⟩ | hmore := h
  · rw [exec_fromDevice hdev, deliver, if_pos hb] at hexec
    exact .inr ⟨_, (Host.Outcome.next.inj hexec).symm⟩
  · by_cases hoff : p = oddParity v ∧ s.frameOffered = some v
    · obtain ⟨rfl, hoff⟩ := hoff
      rw [exec_frameTx_offered a hb hoff] at hexec
      exact .inr ⟨_, (Host.Outcome.next.inj hexec).symm⟩
    · have hrefused : p ≠ oddParity v ∨ (s.busy = true ∧ s.frameOffered ≠ some v) :=
        (not_and_or.1 hoff).imp_right fun h => ⟨hb, h⟩
      rw [exec_frameTx_refused a hrefused] at hexec
      exact .inl (Host.Outcome.next.inj hexec).symm
  · exact .inr hmore

/-- Settles O57: a refused frame changes nothing, and each register is written by the operations that the rules give it to. -/
theorem deliveriesLeave : Obligations.DeliveriesLeave := by
  intro s t hb hpasses
  obtain rfl | ⟨w, rfl⟩ := delivery_cases hb hpasses
  · refine ⟨rfl, rfl, rfl, fun _ => ⟨rfl, rfl, rfl, rfl, fun _ => rfl⟩, fun _ _ => ⟨rfl, rfl, rfl⟩, fun _ => ⟨rfl, rfl⟩,
      fun _ _ => rfl, fun q _ => ⟨(if_pos hb).symm, fun _ => rfl, fun _ => rfl, fun _ => ⟨rfl, rfl, fun _ => rfl⟩,
        fun _ _ => .inl ⟨rfl, rfl⟩⟩⟩
  · obtain ⟨hparams, hinbox, hdraws⟩ := resume_inputs (s.more w)
    refine ⟨hparams, hinbox, hdraws, fun h => ?_, fun h h' => resume_keeps_command (s := s.more w) h h',
      fun h => resume_keeps_sent (s := s.more w) h, fun h h' => resume_keeps_result (s := s.more w) h h', fun q hq => ?_⟩
    · have hwrites := resume_commandWrites (s := s.more w) h
      unfold CommandWrites at hwrites
      rw [hwrites]
      exact ⟨rfl, rfl, rfl, rfl, fun _ => rfl⟩
    · obtain ⟨u, _, _, _, _, hu, ht⟩ := resume_session_writes (s := s.more w) hq
      obtain ⟨hnoRecord, hrecord, hstatus, hmotion⟩ := hu
      refine ⟨resume_session_reads (s := s.more w) hb hq, ?_⟩
      rw [ht]
      refine ⟨hstatus, hmotion, fun hn => ?_, hrecord⟩
      obtain ⟨hbuf, hcnt, hmv⟩ := hnoRecord hn
      exact ⟨hcnt, hmv, fun a => congrArg (Memory.read · a) hbuf⟩

end Sys2Proof.Machine
end
